-- ==== Sys2Proof/Word.lean ====
section
/-! DEFINITION. The two value widths of the hardware: bytes (and characters, which are bytes) and nibbles.
Everything else the spec counts (lengths, cursors, offsets) is a natural number (R13, R54). -/

namespace Sys2Proof

/-- R13: a byte is an unsigned 8-bit value; a character is a byte that holds an ASCII code. -/
abbrev Byte := BitVec 8

/-- R13: a nibble is an unsigned 4-bit value. -/
abbrev Nibble := BitVec 4

end Sys2Proof
end

