-- ==== Sys2Proof/Config.lean ====
section
/-! DEFINITION. The `Config` record of R10: the parameters the source leaves open, fixed for the life of an
instance (R32). The six parameters whose value the source fixes (`CH_CR`, `CH_LF`, `AT_NONE`, `LIGHT_ON`,
`TRIG_EVENT`, `CAL_PREFIX`) are constants and stand, with the default values, in `Machine/Operands.lean`. -/

namespace Sys2Proof

/-- R10: one field per open parameter. `rampIds` is the predicate `IS_LIGHT_RAMP` as the list of the ids that
satisfy it (plain data; log entry 3). `chunkMax` and `txMax` are `none` where unbounded. -/
structure Config where
  /-- `CAP`: capacity of every payload buffer. -/
  cap : Nat
  /-- `CH_STX`: frame-start character. -/
  chStx : Byte
  /-- `CH_ACK`: selects Ack. -/
  chAck : Byte
  /-- `CH_NAK`: selects Nak. -/
  chNak : Byte
  /-- `CH_NAK_CORRUPT`: selects NakCorrupted. -/
  chNakCorrupt : Byte
  /-- `CH_NAK_NOCLOCK`: selects NakNoClock. -/
  chNakNoclock : Byte
  /-- `CH_NAK_TOOLONG`: selects NakTooLong. -/
  chNakToolong : Byte
  /-- `CH_DIRECT`: direct-access character of a CAL frame. -/
  chDirect : Byte
  /-- `CH_RESET`: mode-reset character. -/
  chReset : Byte
  /-- `ACCEPT_LOWER_HEX`: whether `a` to `f` are hex-valid. -/
  acceptLowerHex : Bool
  /-- `AT_ONE`: address-type code of the 1-byte-address variant. -/
  atOne : BitVec 3
  /-- `AT_TWO`: address-type code of the 2-byte-address variant. -/
  atTwo : BitVec 3
  /-- `ROUTE_DIV`: divisor that gives the route-list length. -/
  routeDiv : Nat
  /-- `SHORT_SKIP_BRIDGE`: whether the monitored short form skips one byte. -/
  shortSkipBridge : Bool
  /-- `LIGHT_OFF`: Lighting off command id. -/
  lightOff : Byte
  /-- `LIGHT_TERMINATE`: Lighting terminate-ramp command id. -/
  lightTerminate : Byte
  /-- `IS_LIGHT_RAMP`: the Lighting ramp command ids. -/
  rampIds : List Byte
  /-- `TRIG_MIN`: Trigger min command id. -/
  trigMin : Byte
  /-- `TRIG_MAX`: Trigger max command id. -/
  trigMax : Byte
  /-- `TRIG_KILL`: Trigger kill command id. -/
  trigKill : Byte
  /-- `CHUNK_MAX`: the longest chunk `length` and `cursor` can count, if bounded. -/
  chunkMax : Option Nat
  /-- `TX_MAX`: the longest output of `SAL_ENCODE`, if bounded (R185). -/
  txMax : Option Nat
deriving DecidableEq, Repr

end Sys2Proof
end

