-- ==== Sys2Proof/Syntax.lean ====
section
/-! DEFINITION. The values messages are made of (R36 to R40) and the instruction set: one constructor of `Instr`
per row of spec/opcode_table.json, in the table's order. The table has six kinds of rows: characters (the
framer's instructions, R70), header bytes (R84), command words (R85), fixed outbound bytes and outbound
characters (R92), and host operations (R93, invoked by name, with no bits). -/

namespace Sys2Proof

/-- R36: the closed set of application domains. -/
inductive Domain where
  | lighting
  | trigger
deriving DecidableEq, Repr

/-- R37: the address type of a header. -/
inductive AddrType where
  | noAddr
  | oneByte
  | twoByte
deriving DecidableEq, Repr

/-- R37: a header value. -/
structure Header where
  priority : BitVec 2
  addrType : AddrType
deriving DecidableEq, Repr

/-- R38: a sub-command; `param` is the ramp level of Lighting or the action of Trigger EVENT. -/
structure SubCmd where
  id : Byte
  group : Byte
  param : Option Byte
deriving DecidableEq, Repr

/-- R39: a SAL command; the decoder makes it with `ackChar = none`. -/
structure SalCommand where
  domain : Domain
  subs : List SubCmd
  ackChar : Option Byte
deriving DecidableEq, Repr

/-- R40: a CAL command. -/
structure CalCommand where
  parameterId : Byte
  parameterValue : Byte
  includeChecksum : Bool
deriving DecidableEq, Repr

/-- The instruction set: the rows of spec/opcode_table.json. A ParserState is named by a natural number
(log entry 5). -/
inductive Instr where
  -- characters: HEX_0 … HEX_F
  | hex0 | hex1 | hex2 | hex3 | hex4 | hex5 | hex6 | hex7
  | hex8 | hex9 | hexA | hexB | hexC | hexD | hexE | hexF
  -- characters: HEX_LOWER_a … HEX_LOWER_f (class HEX only under ACCEPT_LOWER_HEX, else class OTHER)
  | hexLowerA | hexLowerB | hexLowerC | hexLowerD | hexLowerE | hexLowerF
  -- characters whose value is a parameter or is fixed by the source
  | stx | cr | lf | ack | nak | nakCorrupt | nakNoclock | nakToolong
  /-- Row OTHER: any character that no row above matches. -/
  | other (c : Byte)
  -- header bytes: bits 7:6 and 5:3 are operands, bits 2:0 the row's code
  | hdrNoaddr (priority : BitVec 2) (ignored : BitVec 3)
  | hdrTwobyte (priority : BitVec 2) (ignored : BitVec 3)
  | hdrOnebyte (priority : BitVec 2) (ignored : BitVec 3)
  | hdrUnrecognised0 (priority : BitVec 2) (ignored : BitVec 3)
  | hdrUnrecognised1 (priority : BitVec 2) (ignored : BitVec 3)
  | hdrUnrecognised2 (priority : BitVec 2) (ignored : BitVec 3)
  | hdrUnrecognised4 (priority : BitVec 2) (ignored : BitVec 3)
  | hdrUnrecognised7 (priority : BitVec 2) (ignored : BitVec 3)
  -- command words of both domains
  /-- `LONG`: id bits 6:5, id bits 4:0, and the skipped bytes that follow the id. -/
  | long (ignored : BitVec 2) (n : BitVec 5) (content : List Byte)
  -- command words of Lighting
  | on (group : Byte)
  | off (group : Byte)
  | terminate (group : Byte)
  | ramp (id group level : Byte)
  | lightUnknown (id : Byte)
  -- command words of Trigger
  | event (group action : Byte)
  | min (group : Byte)
  | max (group : Byte)
  | kill (group : Byte)
  | trigUnknown (id : Byte)
  -- fixed outbound bytes and characters
  | calPrefix | reservedZero | direct | reset | stxOut | crOut
  -- host operations
  | hwReset
  | psReset (ps : Nat)
  | processChunk (ps : Nat) (chars : List Byte) (length cursor : Nat)
  | checksum (bytes : List Byte) (length : Nat)
  | hdrEncode (priority : BitVec 2) (addrTypeCode : BitVec 3)
  | hdrDecode (byte : Byte)
  | locateApp (bytes : List Byte) (length : Nat) (isMonitoredReply isShortForm : Bool)
  | tryParse (bytes : List Byte) (length : Nat) (isMonitoredReply isShortForm : Bool)
  | decodeFrame (ps : Nat) (isShortForm : Bool)
  | addMapping (domain : Domain) (address : Byte)
  | salEncode (domain : Domain) (priority : BitVec 2) (appAddress : Byte) (subs : List SubCmd)
  | calEncode (cal : CalCommand)
  | resetEncode
  | hexEncode (bytes : List Byte)
  | salFrameText (bytes : List Byte) (ackChar : Option Byte)
  | calFrameText (cal : CalCommand)
deriving DecidableEq, Repr

end Sys2Proof
end

