-- ==== Sys2Proof/Machine/Operands.lean ====
section
/-! DEFINITION. Every operand form of the spec: the constants the source fixes and the default parameters
(R10), the legality of a `Config` (R11), hex digits and character classes (R71, R72), nibble pairs (R75),
long-form and route-list lengths (R76, R77), header fields (R78, R84), and the command-id tables
(R86, R87, R169). None of it looks at the machine's state. -/

namespace Sys2Proof

/-! ### Values the source fixes (R10) -/

/-- R10: `CH_CR`, the primary terminator. -/
abbrev chCr : Byte := 0x0D
/-- R10: `CH_LF`, the secondary terminator. -/
abbrev chLf : Byte := 0x0A
/-- R10, R84: `AT_NONE`, the address-type code with no address bytes. -/
abbrev atNone : BitVec 3 := 5
/-- R10, R86: `LIGHT_ON`. -/
abbrev lightOn : Byte := 0x79
/-- R10, R87: `TRIG_EVENT`. -/
abbrev trigEvent : Byte := 0x02
/-- R10, R216: `CAL_PREFIX`. -/
abbrev calPrefixByte : Byte := 0xA3
/-- R181, R219: the reserved zero byte of a SAL or CAL body. -/
abbrev reservedZeroByte : Byte := 0x00

/-- R10's defaults. PRESUMED by the spec (its 93_implementation_defined.md, part 2), not from the source;
`cap` is DESIGN CHOICE 32, the value of the spec's test vectors; the two bounds are left out (log entry 2). -/
def Config.standard : Config where
  cap := 32
  chStx := 0x5C
  chAck := 0x2E
  chNak := 0x23
  chNakCorrupt := 0x24
  chNakNoclock := 0x25
  chNakToolong := 0x27
  chDirect := 0x40
  chReset := 0x7E
  acceptLowerHex := false
  atOne := 6
  atTwo := 3
  routeDiv := 9
  shortSkipBridge := false
  lightOff := 0x01
  lightTerminate := 0x09
  rampIds := [0x02, 0x0A, 0x12, 0x1A, 0x22, 0x2A, 0x32, 0x3A, 0x42, 0x4A, 0x52, 0x5A, 0x62, 0x6A, 0x72, 0x7A]
  trigMin := 0x01
  trigMax := 0x79
  trigKill := 0x09
  chunkMax := none
  txMax := none

namespace Machine

/-! ### Hex digits and nibble pairs -/

/-- R71: the value of a hex digit; lower-case letters only under `ACCEPT_LOWER_HEX`. -/
def hexval (cfg : Config) (c : Byte) : Option Nibble :=
  if 0x30#8 ≤ c ∧ c ≤ 0x39#8 then some ((c - 0x30#8).setWidth 4)
  else if 0x41#8 ≤ c ∧ c ≤ 0x46#8 then some ((c - 0x37#8).setWidth 4)
  else if cfg.acceptLowerHex ∧ 0x61#8 ≤ c ∧ c ≤ 0x66#8 then some ((c - 0x57#8).setWidth 4)
  else none

/-- R71: a character is hex-valid when its hex value is defined. -/
abbrev hexValid (cfg : Config) (c : Byte) : Bool := (hexval cfg c).isSome

/-- R75: the byte of two nibbles, the high one first. -/
def joinNibbles (h l : Nibble) : Byte := (h.setWidth 8 <<< 4) ||| l.setWidth 8

/-- R225: bits 7:4 of a byte. -/
def highNibble (b : Byte) : Nibble := b.extractLsb' 4 4

/-- R225: bits 3:0 of a byte. -/
def lowNibble (b : Byte) : Nibble := b.extractLsb' 0 4

/-- R225: the upper-case character of a nibble. -/
def hexchar (v : Nibble) : Byte :=
  if v ≤ 9#4 then 0x30#8 + v.setWidth 8 else 0x41#8 + (v.setWidth 8 - 10#8)

/-! ### Character classes -/

/-- R72: the four character classes. -/
inductive CharClass where
  | stx
  | hex (v : Nibble)
  | cr
  | other
deriving DecidableEq, Repr

/-- R72: the class of a character, tested in the order STX, HEX, CR, OTHER. -/
def classify (cfg : Config) (c : Byte) : CharClass :=
  if c = cfg.chStx then .stx
  else match hexval cfg c with
    | some v => .hex v
    | none => if c = chCr then .cr else .other

/-! ### Header fields -/

/-- R84: a header byte from its three fields. -/
def packHeader (priority : BitVec 2) (ignored code : BitVec 3) : Byte :=
  (priority.setWidth 8 <<< 6) ||| (ignored.setWidth 8 <<< 3) ||| code.setWidth 8

/-- R78: bits 7:6. -/
def headerPriority (h : Byte) : BitVec 2 := h.extractLsb' 6 2

/-- R78: bits 5:3, ignored on decode. -/
def headerIgnored (h : Byte) : BitVec 3 := h.extractLsb' 3 3

/-- R78: bits 2:0. -/
def headerCode (h : Byte) : BitVec 3 := h.extractLsb' 0 3

/-- R84, R151: the address type of a code; every unrecognised code is OneByte. -/
def addrTypeOf (cfg : Config) (code : BitVec 3) : AddrType :=
  if code = atNone then .noAddr else if code = cfg.atTwo then .twoByte else .oneByte

/-- R84: the codes that are none of `AT_NONE`, `AT_TWO`, `AT_ONE`, rising (five of them in a legal `Config`;
0, 1, 2, 4, 7 under the defaults). -/
def unrecognisedCodes (cfg : Config) : List (BitVec 3) :=
  [0, 1, 2, 3, 4, 5, 6, 7].filter fun k => k ≠ atNone ∧ k ≠ cfg.atTwo ∧ k ≠ cfg.atOne

/-- R151: `HDR_DECODE`. -/
def headerDecode (cfg : Config) (h : Byte) : Header :=
  { priority := headerPriority h, addrType := addrTypeOf cfg (headerCode h) }

/-- R150: `HDR_ENCODE`; bits 5:3 are 0. -/
def headerEncode (priority : BitVec 2) (code : BitVec 3) : Byte := packHeader priority 0 code

/-! ### Command ids and lengths -/

/-- R85: id bit 7 marks a long-form word. -/
abbrev isLongForm (id : Byte) : Bool := id.msb

/-- R76: the long-form length operand, id bits 4:0. -/
def longLength (id : Byte) : Nat := (id.extractLsb' 0 5).toNat

/-- R76, R85: the id byte of a long-form word from its fields. -/
def packLong (ignored : BitVec 2) (n : BitVec 5) : Byte :=
  0x80#8 ||| (ignored.setWidth 8 <<< 5) ||| n.setWidth 8

/-- R77: the route-list length, floor division. -/
def routeCount (cfg : Config) (r : Byte) : Nat := r.toNat / cfg.routeDiv

/-- R86: `IS_LIGHT_RAMP`. -/
abbrev isLightRamp (cfg : Config) (id : Byte) : Bool := cfg.rampIds.contains id

/-- R169: `ShortForm(domain, id)`, the number of trailing bytes of a short-form word, `none` for an
unrecognised id. -/
def shortForm (cfg : Config) (d : Domain) (id : Byte) : Option Nat :=
  match d with
  | .lighting =>
    if id = lightOn ∨ id = cfg.lightOff ∨ id = cfg.lightTerminate then some 1
    else if isLightRamp cfg id then some 2 else none
  | .trigger =>
    if id = cfg.trigMin ∨ id = cfg.trigMax ∨ id = cfg.trigKill then some 1
    else if id = trigEvent then some 2 else none

/-- R183: a sub-command is well-formed for a domain. -/
def subCmdWellFormed (cfg : Config) (d : Domain) (sc : SubCmd) : Bool :=
  !isLongForm sc.id &&
  match shortForm cfg d sc.id with
  | none => false
  | some k => sc.param.isSome == (k == 2)

/-! ### Legality of a Config -/

/-- R11 (a): the five outcome codes are pairwise distinct. -/
def outcomeCodesLegal (cfg : Config) : Bool :=
  decide [cfg.chAck, cfg.chNak, cfg.chNakCorrupt, cfg.chNakNoclock, cfg.chNakToolong].Nodup

/-- R11 (b): `CH_STX` and `CH_CR` are not hex-valid. -/
def framingCharsLegal (cfg : Config) : Bool := [cfg.chStx, chCr].all fun c => !hexValid cfg c

/-- R11 (c): the three address-type codes are pairwise distinct. -/
def addrCodesLegal (cfg : Config) : Bool := decide [atNone, cfg.atOne, cfg.atTwo].Nodup

/-- R11 (d), Lighting: the three plain ids are distinct, none is a ramp id, and all ids have bit 7 clear. -/
def lightingIdsLegal (cfg : Config) : Bool :=
  decide [lightOn, cfg.lightOff, cfg.lightTerminate].Nodup &&
  ([lightOn, cfg.lightOff, cfg.lightTerminate].all fun id => !isLightRamp cfg id) &&
  (lightOn :: cfg.lightOff :: cfg.lightTerminate :: cfg.rampIds).all fun id => !isLongForm id

/-- R11 (d), Trigger: the four ids are distinct and have bit 7 clear. -/
def triggerIdsLegal (cfg : Config) : Bool :=
  decide [trigEvent, cfg.trigMin, cfg.trigMax, cfg.trigKill].Nodup &&
  [trigEvent, cfg.trigMin, cfg.trigMax, cfg.trigKill].all fun id => !isLongForm id

/-- R11 (e): `CAP >= 1` and `ROUTE_DIV >= 1`. -/
def sizesLegal (cfg : Config) : Bool := decide (1 ≤ cfg.cap ∧ 1 ≤ cfg.routeDiv)

/-- R11: the constraints every `Config` satisfies, (a) to (e). -/
def configLegal (cfg : Config) : Bool :=
  outcomeCodesLegal cfg && framingCharsLegal cfg && addrCodesLegal cfg && lightingIdsLegal cfg &&
  triggerIdsLegal cfg && sizesLegal cfg

end Machine

end Sys2Proof
end

