-- ==== Sys2Proof/Machine/Memory.lean ====
section
/-! DEFINITION. Sparse stores: the ParserStates by their number and the address map by its wire address (R35, R50).
A store is a list of (index, element) pairs in one canonical form: indices strictly rising, and no entry equal to
what an unlisted index reads as. -/

namespace Sys2Proof.Machine

variable {α : Type}

/-- Read one element; an unlisted index reads as `dflt`. -/
def memGet (dflt : α) : List (Nat × α) → Nat → α
  | [], _ => dflt
  | (k, v) :: m, i => if i < k then dflt else if i = k then v else memGet dflt m i

/-- Write one element; writing `dflt` removes the entry. -/
def memSet [DecidableEq α] (dflt : α) : List (Nat × α) → Nat → α → List (Nat × α)
  | [], i, v => if v = dflt then [] else [(i, v)]
  | (k, w) :: m, i, v =>
    if i < k then (if v = dflt then (k, w) :: m else (i, v) :: (k, w) :: m)
    else if i = k then (if v = dflt then memSet dflt m i v else (i, v) :: m)
    else (k, w) :: memSet dflt m i v

/-- The canonical form: indices strictly rising, no entry equal to `dflt`. -/
abbrev Memory.wf [DecidableEq α] (dflt : α) (m : List (Nat × α)) : Prop :=
  m.Pairwise (fun x y => x.1 < y.1) ∧ ∀ e ∈ m, e.2 ≠ dflt

end Sys2Proof.Machine
end

