-- ==== Sys2Proof/Machine/State.lean ====
section
/-! DEFINITION. Everything the machine holds. The spec's own state is the ParserStates and the address map with
its fault flag (R20, R21, R33, R35). The other fields are the model's: the parameters of the instance (R10), the
operation a unit is in the middle of (with the two program counters of R24 and R25) and the ParserState it holds
(R259), the map's lifecycle phase (R256), the outputs of the last operation (R26, R53, R93), and the host's
invocations (R44). -/

namespace Sys2Proof.Machine

/-- R29: the framer's phase. -/
inductive Phase where
  | idle
  | ackPending
  | stxFound
  | expectHighNibble
  | expectLowNibble
  | complete
deriving DecidableEq, Repr

/-- R28: MessageClassification. -/
inductive Cls where
  | none
  | ack
  | nak
  | nakCorrupted
  | nakNoClock
  | nakTooLong
  | salReceived
  | monitoredSalReceived
  | pending
deriving DecidableEq, Repr

/-- R21: a ParserState. `buf` holds exactly the `len` visible bytes (R34), so `len` is its length. -/
structure ParserState where
  phase : Phase
  buf : List Byte
  prev : Byte
  ack : Option Byte
  cls : Cls
deriving DecidableEq, Repr

/-- R21: the fill level `len`. -/
abbrev ParserState.len (p : ParserState) : Nat := p.buf.length

/-- R42: a ParserState after `HW_RESET`. `prev` is unspecified there and 0 here (DESIGN CHOICE, log entry 4). -/
def ParserState.reset : ParserState where
  phase := .idle
  buf := []
  prev := 0
  ack := none
  cls := .none

/-- The operation a unit of the block is in the middle of (R8): the positions between two instructions of one unit,
when an operation is stepped (log entry 8). -/
inductive Activity where
  /-- No unit is in the middle of an operation. -/
  | idle
  /-- R24, R113: the framer works on ParserState `ps`; `cursor` is its program counter in the chunk `chars`. -/
  | framing (ps : Nat) (chars : List Byte) (cursor : Nat)
  /-- R151: `HDR_DECODE` has its header byte next. -/
  | decodingHeader (byte : Byte)
  /-- R160: `LOCATE_APP` of a locally-originated frame has its header byte (index 0) next. -/
  | locating (bytes : List Byte) (length : Nat)
  /-- R204: `TRY_PARSE` of a locally-originated frame has its header byte (index 0) next. -/
  | parsing (bytes : List Byte) (length : Nat)
  /-- R25, R167: the decoder is at `dpos` in the command region that ends at `stop` (R166's `end`); `subs` are
  the sub-commands so far. -/
  | words (domain : Domain) (bytes : List Byte) (stop dpos : Nat) (subs : List SubCmd)
deriving DecidableEq, Repr

/-- R93: what the last operation that returned gave its host. -/
inductive Result where
  /-- No operation has returned since reset. -/
  | nothing
  /-- The operation has no output. -/
  | done
  /-- R201: `ADD_MAPPING` returned ok. -/
  | ok
  /-- R203: `ADD_MAPPING` reported ConfigFault. -/
  | configFault
  /-- The optional result `none`: R160, R181, R204. -/
  | absent
  /-- R113: `(done, cursor')` of `PROCESS_CHUNK`. -/
  | chunk (done : Bool) (cursor : Nat)
  /-- R140, R150: a byte. -/
  | byte (b : Byte)
  /-- R151: a header value. -/
  | header (h : Header)
  /-- R160: `some(applicationId, payloadOffset)`. -/
  | located (applicationId : Byte) (payloadOffset : Nat)
  /-- R204: `some` SAL command. -/
  | sal (c : SalCommand)
  /-- R181, R216: bytes, in the output buffer of bytes. -/
  | bytes
  /-- R215, R225, R226, R228: characters, in the output buffer of characters. -/
  | text
deriving DecidableEq, Repr

/-- R12, R93: an operation the host has invoked. It runs whole, in one step (R12); if the host asks for it, it is
`stepped`: its unit takes one character, header byte or command word a step (R8; log entry 8). -/
structure Invocation where
  op : Instr
  stepped : Bool
deriving DecidableEq, Repr

/-- The machine's state: plain data. -/
structure State where
  /-- R10, R32: the parameters of this instance; no operation changes them (log entry 1). -/
  cfg : Config
  /-- R20: the ParserStates by number; an unlisted one is as after reset (log entry 5). -/
  parsers : List (Nat × ParserState)
  /-- R35: the ApplicationAddressMap by wire address; an unlisted address is unbound. -/
  map : List (Nat × Option Domain)
  /-- R33: `map_fault`, sticky. -/
  mapFault : Bool
  /-- R256: the map's lifecycle phase is Shared (a lookup has been issued); the model's own (log entry 15). -/
  mapShared : Bool
  /-- R8: the operation in progress; the model's own (log entry 8). -/
  unit : Activity
  /-- R206, R259: the ParserState that a `DECODE_FRAME` in progress works on; the model's own (log entry 17). -/
  decoding : Option Nat
  /-- R93: the last operation's output; the model's own (log entry 18). -/
  result : Result
  /-- R50, R53: the output buffer of bytes. -/
  outBytes : List Byte
  /-- R50, R53: the output buffer of characters. -/
  outText : List Byte
  /-- R44: the operations the host has invoked and the block has not begun; the model's own (log entry 7). -/
  pending : List Invocation
deriving DecidableEq, Repr

/-- R42, R270: the machine right after `HW_RESET`, with the default parameters. -/
def State.reset : State where
  cfg := Config.standard
  parsers := []
  map := []
  mapFault := false
  mapShared := false
  unit := .idle
  decoding := none
  result := .nothing
  outBytes := []
  outText := []
  pending := []

/-- What stops the machine with a fault. -/
inductive Fault where
  /-- Raised by `PROCESS_CHUNK` and by a character row, on a ParserState outside R30's invariants: phase
  ExpectLowNibble with a `prev` that is not hex-valid. R101 defines `Step` on R30's states only and R31 says no
  other can occur. Safe. -/
  | parserOutsideInvariants
deriving DecidableEq, Repr

/-- What the model gives no meaning to. -/
inductive Refusal where
  /-- Raised by an arm of `exec` whose instruction has no meaning yet (none now). Safe. -/
  | notModelled (mnemonic : String)
  /-- R11: raised by `step` when the instance's `Config` breaks a constraint. Safe. -/
  | illegalConfig
  /-- R44, R95: raised by a character, header or command-word row when no unit is reading its space: nothing
  fetches it there. Safe. -/
  | noUnitReadsThisSpace
  /-- R33: raised by `ADD_MAPPING`, `TRY_PARSE`, `DECODE_FRAME` (and by the router's header rows) while
  `map_fault` is 1. Safe. -/
  | mapHalted
  /-- R65, R256: raised by `ADD_MAPPING` after the first lookup. Safe. -/
  | mappingAfterLookup
  /-- R60, R259: raised by an operation on a ParserState that the framer is in the middle of, and by
  `ADD_MAPPING` in the middle of a lookup. Safe. -/
  | overlappingOperation
  /-- R206: raised by `DECODE_FRAME` on a ParserState that holds no SAL frame. Safe. -/
  | noSalFrame
  /-- R51, R140, R166: raised by an operation whose `length` is above the number of bytes it is given. Safe. -/
  | lengthPastBytes
  /-- R24, R113, R276: raised by `PROCESS_CHUNK` with a `cursor` above `length` (log entry 21). Safe. -/
  | cursorPastLength
  /-- R10: raised by `PROCESS_CHUNK` with a `length` above `CHUNK_MAX`. Safe. -/
  | chunkTooLong
deriving DecidableEq, Repr

end Sys2Proof.Machine
end

