-- ==== Sys2Proof/Machine/Flags.lean ====
section
/-! DEFINITION. The status values of R26: the terminal classifications, the checksum (R140) and the derived output
`csum` (R27). The block has no arithmetic condition codes. -/

namespace Sys2Proof.Machine

/-- R140: the 8-bit sum of bytes, carry discarded. -/
def byteSum : List Byte → Byte
  | [] => 0
  | b :: bs => b + byteSum bs

/-- R140: `checksum8`, the two's complement of the sum modulo 256. -/
def checksum8 (bytes : List Byte) : Byte := -byteSum bytes

/-- R27: `csum`, derived from the buffer and stored nowhere. -/
def ParserState.csum (p : ParserState) : Byte := checksum8 p.buf

/-- R18: the terminal classifications. -/
def Cls.terminal : Cls → Bool
  | .none => false
  | .pending => false
  | .ack => true
  | .nak => true
  | .nakCorrupted => true
  | .nakNoClock => true
  | .nakTooLong => true
  | .salReceived => true
  | .monitoredSalReceived => true

/-- R206: the classifications that come with a frame to decode. -/
def Cls.hasFrame : Cls → Bool
  | .salReceived => true
  | .monitoredSalReceived => true
  | _ => false

end Sys2Proof.Machine
end

