-- ==== Sys2Proof/Machine/Ops.lean ====
section
/-! DEFINITION. The named operations over the machine's state: reading and writing a ParserState and a map entry,
returning a result, the output buffers, and the three "trap entries" of the spec (R250 to R252). There is no
return from a trap (R252, R253). -/

namespace Sys2Proof.Machine

/-- What every meaning answers. -/
abbrev Answer := Host.Outcome State Fault Refusal

/-! ### ParserStates -/

/-- R20: the ParserState named `ps`. -/
def State.parser (s : State) (ps : Nat) : ParserState := memGet ParserState.reset s.parsers ps

/-- R20: the ParserState named `ps` takes a new value. -/
def State.setParser (s : State) (ps : Nat) (p : ParserState) : State :=
  { s with parsers := memSet ParserState.reset s.parsers ps p }

/-! ### The address map -/

/-- R35: the domain an address is bound to. -/
def State.domainAt (s : State) (a : Byte) : Option Domain := memGet none s.map a.toNat

/-- R201: an address is bound to a domain. -/
def State.bindAddress (s : State) (a : Byte) (d : Domain) : State :=
  { s with map := memSet none s.map a.toNat (some d) }

/-- R256: a lookup has been issued, the map is Shared from here on. -/
def State.shareMap (s : State) : State := { s with mapShared := true }

/-! ### Returning -/

/-- An operation that ran whole returns `r` (R12). -/
def State.ret (s : State) (r : Result) : State := { s with result := r }

/-- The unit in the middle of an operation ends it and returns `r`; nothing stays in flight (R41). -/
def State.finish (s : State) (r : Result) : State := { s with unit := .idle, decoding := none, result := r }

/-- The unit goes on to its next instruction. -/
def State.continueAt (s : State) (u : Activity) : State := { s with unit := u }

/-- R259: a `DECODE_FRAME` of the ParserState `ps` begins, stepped; `finish` ends it. -/
def State.holdParser (s : State) (ps : Nat) : State := { s with decoding := some ps }

/-- R53: an operation produces bytes whole. -/
def State.produceBytes (s : State) (bs : List Byte) : State := { s with outBytes := bs, result := .bytes }

/-- R53: an operation produces characters whole. -/
def State.produceText (s : State) (cs : List Byte) : State := { s with outText := cs, result := .text }

/-! ### Failures (R240 to R253) -/

/-- R242: why a candidate is discarded; a label that no state records (R241). -/
inductive MalformedCause where
  | mAck
  | mStx
  | mHigh
  | mLow
  | mOverflow
deriving DecidableEq, Repr

/-- R243: why a decode fails; a label that no state records (R241). -/
inductive DecodeCause where
  | fTrunc
  | fHeader
  | fUnbound
  | fUnknownId
deriving DecidableEq, Repr

/-- R104, R250: `Malformed(cause)`, the framing-level trap entry. -/
def malformed (_cause : MalformedCause) (p : ParserState) : ParserState :=
  { p with phase := .idle, buf := [], ack := none, cls := .pending }

/-- R205, R251: the decode-level trap entry of a unit in the middle of a decode: the result is `none`, and
nothing else of the block changes. -/
def State.failDecode (s : State) (_cause : DecodeCause) : State := s.finish .absent

/-- R203, R252: the trap entry of ConfigFault: the sticky flag, and the report. -/
def State.raiseConfigFault (s : State) : State := { s with mapFault := true, result := .configFault }

/-! ### Who is in the middle of what (R60, R259) -/

/-- The framer is in the middle of a call on the ParserState `ps`. -/
def State.framerHolds (s : State) (ps : Nat) : Bool :=
  match s.unit with
  | .framing q _ _ => q == ps
  | _ => false

/-- R259, D39: an operation on the ParserState `ps` is in progress, a `PROCESS_CHUNK` or a `DECODE_FRAME`; any other
operation on it is refused until it has ended. -/
def State.parserBusy (s : State) (ps : Nat) : Bool := s.framerHolds ps || s.decoding == some ps

/-- The router is in the middle of a lookup; R60 has an `ADD_MAPPING` refused then. -/
def State.routerBusy (s : State) : Bool :=
  match s.unit with
  | .parsing _ _ => true
  | .words _ _ _ _ _ => true
  | _ => false

end Sys2Proof.Machine
end

