-- ==== Sys2Proof/Machine/FramerOps.lean ====
section
/-! DEFINITION. The framer (40_framer.md): the per-character transition `Step` (R101 to R112), the chunk loop
(R113 to R115), and one character of it when the framer is stepped. -/

namespace Sys2Proof.Machine

/-- R103: `Restart`. -/
def restart (p : ParserState) : ParserState := { p with buf := [], ack := none, cls := .pending }

/-- What the phase rule of R101 makes of a character. -/
inductive PhaseOutcome where
  | go (p : ParserState)
  | discard (cause : MalformedCause)
  /-- The ParserState is outside R30: `prev` is not hex-valid where a high nibble is read from it. -/
  | undefined
deriving DecidableEq, Repr

/-- R102: phase Idle or Complete. -/
def phaseIdle (cfg : Config) (p : ParserState) (c : Byte) : PhaseOutcome :=
  match classify cfg c with
  | .stx => .go { restart p with phase := .stxFound }
  | .hex _ => .go { restart p with phase := .expectLowNibble }
  | .cr => .go { restart p with phase := .ackPending }
  | .other => .go { restart p with phase := .ackPending }

/-- R106: phase StxFound. -/
def phaseStxFound (cfg : Config) (p : ParserState) (c : Byte) : PhaseOutcome :=
  if hexValid cfg c then .go { p with phase := .expectLowNibble } else .discard .mStx

/-- R107: phase AckPending; the character is compared by value, whatever its class (R73). -/
def phaseAckPending (cfg : Config) (p : ParserState) (c : Byte) : PhaseOutcome :=
  if c = cfg.chAck then .go { p with cls := .ack, ack := some p.prev, phase := .complete }
  else if c = cfg.chNak then .go { p with cls := .nak, phase := .complete }
  else if c = cfg.chNakCorrupt then .go { p with cls := .nakCorrupted, phase := .complete }
  else if c = cfg.chNakNoclock then .go { p with cls := .nakNoClock, phase := .complete }
  else if c = cfg.chNakToolong then .go { p with cls := .nakTooLong, phase := .complete }
  else .discard .mAck

/-- R108 to R110: phase ExpectHighNibble. R11 allows `CH_STX = CH_CR`; there R110 and R248 test the character by value and
complete the frame, while the class of R72 and the STX column of R116 discard it. Here R110's test decides (DESIGN CHOICE,
log entry 32). -/
def phaseExpectHigh (cfg : Config) (p : ParserState) (c : Byte) : PhaseOutcome :=
  if hexValid cfg c then .go { p with phase := .expectLowNibble }
  else if c = chCr then .go { p with cls := .salReceived, phase := .complete }
  else .discard .mHigh

/-- R111, R112: phase ExpectLowNibble; the only write to `buf`. -/
def phaseExpectLow (cfg : Config) (p : ParserState) (c : Byte) : PhaseOutcome :=
  match hexval cfg c with
  | none => .discard .mLow
  | some l =>
    if p.len < cfg.cap then
      match hexval cfg p.prev with
      | some h => .go { p with buf := p.buf ++ [joinNibbles h l], phase := .expectHighNibble }
      | none => .undefined
    else .discard .mOverflow

/-- R101: the phase rule that `phase` selects. -/
def phaseRule (cfg : Config) (p : ParserState) (c : Byte) : PhaseOutcome :=
  match p.phase with
  | .idle => phaseIdle cfg p c
  | .complete => phaseIdle cfg p c
  | .stxFound => phaseStxFound cfg p c
  | .ackPending => phaseAckPending cfg p c
  | .expectHighNibble => phaseExpectHigh cfg p c
  | .expectLowNibble => phaseExpectLow cfg p c

/-- R101, R105: `Step(s, c)`; `none` only outside R30. -/
def framerStep (cfg : Config) (p : ParserState) (c : Byte) : Option ParserState :=
  match phaseRule cfg p c with
  | .go q => some { q with prev := c }
  | .discard cause => some { malformed cause p with prev := c }
  | .undefined => none

/-- One turn of the chunk loop (R113) on the character `c` at `cursor`: the new ParserState, the new cursor, and
whether the call returns true. The peek is R115. -/
def consumeChar (cfg : Config) (chars : List Byte) (cursor : Nat) (p : ParserState) (c : Byte) :
    Option (ParserState × Nat × Bool) :=
  match framerStep cfg p c with
  | none => none
  | some q =>
    if q.cls.terminal then
      if q.cls = .salReceived ∧ chars[cursor + 1]? = some chLf then
        some ({ q with cls := .monitoredSalReceived, prev := chLf }, cursor + 2, true)
      else some (q, cursor + 1, true)
    else some (q, cursor + 1, false)

/-- R113: the chunk loop, from `cursor`, for at most `fuel` characters. -/
def chunkLoop (cfg : Config) (chars : List Byte) : Nat → Nat → ParserState → Option (Bool × Nat × ParserState)
  | 0, cursor, p => some (false, cursor, p)
  | fuel + 1, cursor, p =>
    match chars[cursor]? with
    | none => some (false, cursor, p)
    | some c =>
      match consumeChar cfg chars cursor p c with
      | none => none
      | some (q, cursor', true) => some (true, cursor', q)
      | some (q, cursor', false) => chunkLoop cfg chars fuel cursor' q

/-- R113: `PROCESS_CHUNK` as a function; there are `length - cursor` characters at most to consume (R118). -/
def processChunk (cfg : Config) (chars : List Byte) (cursor : Nat) (p : ParserState) :
    Option (Bool × Nat × ParserState) :=
  chunkLoop cfg chars (chars.length - cursor) cursor p

/-- The framer consumes the character `c` at its program counter (R8, R113): it goes on to the next character, or
it returns, at a terminal classification or at the end of the chunk. -/
def feedChar (c : Byte) (s : State) : Answer :=
  match s.unit with
  | .framing ps chars cursor =>
    match consumeChar s.cfg chars cursor (s.parser ps) c with
    | none => .fault .parserOutsideInvariants
    | some (q, cursor', done) =>
      if done ∨ chars.length ≤ cursor' then .next ((s.setParser ps q).finish (.chunk done cursor'))
      else .next ((s.setParser ps q).continueAt (.framing ps chars cursor'))
  | _ => .refused .noUnitReadsThisSpace

end Sys2Proof.Machine
end

