-- ==== Sys2Proof/Machine/Characters.lean ====
section
/-! DEFINITION. The character rows: each gives its character to the framer, which takes the transition of R116 for
its phase and its class, found from the character's value (R72, R73). -/

namespace Sys2Proof.Machine

/-- Row HEX_0 (R71: nibble 0). -/
def execHex0 (s : State) : Answer := feedChar 0x30 s

/-- Row HEX_1 (R71: nibble 1). -/
def execHex1 (s : State) : Answer := feedChar 0x31 s

/-- Row HEX_2 (R71: nibble 2). -/
def execHex2 (s : State) : Answer := feedChar 0x32 s

/-- Row HEX_3 (R71: nibble 3). -/
def execHex3 (s : State) : Answer := feedChar 0x33 s

/-- Row HEX_4 (R71: nibble 4). -/
def execHex4 (s : State) : Answer := feedChar 0x34 s

/-- Row HEX_5 (R71: nibble 5). -/
def execHex5 (s : State) : Answer := feedChar 0x35 s

/-- Row HEX_6 (R71: nibble 6). -/
def execHex6 (s : State) : Answer := feedChar 0x36 s

/-- Row HEX_7 (R71: nibble 7). -/
def execHex7 (s : State) : Answer := feedChar 0x37 s

/-- Row HEX_8 (R71: nibble 8). -/
def execHex8 (s : State) : Answer := feedChar 0x38 s

/-- Row HEX_9 (R71: nibble 9). -/
def execHex9 (s : State) : Answer := feedChar 0x39 s

/-- Row HEX_A (R71: nibble A). -/
def execHexA (s : State) : Answer := feedChar 0x41 s

/-- Row HEX_B (R71: nibble B). -/
def execHexB (s : State) : Answer := feedChar 0x42 s

/-- Row HEX_C (R71: nibble C). -/
def execHexC (s : State) : Answer := feedChar 0x43 s

/-- Row HEX_D (R71: nibble D). -/
def execHexD (s : State) : Answer := feedChar 0x44 s

/-- Row HEX_E (R71: nibble E). -/
def execHexE (s : State) : Answer := feedChar 0x45 s

/-- Row HEX_F (R71: nibble F). -/
def execHexF (s : State) : Answer := feedChar 0x46 s

/-- Row HEX_LOWER_a (R71: nibble A under `ACCEPT_LOWER_HEX`, otherwise class OTHER). -/
def execHexLowerA (s : State) : Answer := feedChar 0x61 s

/-- Row HEX_LOWER_b (R71: nibble B under `ACCEPT_LOWER_HEX`, otherwise class OTHER). -/
def execHexLowerB (s : State) : Answer := feedChar 0x62 s

/-- Row HEX_LOWER_c (R71: nibble C under `ACCEPT_LOWER_HEX`, otherwise class OTHER). -/
def execHexLowerC (s : State) : Answer := feedChar 0x63 s

/-- Row HEX_LOWER_d (R71: nibble D under `ACCEPT_LOWER_HEX`, otherwise class OTHER). -/
def execHexLowerD (s : State) : Answer := feedChar 0x64 s

/-- Row HEX_LOWER_e (R71: nibble E under `ACCEPT_LOWER_HEX`, otherwise class OTHER). -/
def execHexLowerE (s : State) : Answer := feedChar 0x65 s

/-- Row HEX_LOWER_f (R71: nibble F under `ACCEPT_LOWER_HEX`, otherwise class OTHER). -/
def execHexLowerF (s : State) : Answer := feedChar 0x66 s

/-- Row STX (R102, R106): the frame-start character. -/
def execStx (s : State) : Answer := feedChar s.cfg.chStx s

/-- Row CR (R110, R115): the primary terminator. -/
def execCr (s : State) : Answer := feedChar chCr s

/-- Row LF (R115): consumed by a `Step` it is of class OTHER; the peek after a CR consumes it with the CR. -/
def execLf (s : State) : Answer := feedChar chLf s

/-- Row ACK (R107). -/
def execAck (s : State) : Answer := feedChar s.cfg.chAck s

/-- Row NAK (R107). -/
def execNak (s : State) : Answer := feedChar s.cfg.chNak s

/-- Row NAK_CORRUPT (R107). -/
def execNakCorrupt (s : State) : Answer := feedChar s.cfg.chNakCorrupt s

/-- Row NAK_NOCLOCK (R107). -/
def execNakNoclock (s : State) : Answer := feedChar s.cfg.chNakNoclock s

/-- Row NAK_TOOLONG (R107). -/
def execNakToolong (s : State) : Answer := feedChar s.cfg.chNakToolong s

/-- Row OTHER (R72): any other character. -/
def execOther (c : Byte) (s : State) : Answer := feedChar c s

end Sys2Proof.Machine
end

