-- ==== Sys2Proof/Machine/DecoderOps.lean ====
section
/-! DEFINITION. The decoder and the router (43_sal_commands.md, 44_address_map.md): bounds (R166), the five cases
of `LOCATE_APP` (R160 to R165), the sub-command decode loop (R167 to R171), `TRY_PARSE` (R204), and one header
byte or one command word of them when the decoder is stepped. -/

namespace Sys2Proof.Machine

/-- R166: `rd(i)`, where `stop` is the index of the checksum byte. -/
def rd (bytes : List Byte) (stop i : Nat) : Except DecodeCause Byte :=
  if i < stop then
    match bytes[i]? with
    | some b => .ok b
    | none => .error .fTrunc
  else .error .fTrunc

/-- R160: the command region begins at or before its end. -/
def checkOffset (stop : Nat) (loc : Byte × Nat) : Except DecodeCause (Byte × Nat) :=
  if loc.2 ≤ stop then .ok loc else .error .fTrunc

/-- R161: layout L-NONE. -/
def locateNoAddr (bytes : List Byte) (stop : Nat) : Except DecodeCause (Byte × Nat) := do
  let app ← rd bytes stop 1
  checkOffset stop (app, 3)

/-- R162: layout L-TWO. -/
def locateTwoByte (cfg : Config) (bytes : List Byte) (stop : Nat) : Except DecodeCause (Byte × Nat) := do
  let r ← rd bytes stop 2
  let n := routeCount cfg r
  let app ← rd bytes stop (3 + n)
  checkOffset stop (app, 5 + n)

/-- R161 to R163: a locally-originated frame whose header has the address type `t`. -/
def locateLocal (cfg : Config) (t : AddrType) (bytes : List Byte) (stop : Nat) : Except DecodeCause (Byte × Nat) :=
  match t with
  | .noAddr => locateNoAddr bytes stop
  | .twoByte => locateTwoByte cfg bytes stop
  | .oneByte => .error .fHeader

/-- R164: layout M-LONG. -/
def locateMonitoredLong (cfg : Config) (bytes : List Byte) (stop : Nat) : Except DecodeCause (Byte × Nat) := do
  let r ← rd bytes stop 3
  let n := routeCount cfg r
  let app ← rd bytes stop 2
  checkOffset stop (app, 4 + n)

/-- R165: layout M-SHORT. -/
def locateMonitoredShort (cfg : Config) (bytes : List Byte) (stop : Nat) : Except DecodeCause (Byte × Nat) := do
  let k := if cfg.shortSkipBridge then 1 else 0
  let app ← rd bytes stop k
  checkOffset stop (app, k + 2)

/-- R160, R166: `LOCATE_APP`. -/
def locateApp (cfg : Config) (bytes : List Byte) (length : Nat) (isMonitoredReply isShortForm : Bool) :
    Except DecodeCause (Byte × Nat) :=
  if length = 0 then .error .fTrunc
  else
    let stop := length - 1
    if !isMonitoredReply then do
      let h ← rd bytes stop 0
      locateLocal cfg (headerDecode cfg h).addrType bytes stop
    else if !isShortForm then locateMonitoredLong cfg bytes stop
    else locateMonitoredShort cfg bytes stop

/-- R167, R171 to R179: the command word at `dpos`: the sub-command it yields (a LONG word yields none) and its
length. -/
def wordAt (cfg : Config) (d : Domain) (bytes : List Byte) (stop dpos : Nat) :
    Except DecodeCause (Option SubCmd × Nat) := do
  let id ← rd bytes stop dpos
  if isLongForm id then
    if dpos + 1 + longLength id ≤ stop then .ok (none, 1 + longLength id) else .error .fTrunc
  else
    match shortForm cfg d id with
    | none => .error .fUnknownId
    | some k =>
      if dpos + 1 + k ≤ stop then do
        let group ← rd bytes stop (dpos + 1)
        if k = 2 then do
          let param ← rd bytes stop (dpos + 2)
          .ok (some { id, group, param := some param }, 1 + k)
        else .ok (some { id, group, param := none }, 1 + k)
      else .error .fTrunc

/-- R167: the decode loop from `dpos`, for at most `fuel` words (every word has at least one byte). -/
def decodeSubsLoop (cfg : Config) (d : Domain) (bytes : List Byte) (stop : Nat) :
    Nat → Nat → Except DecodeCause (List SubCmd)
  | 0, dpos => if stop ≤ dpos then .ok [] else .error .fTrunc
  | fuel + 1, dpos =>
    if stop ≤ dpos then .ok []
    else
      match wordAt cfg d bytes stop dpos with
      | .error e => .error e
      | .ok (sc, len) =>
        match decodeSubsLoop cfg d bytes stop fuel (dpos + len) with
        | .error e => .error e
        | .ok rest => .ok (sc.toList ++ rest)

/-- R167: `DecodeSubs(domain, bytes, dpos, end)`. -/
def decodeSubs (cfg : Config) (d : Domain) (bytes : List Byte) (dpos stop : Nat) :
    Except DecodeCause (List SubCmd) :=
  decodeSubsLoop cfg d bytes stop (stop - dpos) dpos

/-- R204: look the application up and dispatch to its domain's decoder. -/
def dispatchApp (s : State) (bytes : List Byte) (stop : Nat) (loc : Byte × Nat) : Except DecodeCause SalCommand :=
  match s.domainAt loc.1 with
  | none => .error .fUnbound
  | some d => do
    let subs ← decodeSubs s.cfg d bytes loc.2 stop
    .ok { domain := d, subs, ackChar := none }

/-- R204: `TRY_PARSE` as a function; its causes come in the order of R249. -/
def tryParse (s : State) (bytes : List Byte) (length : Nat) (isMonitoredReply isShortForm : Bool) :
    Except DecodeCause SalCommand := do
  let loc ← locateApp s.cfg bytes length isMonitoredReply isShortForm
  dispatchApp s bytes (length - 1) loc

/-- R160: the result of a location; every failure is `none`. -/
def locatedResult : Except DecodeCause (Byte × Nat) → Result
  | .ok loc => .located loc.1 loc.2
  | .error _ => .absent

/-- R205: the result of a decode; every failure is `none`. -/
def salResult : Except DecodeCause SalCommand → Result
  | .ok c => .sal c
  | .error _ => .absent

/-! ### The decoder, stepped -/

/-- The decoder stands at `dpos` of a command region: it has ended there (R167), or it goes on. -/
def enterWords (d : Domain) (bytes : List Byte) (stop dpos : Nat) (subs : List SubCmd) (s : State) : State :=
  if stop ≤ dpos then s.finish (.sal { domain := d, subs, ackChar := none })
  else s.continueAt (.words d bytes stop dpos subs)

/-- R204, after the location: the lookup, then the first command word. -/
def routeTo (bytes : List Byte) (stop : Nat) (loc : Byte × Nat) (s : State) : State :=
  match s.domainAt loc.1 with
  | none => s.failDecode .fUnbound
  | some d => enterWords d bytes stop loc.2 [] s

/-- A header byte with priority `priority` and address type `t` at the decoder's position (R151, R161 to R163). -/
def headerStep (priority : BitVec 2) (t : AddrType) (s : State) : Answer :=
  match s.unit with
  | .decodingHeader _ => .next (s.finish (.header { priority, addrType := t }))
  | .locating bytes length => .next (s.finish (locatedResult (locateLocal s.cfg t bytes (length - 1))))
  | .parsing bytes length =>
    if s.mapFault then .refused .mapHalted
    else
      match locateLocal s.cfg t bytes (length - 1) with
      | .error e => .next (s.shareMap.failDecode e)
      | .ok loc => .next (routeTo bytes (length - 1) loc s.shareMap)
  | _ => .refused .noUnitReadsThisSpace

/-- A command word of `len` bytes at `dpos`, in a region of a domain that has the word (`inDomain`): it yields
`sc` and the decoder advances (R171 to R179), or it passes the end of the region (R168). -/
def wordStep (inDomain : Domain → Bool) (len : Nat) (sc : Option SubCmd) (s : State) : Answer :=
  match s.unit with
  | .words d bytes stop dpos subs =>
    if !inDomain d then .refused .noUnitReadsThisSpace
    else if dpos + len ≤ stop then .next (enterWords d bytes stop (dpos + len) (subs ++ sc.toList) s)
    else .next (s.failDecode .fTrunc)
  | _ => .refused .noUnitReadsThisSpace

/-- R170: an unrecognised short-form id at `dpos`, in a region of the domain `d`. -/
def unknownIdStep (d : Domain) (s : State) : Answer :=
  match s.unit with
  | .words d' _ _ _ _ => if d' = d then .next (s.failDecode .fUnknownId) else .refused .noUnitReadsThisSpace
  | _ => .refused .noUnitReadsThisSpace

end Sys2Proof.Machine
end

