-- ==== Sys2Proof/Machine/Headers.lean ====
section
/-! DEFINITION. The header rows (R84): the address type of the row selects how the decoder goes on (R151, R161 to
R163). Bits 5:3 are ignored (R78). -/

namespace Sys2Proof.Machine

/-- Row HDR_NOADDR (R151, R161). -/
def execHdrNoaddr (priority : BitVec 2) (_ignored : BitVec 3) (s : State) : Answer :=
  headerStep priority .noAddr s

/-- Row HDR_TWOBYTE (R151, R162). -/
def execHdrTwobyte (priority : BitVec 2) (_ignored : BitVec 3) (s : State) : Answer :=
  headerStep priority .twoByte s

/-- Row HDR_ONEBYTE (R151, R163). -/
def execHdrOnebyte (priority : BitVec 2) (_ignored : BitVec 3) (s : State) : Answer :=
  headerStep priority .oneByte s

/-- Row HDR_UNRECOGNISED_0 (R89, R151, R163): an unrecognised code decodes as OneByte. -/
def execHdrUnrecognised0 (priority : BitVec 2) (_ignored : BitVec 3) (s : State) : Answer :=
  headerStep priority .oneByte s

/-- Row HDR_UNRECOGNISED_1 (R89, R151, R163): an unrecognised code decodes as OneByte. -/
def execHdrUnrecognised1 (priority : BitVec 2) (_ignored : BitVec 3) (s : State) : Answer :=
  headerStep priority .oneByte s

/-- Row HDR_UNRECOGNISED_2 (R89, R151, R163): an unrecognised code decodes as OneByte. -/
def execHdrUnrecognised2 (priority : BitVec 2) (_ignored : BitVec 3) (s : State) : Answer :=
  headerStep priority .oneByte s

/-- Row HDR_UNRECOGNISED_4 (R89, R151, R163): an unrecognised code decodes as OneByte. -/
def execHdrUnrecognised4 (priority : BitVec 2) (_ignored : BitVec 3) (s : State) : Answer :=
  headerStep priority .oneByte s

/-- Row HDR_UNRECOGNISED_7 (R89, R151, R163): an unrecognised code decodes as OneByte. -/
def execHdrUnrecognised7 (priority : BitVec 2) (_ignored : BitVec 3) (s : State) : Answer :=
  headerStep priority .oneByte s

end Sys2Proof.Machine
end

