-- ==== Sys2Proof/Machine/EncoderOps.lean ====
section
/-! DEFINITION. The encoders as functions (43_sal_commands.md section 4, 45_cal_reset.md,
46_outbound_framing.md). -/

namespace Sys2Proof.Machine

/-- R182: `Ser(sc)`. -/
def serialize (sc : SubCmd) : List Byte := sc.id :: sc.group :: sc.param.toList

/-- R142, R181, R216: a body with its checksum byte appended. -/
def withChecksum (body : List Byte) : List Byte := body ++ [checksum8 body]

/-- R181: the body of a SAL frame, always of address type NoAddr. -/
def salBody (priority : BitVec 2) (appAddress : Byte) (subs : List SubCmd) : List Byte :=
  [headerEncode priority atNone, appAddress, reservedZeroByte] ++ subs.flatMap serialize

/-- R181, R183: the frame that `SAL_ENCODE` encodes, if every sub-command is well-formed. -/
def salEncode (cfg : Config) (d : Domain) (priority : BitVec 2) (appAddress : Byte) (subs : List SubCmd) :
    Option (List Byte) :=
  if !subs.all (subCmdWellFormed cfg d) then none
  else some (withChecksum (salBody priority appAddress subs))

/-- R216, R217: `CAL_ENCODE`. -/
def calEncode (cal : CalCommand) : List Byte :=
  let body := [calPrefixByte, cal.parameterId, reservedZeroByte, cal.parameterValue]
  if cal.includeChecksum then withChecksum body else body

/-- R215: `RESET_ENCODE`. -/
def resetEncode (cfg : Config) : List Byte := [cfg.chReset]

/-- R225: the two characters of a byte, high nibble first. -/
def hexPair (b : Byte) : List Byte := [hexchar (highNibble b), hexchar (lowNibble b)]

/-- R225: `HEX_ENCODE`. -/
def hexEncode (bytes : List Byte) : List Byte := bytes.flatMap hexPair

/-- R226: `SAL_FRAME_TEXT`. -/
def salFrameText (cfg : Config) (bytes : List Byte) (ackChar : Option Byte) : List Byte :=
  [cfg.chStx] ++ hexEncode bytes ++ ackChar.toList ++ [chCr]

/-- R228: `CAL_FRAME_TEXT`. -/
def calFrameText (cfg : Config) (cal : CalCommand) : List Byte :=
  [cfg.chDirect] ++ hexEncode (calEncode cal) ++ [chCr]

/-! ### The output buffers (R50, R53) -/

/-- R50: an output of `n` elements fits an output buffer, if `TX_MAX` is bounded. -/
def fitsTx (cfg : Config) (n : Nat) : Bool :=
  match cfg.txMax with
  | none => true
  | some m => decide (n ≤ m)

/-- R50, R53: an encoder produces its bytes whole. A request that would pass `TX_MAX` answers `none`: R185 says so of
`SAL_ENCODE`; for the others it is the model's choice (DESIGN CHOICE, log entry 22). -/
def answerBytes (bs : List Byte) (s : State) : Answer :=
  if fitsTx s.cfg bs.length then .next (s.produceBytes bs) else .next (s.ret .absent)

/-- R50, R53: an encoder produces its characters whole, within `TX_MAX` (DESIGN CHOICE, log entry 22). -/
def answerText (cs : List Byte) (s : State) : Answer :=
  if fitsTx s.cfg cs.length then .next (s.produceText cs) else .next (s.ret .absent)

end Sys2Proof.Machine
end

