-- ==== Sys2Proof/Machine/HostOps.lean ====
section
/-! DEFINITION. The host operations (R93): each runs whole (R12). -/

namespace Sys2Proof.Machine

/-- R42, R270: `HW_RESET`. The parameters are no state (R32), and the invocations and the outputs of earlier
operations are the host's (log entry 19). -/
def execHwReset (s : State) : Answer :=
  .next
    { s with
      parsers := State.reset.parsers
      map := State.reset.map
      mapFault := State.reset.mapFault
      mapShared := State.reset.mapShared
      unit := State.reset.unit
      decoding := State.reset.decoding
      result := .done }

/-- R42, R43: one ParserState as after `PS_RESET`; `prev` is unchanged. -/
def resetParser (p : ParserState) : ParserState :=
  { p with phase := .idle, buf := [], ack := none, cls := .none }

/-- R42, R271: `PS_RESET`; R259: refused in the middle of an operation on `ps`. -/
def execPsReset (ps : Nat) (s : State) : Answer :=
  if s.parserBusy ps then .refused .overlappingOperation
  else .next ((s.setParser ps (resetParser (s.parser ps))).ret .done)

/-- R10: a chunk length that `CHUNK_MAX`, if bounded, can count. -/
def fitsChunk (cfg : Config) (n : Nat) : Bool :=
  match cfg.chunkMax with
  | none => true
  | some m => decide (n ≤ m)

/-- R24, R60, R113, R259: why a call of `PROCESS_CHUNK` is refused. `cursor` has the width of `length` (R24), and R113's
precondition is `cursor <= length` (log entry 21). -/
def chunkRefusal (ps : Nat) (chars : List Byte) (length cursor : Nat) (s : State) : Option Refusal :=
  if s.parserBusy ps then some .overlappingOperation
  else if chars.length < length then some .lengthPastBytes
  else if length < cursor then some .cursorPastLength
  else if !fitsChunk s.cfg length then some .chunkTooLong
  else none

/-- R113: `PROCESS_CHUNK`. The chunk is the first `length` characters (R51); with `cursor` at
its end nothing is consumed. -/
def execProcessChunk (ps : Nat) (chars : List Byte) (length cursor : Nat) (s : State) : Answer :=
  match chunkRefusal ps chars length cursor s with
  | some r => .refused r
  | none =>
    match processChunk s.cfg (chars.take length) cursor (s.parser ps) with
    | none => .fault .parserOutsideInvariants
    | some (done, cursor', q) => .next ((s.setParser ps q).ret (.chunk done cursor'))

/-- R140: `CHECKSUM`. -/
def execChecksum (bytes : List Byte) (length : Nat) (s : State) : Answer :=
  if bytes.length < length then .refused .lengthPastBytes
  else .next (s.ret (.byte (checksum8 (bytes.take length))))

/-- R150: `HDR_ENCODE`. -/
def execHdrEncode (priority : BitVec 2) (addrTypeCode : BitVec 3) (s : State) : Answer :=
  .next (s.ret (.byte (headerEncode priority addrTypeCode)))

/-- R151: `HDR_DECODE`. -/
def execHdrDecode (byte : Byte) (s : State) : Answer :=
  .next (s.ret (.header (headerDecode s.cfg byte)))

/-- R160: `LOCATE_APP`. -/
def execLocateApp (bytes : List Byte) (length : Nat) (isMonitoredReply isShortForm : Bool) (s : State) : Answer :=
  if bytes.length < length then .refused .lengthPastBytes
  else .next (s.ret (locatedResult (locateApp s.cfg bytes length isMonitoredReply isShortForm)))

/-- R204, R206: a lookup from bytes, in a map that is not halted; it begins the Shared phase (R256). -/
def lookupBytes (bytes : List Byte) (length : Nat) (isMonitoredReply isShortForm : Bool) (s : State) : State :=
  s.shareMap.ret (salResult (tryParse s bytes length isMonitoredReply isShortForm))

/-- R33, R166: why a call of `TRY_PARSE` is refused. -/
def parseRefusal (bytes : List Byte) (length : Nat) (s : State) : Option Refusal :=
  if s.mapFault then some .mapHalted
  else if bytes.length < length then some .lengthPastBytes
  else none

/-- R204: `TRY_PARSE`. -/
def execTryParse (bytes : List Byte) (length : Nat) (isMonitoredReply isShortForm : Bool) (s : State) : Answer :=
  match parseRefusal bytes length s with
  | some r => .refused r
  | none => .next (lookupBytes bytes length isMonitoredReply isShortForm s)

/-- R33, R60, R206, R259: why a call of `DECODE_FRAME` is refused. -/
def frameRefusal (ps : Nat) (s : State) : Option Refusal :=
  if s.mapFault then some .mapHalted
  else if s.parserBusy ps then some .overlappingOperation
  else if (s.parser ps).cls.hasFrame then none
  else some .noSalFrame

/-- R206: the frame of a ParserState is a monitored reply. -/
def ParserState.monitored (p : ParserState) : Bool := p.cls == .monitoredSalReceived

/-- R206: `DECODE_FRAME`. -/
def execDecodeFrame (ps : Nat) (isShortForm : Bool) (s : State) : Answer :=
  match frameRefusal ps s with
  | some r => .refused r
  | none =>
    .next (lookupBytes (s.parser ps).buf (s.parser ps).len (s.parser ps).monitored isShortForm s)

/-- R201 to R203: `ADD_MAPPING`. -/
def execAddMapping (domain : Domain) (address : Byte) (s : State) : Answer :=
  if s.mapFault then .refused .mapHalted
  else if s.routerBusy then .refused .overlappingOperation
  else if s.mapShared then .refused .mappingAfterLookup
  else
    match s.domainAt address with
    | none => .next ((s.bindAddress address domain).ret .ok)
    | some d => if d = domain then .next (s.ret .ok) else .next s.raiseConfigFault

/-- R181, R183, R185: `SAL_ENCODE`. -/
def execSalEncode (domain : Domain) (priority : BitVec 2) (appAddress : Byte) (subs : List SubCmd) (s : State) :
    Answer :=
  match salEncode s.cfg domain priority appAddress subs with
  | none => .next (s.ret .absent)
  | some bs => answerBytes bs s

/-- R216: `CAL_ENCODE`. -/
def execCalEncode (cal : CalCommand) (s : State) : Answer := answerBytes (calEncode cal) s

/-- R215: `RESET_ENCODE`. -/
def execResetEncode (s : State) : Answer := answerText (resetEncode s.cfg) s

/-- R225: `HEX_ENCODE`. -/
def execHexEncode (bytes : List Byte) (s : State) : Answer := answerText (hexEncode bytes) s

/-- R226: `SAL_FRAME_TEXT`. -/
def execSalFrameText (bytes : List Byte) (ackChar : Option Byte) (s : State) : Answer :=
  answerText (salFrameText s.cfg bytes ackChar) s

/-- R228: `CAL_FRAME_TEXT`. -/
def execCalFrameText (cal : CalCommand) (s : State) : Answer :=
  answerText (calFrameText s.cfg cal) s

end Sys2Proof.Machine
end

