-- ==== Sys2Proof/Machine/Outbound.lean ====
section
/-! DEFINITION. The fixed outbound bytes and characters (R92): each row produces its constant, whole (R53), as the
output of its kind (log entry 18). -/

namespace Sys2Proof.Machine

/-- Row CAL_PREFIX (R216). -/
def execCalPrefix (s : State) : Answer := answerBytes [calPrefixByte] s

/-- Row RESERVED_ZERO (R219). -/
def execReservedZero (s : State) : Answer := answerBytes [reservedZeroByte] s

/-- Row DIRECT (R228). -/
def execDirect (s : State) : Answer := answerText [s.cfg.chDirect] s

/-- Row RESET (R215). -/
def execResetChar (s : State) : Answer := answerText [s.cfg.chReset] s

/-- Row STX_OUT (R226). -/
def execStxOut (s : State) : Answer := answerText [s.cfg.chStx] s

/-- Row CR_OUT (R226, R228). -/
def execCrOut (s : State) : Answer := answerText [chCr] s

end Sys2Proof.Machine
end

