-- ==== Sys2Proof/Machine/Words.lean ====
section
/-! DEFINITION. The command words (R171 to R179), as the decoder meets them at `dpos`. -/

namespace Sys2Proof.Machine

/-- The word is a row of Lighting's table (R86). -/
def inLighting (d : Domain) : Bool := d == .lighting

/-- The word is a row of Trigger's table (R87). -/
def inTrigger (d : Domain) : Bool := d == .trigger

/-- A LONG word is a row of both domains (R171). -/
def inBoth (_ : Domain) : Bool := true

/-- Row LONG (R171): the id and the `n` bytes behind it are skipped; bits 6:5 and the content have no effect. -/
def execLong (_ignored : BitVec 2) (n : BitVec 5) (_content : List Byte) (s : State) : Answer :=
  wordStep inBoth (1 + n.toNat) none s

/-- Row ON (R172). -/
def execOn (group : Byte) (s : State) : Answer :=
  wordStep inLighting 2 (some { id := lightOn, group, param := none }) s

/-- Row OFF (R173). -/
def execOff (group : Byte) (s : State) : Answer :=
  wordStep inLighting 2 (some { id := s.cfg.lightOff, group, param := none }) s

/-- Row TERMINATE (R174). -/
def execTerminate (group : Byte) (s : State) : Answer :=
  wordStep inLighting 2 (some { id := s.cfg.lightTerminate, group, param := none }) s

/-- Row RAMP (R175); the id is kept, and with it the ramp rate. -/
def execRamp (id group level : Byte) (s : State) : Answer :=
  wordStep inLighting 3 (some { id, group, param := some level }) s

/-- Row LIGHT_UNKNOWN (R170): the whole decode fails. -/
def execLightUnknown (_id : Byte) (s : State) : Answer := unknownIdStep .lighting s

/-- Row EVENT (R176). -/
def execEvent (group action : Byte) (s : State) : Answer :=
  wordStep inTrigger 3 (some { id := trigEvent, group, param := some action }) s

/-- Row MIN (R177). -/
def execMin (group : Byte) (s : State) : Answer :=
  wordStep inTrigger 2 (some { id := s.cfg.trigMin, group, param := none }) s

/-- Row MAX (R178). -/
def execMax (group : Byte) (s : State) : Answer :=
  wordStep inTrigger 2 (some { id := s.cfg.trigMax, group, param := none }) s

/-- Row KILL (R179). -/
def execKill (group : Byte) (s : State) : Answer :=
  wordStep inTrigger 2 (some { id := s.cfg.trigKill, group, param := none }) s

/-- Row TRIG_UNKNOWN (R170): the whole decode fails. -/
def execTrigUnknown (_id : Byte) (s : State) : Answer := unknownIdStep .trigger s

end Sys2Proof.Machine
end

