-- ==== Sys2Proof/Machine/Dispatch.lean ====
section
/-! DEFINITION. The meaning of an instruction: one arm per constructor. -/

namespace Sys2Proof.Machine

/-- One instruction, executed. -/
def exec (i : Instr) (s : State) : Host.Outcome State Fault Refusal :=
  match i with
  | .hex0 => Sys2Proof.Machine.execHex0 s
  | .hex1 => Sys2Proof.Machine.execHex1 s
  | .hex2 => Sys2Proof.Machine.execHex2 s
  | .hex3 => Sys2Proof.Machine.execHex3 s
  | .hex4 => Sys2Proof.Machine.execHex4 s
  | .hex5 => Sys2Proof.Machine.execHex5 s
  | .hex6 => Sys2Proof.Machine.execHex6 s
  | .hex7 => Sys2Proof.Machine.execHex7 s
  | .hex8 => Sys2Proof.Machine.execHex8 s
  | .hex9 => Sys2Proof.Machine.execHex9 s
  | .hexA => Sys2Proof.Machine.execHexA s
  | .hexB => Sys2Proof.Machine.execHexB s
  | .hexC => Sys2Proof.Machine.execHexC s
  | .hexD => Sys2Proof.Machine.execHexD s
  | .hexE => Sys2Proof.Machine.execHexE s
  | .hexF => Sys2Proof.Machine.execHexF s
  | .hexLowerA => Sys2Proof.Machine.execHexLowerA s
  | .hexLowerB => Sys2Proof.Machine.execHexLowerB s
  | .hexLowerC => Sys2Proof.Machine.execHexLowerC s
  | .hexLowerD => Sys2Proof.Machine.execHexLowerD s
  | .hexLowerE => Sys2Proof.Machine.execHexLowerE s
  | .hexLowerF => Sys2Proof.Machine.execHexLowerF s
  | .stx => Sys2Proof.Machine.execStx s
  | .cr => Sys2Proof.Machine.execCr s
  | .lf => Sys2Proof.Machine.execLf s
  | .ack => Sys2Proof.Machine.execAck s
  | .nak => Sys2Proof.Machine.execNak s
  | .nakCorrupt => Sys2Proof.Machine.execNakCorrupt s
  | .nakNoclock => Sys2Proof.Machine.execNakNoclock s
  | .nakToolong => Sys2Proof.Machine.execNakToolong s
  | .other c => Sys2Proof.Machine.execOther c s
  | .hdrNoaddr p g => Sys2Proof.Machine.execHdrNoaddr p g s
  | .hdrTwobyte p g => Sys2Proof.Machine.execHdrTwobyte p g s
  | .hdrOnebyte p g => Sys2Proof.Machine.execHdrOnebyte p g s
  | .hdrUnrecognised0 p g => Sys2Proof.Machine.execHdrUnrecognised0 p g s
  | .hdrUnrecognised1 p g => Sys2Proof.Machine.execHdrUnrecognised1 p g s
  | .hdrUnrecognised2 p g => Sys2Proof.Machine.execHdrUnrecognised2 p g s
  | .hdrUnrecognised4 p g => Sys2Proof.Machine.execHdrUnrecognised4 p g s
  | .hdrUnrecognised7 p g => Sys2Proof.Machine.execHdrUnrecognised7 p g s
  | .long g n content => Sys2Proof.Machine.execLong g n content s
  | .on g => Sys2Proof.Machine.execOn g s
  | .off g => Sys2Proof.Machine.execOff g s
  | .terminate g => Sys2Proof.Machine.execTerminate g s
  | .ramp id g l => Sys2Proof.Machine.execRamp id g l s
  | .lightUnknown id => Sys2Proof.Machine.execLightUnknown id s
  | .event g a => Sys2Proof.Machine.execEvent g a s
  | .min g => Sys2Proof.Machine.execMin g s
  | .max g => Sys2Proof.Machine.execMax g s
  | .kill g => Sys2Proof.Machine.execKill g s
  | .trigUnknown id => Sys2Proof.Machine.execTrigUnknown id s
  | .calPrefix => Sys2Proof.Machine.execCalPrefix s
  | .reservedZero => Sys2Proof.Machine.execReservedZero s
  | .direct => Sys2Proof.Machine.execDirect s
  | .reset => Sys2Proof.Machine.execResetChar s
  | .stxOut => Sys2Proof.Machine.execStxOut s
  | .crOut => Sys2Proof.Machine.execCrOut s
  | .hwReset => Sys2Proof.Machine.execHwReset s
  | .psReset ps => Sys2Proof.Machine.execPsReset ps s
  | .processChunk ps cs l k => Sys2Proof.Machine.execProcessChunk ps cs l k s
  | .checksum bs l => Sys2Proof.Machine.execChecksum bs l s
  | .hdrEncode p k => Sys2Proof.Machine.execHdrEncode p k s
  | .hdrDecode b => Sys2Proof.Machine.execHdrDecode b s
  | .locateApp bs l m f => Sys2Proof.Machine.execLocateApp bs l m f s
  | .tryParse bs l m f => Sys2Proof.Machine.execTryParse bs l m f s
  | .decodeFrame ps f => Sys2Proof.Machine.execDecodeFrame ps f s
  | .addMapping d a => Sys2Proof.Machine.execAddMapping d a s
  | .salEncode d p a subs => Sys2Proof.Machine.execSalEncode d p a subs s
  | .calEncode cal => Sys2Proof.Machine.execCalEncode cal s
  | .resetEncode => Sys2Proof.Machine.execResetEncode s
  | .hexEncode bs => Sys2Proof.Machine.execHexEncode bs s
  | .salFrameText bs c => Sys2Proof.Machine.execSalFrameText bs c s
  | .calFrameText cal => Sys2Proof.Machine.execCalFrameText cal s

end Sys2Proof.Machine
end

