-- ==== Sys2Proof/WellFormed.lean ====
section
/-! DEFINITION. When an instruction is well-formed under a `Config`: its operands are ones its row of the opcode
table admits. For a row that is a default of its space, or whose value is a parameter, that includes that no
earlier row of the space claims the value ("the first row that matches wins", R95). -/

namespace Sys2Proof

open Machine

/-- R72, R95: the values of the rows STX to NAK_TOOLONG, in the table's order. -/
def specialChars (cfg : Config) : List Byte :=
  [cfg.chStx, chCr, chLf, cfg.chAck, cfg.chNak, cfg.chNakCorrupt, cfg.chNakNoclock, cfg.chNakToolong]

/-- The `k`-th special row's value is claimed by no hex row and by no earlier special row. -/
def specialRowFree (cfg : Config) (k : Nat) (c : Byte) : Bool :=
  !hexValid cfg c && !((specialChars cfg).take k).contains c

/-- A lower-case hex row `c` is met: either it is hex-valid, or no special row claims it. -/
def lowerRowFree (cfg : Config) (c : Byte) : Bool :=
  cfg.acceptLowerHex || !(specialChars cfg).contains c

/-- R85, R90: a command id that its domain's table does not list. -/
def unknownId (cfg : Config) (d : Domain) (id : Byte) : Bool :=
  !isLongForm id && (shortForm cfg d id).isNone

/-- The operands of an instruction are ones its row admits. -/
def Instr.wf (cfg : Config) : Instr → Bool
  | .hex0 | .hex1 | .hex2 | .hex3 | .hex4 | .hex5 | .hex6 | .hex7 => true
  | .hex8 | .hex9 | .hexA | .hexB | .hexC | .hexD | .hexE | .hexF => true
  | .hexLowerA => lowerRowFree cfg 0x61
  | .hexLowerB => lowerRowFree cfg 0x62
  | .hexLowerC => lowerRowFree cfg 0x63
  | .hexLowerD => lowerRowFree cfg 0x64
  | .hexLowerE => lowerRowFree cfg 0x65
  | .hexLowerF => lowerRowFree cfg 0x66
  | .stx => specialRowFree cfg 0 cfg.chStx
  | .cr => specialRowFree cfg 1 chCr
  | .lf => specialRowFree cfg 2 chLf
  | .ack => specialRowFree cfg 3 cfg.chAck
  | .nak => specialRowFree cfg 4 cfg.chNak
  | .nakCorrupt => specialRowFree cfg 5 cfg.chNakCorrupt
  | .nakNoclock => specialRowFree cfg 6 cfg.chNakNoclock
  | .nakToolong => specialRowFree cfg 7 cfg.chNakToolong
  | .other c => specialRowFree cfg 8 c && !(decide (0x61#8 ≤ c) && decide (c ≤ 0x66#8))
  | .hdrNoaddr _ _ | .hdrTwobyte _ _ | .hdrOnebyte _ _ => true
  | .hdrUnrecognised0 _ _ | .hdrUnrecognised1 _ _ | .hdrUnrecognised2 _ _ => true
  | .hdrUnrecognised4 _ _ | .hdrUnrecognised7 _ _ => true
  | .long _ n content => content.length == n.toNat
  | .on _ | .off _ | .terminate _ => true
  | .ramp id _ _ => isLightRamp cfg id
  | .lightUnknown id => unknownId cfg .lighting id
  | .event _ _ | .min _ | .max _ | .kill _ => true
  | .trigUnknown id => unknownId cfg .trigger id
  | .calPrefix | .reservedZero | .direct => true
  | .reset => cfg.chReset != cfg.chDirect
  | .stxOut => !([cfg.chDirect, cfg.chReset].contains cfg.chStx)
  | .crOut => !([cfg.chDirect, cfg.chReset, cfg.chStx].contains chCr)
  | .hwReset | .psReset _ => true
  | .processChunk _ chars length cursor => decide (length ≤ chars.length) && decide (cursor ≤ length)
  | .checksum bytes length => decide (length ≤ bytes.length)
  | .hdrEncode _ _ | .hdrDecode _ => true
  | .locateApp bytes length _ _ => decide (length ≤ bytes.length)
  | .tryParse bytes length _ _ => decide (length ≤ bytes.length)
  | .decodeFrame _ _ | .addMapping _ _ => true
  | .salEncode _ _ _ _ | .calEncode _ | .resetEncode => true
  | .hexEncode _ | .salFrameText _ _ | .calFrameText _ => true

end Sys2Proof
end

