-- ==== Sys2Proof/Decode.lean ====
section
/-! DEFINITION. The decoder and the encoder. A byte means nothing until its space is known (R95: the opcode table
has a `space` for every row): the framer reads characters, the decoder reads a header byte or the command words
of one domain, and the outbound constants form two spaces of their own. `decodeIn` is total on any bytes of any
space and rejects by name. Host operations have no binary encoding (R93): they are in no space and `encode`
answers `none` for them. -/

namespace Sys2Proof

open Machine

/-- R95: the spaces of the opcode table that have bits. -/
inductive Space where
  | character
  | header
  | word (d : Domain)
  | outByte
  | outChar
deriving DecidableEq, Repr

/-- Why bytes of a space are no instruction. -/
inductive DecodeError where
  /-- There is no first byte. -/
  | noBytes
  /-- R168: the command word is longer than the bytes that are left. -/
  | truncated
  /-- R95: no row of the outbound-byte space has this value. -/
  | noOutByteRow
  /-- R95: no row of the outbound-character space has this value. -/
  | noOutCharRow
deriving DecidableEq, Repr

/-! ### Characters -/

/-- R71, R95: the row of a digit or an upper-case hex letter. -/
def upperHexRow (c : Byte) : Option Instr :=
  if c = 0x30#8 then some .hex0 else if c = 0x31#8 then some .hex1 else if c = 0x32#8 then some .hex2
  else if c = 0x33#8 then some .hex3 else if c = 0x34#8 then some .hex4 else if c = 0x35#8 then some .hex5
  else if c = 0x36#8 then some .hex6 else if c = 0x37#8 then some .hex7 else if c = 0x38#8 then some .hex8
  else if c = 0x39#8 then some .hex9 else if c = 0x41#8 then some .hexA else if c = 0x42#8 then some .hexB
  else if c = 0x43#8 then some .hexC else if c = 0x44#8 then some .hexD else if c = 0x45#8 then some .hexE
  else if c = 0x46#8 then some .hexF else none

/-- R71, R95: the row of a lower-case hex letter. -/
def lowerHexRow (c : Byte) : Option Instr :=
  if c = 0x61#8 then some .hexLowerA else if c = 0x62#8 then some .hexLowerB
  else if c = 0x63#8 then some .hexLowerC else if c = 0x64#8 then some .hexLowerD
  else if c = 0x65#8 then some .hexLowerE else if c = 0x66#8 then some .hexLowerF else none

/-- R72, R95: the rows STX to NAK_TOOLONG, the first match winning. -/
def specialRow (cfg : Config) (c : Byte) : Option Instr :=
  if c = cfg.chStx then some .stx else if c = chCr then some .cr else if c = chLf then some .lf
  else if c = cfg.chAck then some .ack else if c = cfg.chNak then some .nak
  else if c = cfg.chNakCorrupt then some .nakCorrupt else if c = cfg.chNakNoclock then some .nakNoclock
  else if c = cfg.chNakToolong then some .nakToolong else none

/-- R72, R95: the row of a character. The six lower-case rows stand before the special rows when they are
hex-valid and behind them when they are not; their meaning then is that of class OTHER (log entry 12). -/
def decodeChar (cfg : Config) (c : Byte) : Instr :=
  match upperHexRow c with
  | some i => i
  | none =>
    match (if cfg.acceptLowerHex then lowerHexRow c else none) with
    | some i => i
    | none =>
      match specialRow cfg c with
      | some i => i
      | none => (lowerHexRow c).getD (.other c)

/-- The character of a character row (the inverse of `decodeChar` on well-formed rows). -/
def charOf (cfg : Config) : Instr → Option Byte
  | .hex0 => some 0x30 | .hex1 => some 0x31 | .hex2 => some 0x32 | .hex3 => some 0x33
  | .hex4 => some 0x34 | .hex5 => some 0x35 | .hex6 => some 0x36 | .hex7 => some 0x37
  | .hex8 => some 0x38 | .hex9 => some 0x39 | .hexA => some 0x41 | .hexB => some 0x42
  | .hexC => some 0x43 | .hexD => some 0x44 | .hexE => some 0x45 | .hexF => some 0x46
  | .hexLowerA => some 0x61 | .hexLowerB => some 0x62 | .hexLowerC => some 0x63
  | .hexLowerD => some 0x64 | .hexLowerE => some 0x65 | .hexLowerF => some 0x66
  | .stx => some cfg.chStx | .cr => some chCr | .lf => some chLf
  | .ack => some cfg.chAck | .nak => some cfg.chNak | .nakCorrupt => some cfg.chNakCorrupt
  | .nakNoclock => some cfg.chNakNoclock | .nakToolong => some cfg.chNakToolong
  | .other c => some c
  | _ => none

/-! ### Header bytes -/

/-- R84, R151, R95: the row of a header byte. The five HDR_UNRECOGNISED rows are the five unrecognised codes of
the `Config` in rising order (log entry 11). -/
def decodeHeaderByte (cfg : Config) (h : Byte) : Instr :=
  let p := headerPriority h
  let g := headerIgnored h
  let k := headerCode h
  if k = atNone then .hdrNoaddr p g
  else if k = cfg.atTwo then .hdrTwobyte p g
  else if k = cfg.atOne then .hdrOnebyte p g
  else match (unrecognisedCodes cfg).idxOf k with
    | 0 => .hdrUnrecognised0 p g
    | 1 => .hdrUnrecognised1 p g
    | 2 => .hdrUnrecognised2 p g
    | 3 => .hdrUnrecognised4 p g
    | _ => .hdrUnrecognised7 p g

/-- The `k`-th unrecognised code (a legal `Config` has five). -/
def unrecognisedCode (cfg : Config) (k : Nat) : BitVec 3 := (unrecognisedCodes cfg).getD k 7

/-- The header byte of a header row. -/
def headerByteOf (cfg : Config) : Instr → Option Byte
  | .hdrNoaddr p g => some (packHeader p g atNone)
  | .hdrTwobyte p g => some (packHeader p g cfg.atTwo)
  | .hdrOnebyte p g => some (packHeader p g cfg.atOne)
  | .hdrUnrecognised0 p g => some (packHeader p g (unrecognisedCode cfg 0))
  | .hdrUnrecognised1 p g => some (packHeader p g (unrecognisedCode cfg 1))
  | .hdrUnrecognised2 p g => some (packHeader p g (unrecognisedCode cfg 2))
  | .hdrUnrecognised4 p g => some (packHeader p g (unrecognisedCode cfg 3))
  | .hdrUnrecognised7 p g => some (packHeader p g (unrecognisedCode cfg 4))
  | _ => none

/-! ### Command words -/

/-- R85: a word with one trailing byte. -/
def decodeS1 (mk : Byte → Instr) : List Byte → Except DecodeError Instr
  | g :: _ => .ok (mk g)
  | [] => .error .truncated

/-- R85: a word with two trailing bytes. -/
def decodeS2 (mk : Byte → Byte → Instr) : List Byte → Except DecodeError Instr
  | g :: p :: _ => .ok (mk g p)
  | _ => .error .truncated

/-- R76, R85: a long-form word, with its skipped bytes. -/
def decodeLong (id : Byte) (rest : List Byte) : Except DecodeError Instr :=
  if longLength id ≤ rest.length
  then .ok (.long (id.extractLsb' 5 2) (id.extractLsb' 0 5) (rest.take (longLength id)))
  else .error .truncated

/-- R85 to R87, R90: the command word whose id byte is `id`, in a domain. -/
def decodeWord (cfg : Config) (d : Domain) (id : Byte) (rest : List Byte) : Except DecodeError Instr :=
  if isLongForm id then decodeLong id rest
  else match d with
    | .lighting =>
      if id = lightOn then decodeS1 .on rest
      else if id = cfg.lightOff then decodeS1 .off rest
      else if id = cfg.lightTerminate then decodeS1 .terminate rest
      else if isLightRamp cfg id then decodeS2 (.ramp id) rest
      else .ok (.lightUnknown id)
    | .trigger =>
      if id = trigEvent then decodeS2 .event rest
      else if id = cfg.trigMin then decodeS1 .min rest
      else if id = cfg.trigMax then decodeS1 .max rest
      else if id = cfg.trigKill then decodeS1 .kill rest
      else .ok (.trigUnknown id)

/-- The bytes of a command word. -/
def wordBytesOf (cfg : Config) : Instr → Option (List Byte)
  | .long g n content => some (packLong g n :: content)
  | .on g => some [lightOn, g]
  | .off g => some [cfg.lightOff, g]
  | .terminate g => some [cfg.lightTerminate, g]
  | .ramp id g l => some [id, g, l]
  | .lightUnknown id => some [id]
  | .event g a => some [trigEvent, g, a]
  | .min g => some [cfg.trigMin, g]
  | .max g => some [cfg.trigMax, g]
  | .kill g => some [cfg.trigKill, g]
  | .trigUnknown id => some [id]
  | _ => none

/-! ### Outbound constants -/

/-- R92, R95: the fixed outbound bytes. -/
def decodeOutByte (b : Byte) : Except DecodeError Instr :=
  if b = calPrefixByte then .ok .calPrefix
  else if b = reservedZeroByte then .ok .reservedZero
  else .error .noOutByteRow

/-- R92, R95: the fixed outbound characters, in the table's order. -/
def decodeOutChar (cfg : Config) (c : Byte) : Except DecodeError Instr :=
  if c = cfg.chDirect then .ok .direct
  else if c = cfg.chReset then .ok .reset
  else if c = cfg.chStx then .ok .stxOut
  else if c = chCr then .ok .crOut
  else .error .noOutCharRow

/-- The byte or character of an outbound row. -/
def outboundOf (cfg : Config) : Instr → Option Byte
  | .calPrefix => some calPrefixByte
  | .reservedZero => some reservedZeroByte
  | .direct => some cfg.chDirect
  | .reset => some cfg.chReset
  | .stxOut => some cfg.chStx
  | .crOut => some chCr
  | _ => none

/-! ### The decoder and the encoder -/

/-- The instruction that stands first in the bytes, read in a space. -/
def decodeIn (cfg : Config) (sp : Space) : List Byte → Except DecodeError Instr
  | [] => .error .noBytes
  | b :: rest =>
    match sp with
    | .character => .ok (decodeChar cfg b)
    | .header => .ok (decodeHeaderByte cfg b)
    | .word d => decodeWord cfg d b rest
    | .outByte => decodeOutByte b
    | .outChar => decodeOutChar cfg b

/-- The bytes of an instruction; `none` for a host operation, which has no encoding (R93). -/
def encode (cfg : Config) (i : Instr) : Option (List Byte) :=
  match charOf cfg i, headerByteOf cfg i, wordBytesOf cfg i, outboundOf cfg i with
  | some c, _, _, _ => some [c]
  | _, some h, _, _ => some [h]
  | _, _, some w, _ => some w
  | _, _, _, some b => some [b]
  | _, _, _, _ => none

/-- R70, R84, R85, R92: how many bytes an instruction has; 0 for a host operation, which has no encoding (R93). -/
def Instr.length : Instr → Nat
  | .long _ n _ => 1 + n.toNat
  | .on _ | .off _ | .terminate _ | .min _ | .max _ | .kill _ => 2
  | .ramp _ _ _ | .event _ _ => 3
  | .hwReset | .psReset _ | .processChunk _ _ _ _ | .checksum _ _ | .hdrEncode _ _ | .hdrDecode _ => 0
  | .locateApp _ _ _ _ | .tryParse _ _ _ _ | .decodeFrame _ _ | .addMapping _ _ | .salEncode _ _ _ _ => 0
  | .calEncode _ | .resetEncode | .hexEncode _ | .salFrameText _ _ | .calFrameText _ => 0
  | _ => 1

/-- R95: whether an instruction is a row of a space (LONG is a row of both domains). -/
def Instr.inSpace : Instr → Space → Bool
  | .long _ _ _, .word _ => true
  | .on _, .word .lighting | .off _, .word .lighting | .terminate _, .word .lighting => true
  | .ramp _ _ _, .word .lighting | .lightUnknown _, .word .lighting => true
  | .event _ _, .word .trigger | .min _, .word .trigger | .max _, .word .trigger => true
  | .kill _, .word .trigger | .trigUnknown _, .word .trigger => true
  | .calPrefix, .outByte | .reservedZero, .outByte => true
  | .direct, .outChar | .reset, .outChar | .stxOut, .outChar | .crOut, .outChar => true
  | i, .character => (charOf Config.standard i).isSome
  | i, .header => (headerByteOf Config.standard i).isSome
  | _, _ => false

/-! ### The opcode table's words (for the host's probes; log entry 10) -/

/-- The longest instruction, a LONG word with `n = 31`, has 32 bytes (R85). -/
abbrev longestInstr : Nat := 32

/-- The bytes of a table word of `nbits` bits: byte `k` is bits `8k+7` to `8k`, and zeros stand behind them, up to
the longest instruction. -/
def tableBytes (nbits w : Nat) : List Byte :=
  ((List.range ((nbits + 7) / 8)).map (fun k => BitVec.ofNat 8 (w >>> (8 * k))) ++
    List.replicate longestInstr 0#8).take longestInstr

/-- The space a table word is read in. The table's words do not say their space, and the spaces overlap; this
is the model's order of trying them, rows with a whole-byte match before wider ones (log entry 10). -/
def tableSpace (cfg : Config) (b : Byte) : Space :=
  if (upperHexRow b).isSome ∨ (lowerHexRow b).isSome ∨ (specialRow cfg b).isSome then .character
  else if b = lightOn ∨ b = cfg.lightOff ∨ b = cfg.lightTerminate then .word .lighting
  else if b = trigEvent ∨ b = cfg.trigMin ∨ b = cfg.trigMax ∨ b = cfg.trigKill then .word .trigger
  else if b = calPrefixByte ∨ b = reservedZeroByte then .outByte
  else if b = cfg.chDirect ∨ b = cfg.chReset then .outChar
  else if isLightRamp cfg b ∨ isLongForm b then .word .lighting
  else if b < 8#8 then .header
  else .character

/-- The instruction of a table word under a `Config`, with the space it was read in. -/
def decodeTableIn (cfg : Config) (nbits w : Nat) : Option (Space × Instr) :=
  if nbits = 0 then none
  else match tableBytes nbits w with
    | [] => none
    | b :: rest =>
      match decodeIn cfg (tableSpace cfg b) (b :: rest) with
      | .ok i => some (tableSpace cfg b, i)
      | .error _ => none

/-- The instruction this decoder reads from a word of spec/opcode_table.json, under the default `Config`. -/
def decodeTableWord (nbits w : Nat) : Option Instr :=
  (decodeTableIn Config.standard nbits w).map Prod.snd

end Sys2Proof
end

