-- ==== Sys2Proof/Machine/Fetch.lean ====
section
/-! DEFINITION. Where the next instruction comes from. A unit in the middle of an operation reads the instruction
at its own program counter, in its own space (R8, R24, R25); when no unit is, the next operation the host has
invoked runs; when there is none, the block does nothing on its own (R44, R260). -/

namespace Sys2Proof.Machine

/-- What a step finds to do. -/
inductive Fetched where
  /-- An instruction, and the state it is executed in. -/
  | run (i : Instr) (s : State)
  /-- No instruction: the unit's operation ends here, or the block idles. -/
  | settle (s : State)
  /-- A refusal. -/
  | refuse (r : Refusal)
deriving DecidableEq, Repr

/-- R204: a lookup from bytes begins, stepped. A locally-originated frame has its header byte next (R161 to R163); a
monitored one has none, and is located at once (R164, R165). -/
def beginLookup (bytes : List Byte) (length : Nat) (isMonitoredReply isShortForm : Bool) (s : State) : Fetched :=
  if isMonitoredReply then
    match locateApp s.cfg bytes length isMonitoredReply isShortForm with
    | .error e => .settle (s.shareMap.failDecode e)
    | .ok loc => .settle (routeTo bytes (length - 1) loc s.shareMap)
  else .settle (s.shareMap.continueAt (.parsing bytes length))

/-- An operation begins, stepped (R8): its unit stands before the first instruction. An operation that reads no
instruction runs whole. -/
def beginStepped (op : Instr) (s : State) : Fetched :=
  match op with
  | .processChunk ps chars length cursor =>
    match chunkRefusal ps chars length cursor s with
    | some r => .refuse r
    | none =>
      if length = cursor then .run op s
      else .settle (s.continueAt (.framing ps (chars.take length) cursor))
  | .hdrDecode b => .settle (s.continueAt (.decodingHeader b))
  | .locateApp bytes length false _ =>
    if bytes.length < length then .refuse .lengthPastBytes
    else .settle (s.continueAt (.locating bytes length))
  | .tryParse bytes length isMonitoredReply isShortForm =>
    match parseRefusal bytes length s with
    | some r => .refuse r
    | none => beginLookup bytes length isMonitoredReply isShortForm s
  | .decodeFrame ps isShortForm =>
    match frameRefusal ps s with
    | some r => .refuse r
    | none => beginLookup (s.parser ps).buf (s.parser ps).len (s.parser ps).monitored isShortForm (s.holdParser ps)
  | _ => .run op s

/-- The bytes the decoder has before it: the command region from `dpos` to its end. -/
def regionAt (bytes : List Byte) (stop dpos : Nat) : List Byte := (bytes.take stop).drop dpos

/-- R161 to R163: the header byte of a locally-originated frame; no header makes the decode fail (R166). -/
def fetchHeader (bytes : List Byte) (length : Nat) (s failed : State) : Fetched :=
  match decodeIn s.cfg .header (regionAt bytes (length - 1) 0) with
  | .ok i => .run i s
  | .error _ => .settle failed

/-- The next thing to do under a legal `Config`. -/
def fetchNext (s : State) : Fetched :=
  match s.unit with
  | .idle =>
    match s.pending with
    | [] => .settle s
    | inv :: rest =>
      if inv.stepped then beginStepped inv.op { s with pending := rest }
      else .run inv.op { s with pending := rest }
  | .framing _ chars cursor =>
    match decodeIn s.cfg .character (chars.drop cursor) with
    | .ok i => .run i s
    | .error _ => .settle (s.finish (.chunk false cursor))
  | .decodingHeader b =>
    match decodeIn s.cfg .header [b] with
    | .ok i => .run i s
    | .error _ => .settle (s.failDecode .fTrunc)
  | .locating bytes length => fetchHeader bytes length s (s.failDecode .fTrunc)
  | .parsing bytes length =>
    if s.mapFault then .refuse .mapHalted
    else fetchHeader bytes length s (s.shareMap.failDecode .fTrunc)
  | .words d bytes stop dpos subs =>
    if stop ≤ dpos then .settle (enterWords d bytes stop dpos subs s)
    else
      match decodeIn s.cfg (.word d) (regionAt bytes stop dpos) with
      | .ok i => .run i s
      | .error _ => .settle (s.failDecode .fTrunc)

/-- R11: under a `Config` that breaks a constraint nothing is done; the block is not defined for it. -/
def underLegal (cfg : Config) : Fetched → Fetched
  | .run i t => if configLegal cfg then .run i t else .refuse .illegalConfig
  | .settle t => if configLegal cfg then .settle t else .refuse .illegalConfig
  | .refuse r => if configLegal cfg then .refuse r else .refuse .illegalConfig

/-- What a step finds to do. -/
def fetch (s : State) : Fetched := underLegal s.cfg (fetchNext s)

/-- The state in which the unit that reads the space `sp` has the bytes before it. The outbound constants are
read by no unit; they are invoked by name (log entry 18). -/
def placeInSpace (sp : Space) (i : Instr) (bytes : List Byte) (s : State) : State :=
  match sp with
  | .character => { s with unit := .framing 0 (bytes.take 1) 0, decoding := none }
  | .header => { s with unit := .decodingHeader (bytes.headD 0), decoding := none }
  | .word d => { s with unit := .words d (bytes ++ [0]) bytes.length 0 [], decoding := none }
  | .outByte => { s with unit := .idle, decoding := none, pending := [{ op := i, stepped := false }] }
  | .outChar => { s with unit := .idle, decoding := none, pending := [{ op := i, stepped := false }] }

/-- A table word placed where the next step reads it (log entry 10). -/
def placeTableWord (s : State) (nbits w : Nat) : State :=
  match decodeTableIn s.cfg nbits w with
  | none => s
  | some (sp, i) => placeInSpace sp i (tableBytes nbits w) s

end Sys2Proof.Machine
end

