-- ==== Sys2Proof/Safety.lean ====
section
/-! DEFINITION. What a state of the machine must keep: the invariants of a ParserState (R23, R30), the canonical form
of the two stores, and the bounds of an operation in progress (R51, R166). -/

namespace Sys2Proof.Machine

/-- R30 (a) to (i), and R23's "exactly when" for (f): what every reachable ParserState satisfies. -/
abbrev ParserInv (cfg : Config) (p : ParserState) : Prop :=
  p.len ≤ cfg.cap ∧
  (p.phase = .complete ↔ p.cls.terminal = true) ∧
  (p.cls = .none → p.phase = .idle ∧ p.len = 0 ∧ p.ack = none) ∧
  (p.phase = .idle ∨ p.phase = .ackPending ∨ p.phase = .stxFound → p.len = 0) ∧
  (p.phase = .expectHighNibble → 1 ≤ p.len) ∧
  (p.ack.isSome = true ↔ p.cls = .ack) ∧
  (p.cls = .ack ∨ p.cls = .nak ∨ p.cls = .nakCorrupted ∨ p.cls = .nakNoClock ∨ p.cls = .nakTooLong → p.len = 0) ∧
  (p.cls.hasFrame = true → 1 ≤ p.len) ∧
  (p.phase = .expectLowNibble → hexValid cfg p.prev = true) ∧
  (p.phase = .ackPending → p.prev ≠ cfg.chStx ∧ hexValid cfg p.prev = false)

/-- R183: every sub-command is well-formed for the domain. -/
abbrev SubsWf (cfg : Config) (d : Domain) (subs : List SubCmd) : Prop :=
  ∀ sc ∈ subs, subCmdWellFormed cfg d sc = true

/-- R51, R166: an operation in progress stands inside the bytes it was given, and the sub-commands it has decoded
are well-formed. -/
def UnitInv (cfg : Config) : Activity → Prop
  | .idle => True
  | .framing _ chars cursor => cursor ≤ chars.length
  | .decodingHeader _ => True
  | .locating bytes length => length ≤ bytes.length
  | .parsing bytes length => length ≤ bytes.length
  | .words d bytes stop dpos subs => dpos ≤ stop ∧ stop < bytes.length ∧ SubsWf cfg d subs

/-- R39, R183: a decoded SAL command has no acknowledgement character, and its sub-commands are well-formed. -/
def ResultInv (cfg : Config) : Result → Prop
  | .sal c => c.ackChar = none ∧ SubsWf cfg c.domain c.subs
  | _ => True

/-- The machine's invariant. -/
structure StateInv (s : State) : Prop where
  /-- The store of ParserStates is canonical. -/
  parsersWf : Memory.wf ParserState.reset s.parsers
  /-- Every ParserState satisfies R30. -/
  parsersInv : ∀ ps, ParserInv s.cfg (s.parser ps)
  /-- The address map is canonical. -/
  mapWf : Memory.wf none s.map
  /-- R35: the address map has 256 entries. -/
  mapBound : ∀ e ∈ s.map, e.1 < 256
  /-- The operation in progress is inside its bounds. -/
  unitInv : UnitInv s.cfg s.unit
  /-- A decoded command is well-formed. -/
  resultInv : ResultInv s.cfg s.result
  /-- R206: a ParserState is held for a `DECODE_FRAME` only while its lookup is in progress. -/
  decodingInv : s.decoding.isSome = true → s.routerBusy = true

/-! ### Words the statements use -/

/-- R113: the framer left the ParserState `q` behind a character that ends nothing: it stands at `k`, or it returns
false at the end of the chunk. -/
def State.framerMoved (s : State) (ps : Nat) (q : ParserState) (chars : List Byte) (k : Nat) : State :=
  if chars.length ≤ k then (s.setParser ps q).finish (.chunk false k)
  else (s.setParser ps q).continueAt (.framing ps chars k)

/-- R113: the framer left the ParserState `q` at a terminal classification and returns true. -/
def State.framerReturned (s : State) (ps : Nat) (q : ParserState) (k : Nat) : State :=
  (s.setParser ps q).finish (.chunk true k)

/-- R104, R105: the ParserState of a candidate that was discarded on the character `c`. -/
def discarded (c : Byte) : ParserState := { phase := .idle, buf := [], prev := c, ack := none, cls := .pending }

/-- R74, R75: the bytes that a text of hex pairs forms, if it is one. -/
def hexPairs (cfg : Config) : List Byte → Option (List Byte)
  | [] => some []
  | [_] => none
  | h :: l :: w =>
    match hexval cfg h, hexval cfg l, hexPairs cfg w with
    | some a, some b, some bs => some (BitVec.ofNat 8 (16 * a.toNat + b.toNat) :: bs)
    | _, _, _ => none

/-- R74: `sal_frame`, the inbound text that forms the bytes `bs`. -/
def SalText (cfg : Config) (w bs : List Byte) : Prop :=
  bs ≠ [] ∧ ∃ body, hexPairs cfg body = some bs ∧ (w = body ++ [chCr] ∨ w = cfg.chStx :: (body ++ [chCr]))

/-- R74, R107: the classification an outcome code selects. -/
def outcomeOf (cfg : Config) (c : Byte) : Option Cls :=
  if c = cfg.chAck then some .ack
  else if c = cfg.chNak then some .nak
  else if c = cfg.chNakCorrupt then some .nakCorrupted
  else if c = cfg.chNakNoclock then some .nakNoClock
  else if c = cfg.chNakToolong then some .nakTooLong
  else none

/-- R74: the text `w` is a complete message, and `p` is the ParserState that it leaves. -/
def Delivers (cfg : Config) (w : List Byte) (p : ParserState) : Prop :=
  (∃ bs, SalText cfg w bs ∧
    p = { phase := .complete, buf := bs, prev := chCr, ack := none, cls := .salReceived }) ∨
  (∃ v bs, SalText cfg v bs ∧ w = v ++ [chLf] ∧
    p = { phase := .complete, buf := bs, prev := chLf, ack := none, cls := .monitoredSalReceived }) ∨
  (∃ x o k, w = [x, o] ∧ x ≠ cfg.chStx ∧ hexval cfg x = none ∧ outcomeOf cfg o = some k ∧
    p = { phase := .complete, buf := [], prev := o, ack := if k = .ack then some x else none, cls := k })

/-- R10, R60, R113, R276: the host calls `PROCESS_CHUNK` as it must: nothing else works on the ParserState, the chunk has
`length` characters, which the counters can count, and `cursor` stands at one of them or at their end. -/
def ChunkCallLegal (s : State) (ps : Nat) (chars : List Byte) (length cursor : Nat) : Prop :=
  s.parserBusy ps = false ∧ length ≤ chars.length ∧ fitsChunk s.cfg length = true ∧ cursor ≤ length

/-- R11: the constraints every `Config` must satisfy, (a) to (e), in words of arithmetic. -/
def ConfigConstraints (cfg : Config) : Prop :=
  [cfg.chAck, cfg.chNak, cfg.chNakCorrupt, cfg.chNakNoclock, cfg.chNakToolong].Pairwise (fun x y => x ≠ y) ∧
  hexval cfg cfg.chStx = none ∧ hexval cfg chCr = none ∧
  cfg.atOne ≠ 5#3 ∧ cfg.atTwo ≠ 5#3 ∧ cfg.atOne ≠ cfg.atTwo ∧
  [0x79#8, cfg.lightOff, cfg.lightTerminate].Pairwise (fun x y => x ≠ y) ∧
  (∀ id ∈ cfg.rampIds, id ≠ 0x79#8 ∧ id ≠ cfg.lightOff ∧ id ≠ cfg.lightTerminate ∧ id.toNat < 128) ∧
  cfg.lightOff.toNat < 128 ∧ cfg.lightTerminate.toNat < 128 ∧
  [0x02#8, cfg.trigMin, cfg.trigMax, cfg.trigKill].Pairwise (fun x y => x ≠ y) ∧
  cfg.trigMin.toNat < 128 ∧ cfg.trigMax.toNat < 128 ∧ cfg.trigKill.toNat < 128 ∧
  1 ≤ cfg.cap ∧ 1 ≤ cfg.routeDiv

/-- R167: the decoder stands at `dpos` with the sub-commands `subs`; it returns them at the end of the region. -/
def State.wordsAt (s : State) (d : Domain) (bytes : List Byte) (stop dpos : Nat) (subs : List SubCmd) : State :=
  if stop ≤ dpos then s.finish (.sal { domain := d, subs, ackChar := none })
  else s.continueAt (.words d bytes stop dpos subs)

/-- R171 to R179: the sub-commands a command word yields. -/
def wordYield (cfg : Config) : Instr → List SubCmd
  | .on g => [{ id := lightOn, group := g, param := none }]
  | .off g => [{ id := cfg.lightOff, group := g, param := none }]
  | .terminate g => [{ id := cfg.lightTerminate, group := g, param := none }]
  | .ramp id g l => [{ id := id, group := g, param := some l }]
  | .event g a => [{ id := trigEvent, group := g, param := some a }]
  | .min g => [{ id := cfg.trigMin, group := g, param := none }]
  | .max g => [{ id := cfg.trigMax, group := g, param := none }]
  | .kill g => [{ id := cfg.trigKill, group := g, param := none }]
  | _ => []

/-- R170: the two rows of unrecognised ids. -/
def isUnknownIdRow : Instr → Bool
  | .lightUnknown _ => true
  | .trigUnknown _ => true
  | _ => false

/-- `n` steps one after another. -/
def stepTimes : Nat → State → Answer
  | 0, s => .next s
  | n + 1, s =>
    match step s with
    | .next t => stepTimes n t
    | .fault x => .fault x
    | .refused r => .refused r

/-- R21, R31: the instructions that may write a ParserState: the character rows, and three operations. -/
def mayWriteParser (cfg : Config) : Instr → Bool
  | .hwReset => true
  | .psReset _ => true
  | .processChunk _ _ _ _ => true
  | i => (charOf cfg i).isSome

end Sys2Proof.Machine
end

