-- ==== Sys2Proof/Certificates/Slice0/Obligations.lean ====
section
/-! DEFINITION. The statements for the provers. Each says what the machine does, for every `Config`, state and operand
that meets its hypotheses. `OBLIGATIONS.json` lists them with the rules of the spec they rest on. -/

open Sys2Proof Sys2Proof.Machine

/-! ### The framer -/

/-- R71: the hex value of a character, digit by digit. -/
def Obligations.HexDigitValues : Prop :=
  ∀ (cfg : Config) (c : Byte) (v : Nibble),
    hexval cfg c = some v ↔
      (v.toNat ≤ 9 ∧ c.toNat = 0x30 + v.toNat) ∨
      (10 ≤ v.toNat ∧ c.toNat = 0x41 + (v.toNat - 10)) ∨
      (cfg.acceptLowerHex = true ∧ 10 ≤ v.toNat ∧ c.toNat = 0x61 + (v.toNat - 10))

/-- R102, R103: a character consumed in phase Idle or Complete restarts the candidate, whatever its class. Every
character row completes here. -/
def Obligations.IdlePhaseRestarts : Prop :=
  ∀ (s : State) (i : Instr) (c : Byte) (ps : Nat) (chars : List Byte) (cursor : Nat),
    charOf s.cfg i = some c → s.unit = .framing ps chars cursor →
    (s.parser ps).phase = .idle ∨ (s.parser ps).phase = .complete →
    exec i s = .next (s.framerMoved ps
      { phase := if c = s.cfg.chStx then .stxFound
                 else if (hexval s.cfg c).isSome = true then .expectLowNibble else .ackPending
        buf := [], prev := c, ack := none, cls := .pending } chars (cursor + 1))

/-- R106: in phase StxFound only a hex digit is expected. -/
def Obligations.StxFoundPhase : Prop :=
  ∀ (s : State) (i : Instr) (c : Byte) (ps : Nat) (chars : List Byte) (cursor : Nat),
    charOf s.cfg i = some c → s.unit = .framing ps chars cursor → ParserInv s.cfg (s.parser ps) →
    (s.parser ps).phase = .stxFound →
    exec i s = .next (s.framerMoved ps
      (if (hexval s.cfg c).isSome = true then { s.parser ps with phase := .expectLowNibble, prev := c }
       else discarded c) chars (cursor + 1))

/-- R107: in phase AckPending the character is compared with the five codes by value; only Ack captures the character
before it. -/
def Obligations.AckPendingPhase : Prop :=
  ∀ (s : State) (i : Instr) (c : Byte) (ps : Nat) (chars : List Byte) (cursor : Nat),
    charOf s.cfg i = some c → s.unit = .framing ps chars cursor → (s.parser ps).phase = .ackPending →
    exec i s = .next
      (if c = s.cfg.chAck then
        s.framerReturned ps
          { s.parser ps with phase := .complete, prev := c, ack := some (s.parser ps).prev, cls := .ack } (cursor + 1)
      else if c = s.cfg.chNak then
        s.framerReturned ps { s.parser ps with phase := .complete, prev := c, cls := .nak } (cursor + 1)
      else if c = s.cfg.chNakCorrupt then
        s.framerReturned ps { s.parser ps with phase := .complete, prev := c, cls := .nakCorrupted } (cursor + 1)
      else if c = s.cfg.chNakNoclock then
        s.framerReturned ps { s.parser ps with phase := .complete, prev := c, cls := .nakNoClock } (cursor + 1)
      else if c = s.cfg.chNakToolong then
        s.framerReturned ps { s.parser ps with phase := .complete, prev := c, cls := .nakTooLong } (cursor + 1)
      else s.framerMoved ps (discarded c) chars (cursor + 1))

/-- R108 to R110, and the peek of R115: in phase ExpectHighNibble a hex digit goes on, the primary terminator completes the frame and
takes a secondary terminator behind it in the same chunk with it, and everything else discards the candidate. -/
def Obligations.ExpectHighNibblePhase : Prop :=
  ∀ (s : State) (i : Instr) (c : Byte) (ps : Nat) (chars : List Byte) (cursor : Nat),
    charOf s.cfg i = some c → s.unit = .framing ps chars cursor → ParserInv s.cfg (s.parser ps) →
    (s.parser ps).phase = .expectHighNibble →
    exec i s = .next
      (if (hexval s.cfg c).isSome = true then
        s.framerMoved ps { s.parser ps with phase := .expectLowNibble, prev := c } chars (cursor + 1)
      else if c = 0x0D#8 then
        if chars[cursor + 1]? = some 0x0A#8 then
          s.framerReturned ps
            { s.parser ps with phase := .complete, prev := 0x0A#8, cls := .monitoredSalReceived } (cursor + 2)
        else
          s.framerReturned ps { s.parser ps with phase := .complete, prev := c, cls := .salReceived } (cursor + 1)
      else s.framerMoved ps (discarded c) chars (cursor + 1))

/-- R75, R111, R112: in phase ExpectLowNibble a hex digit makes a byte with the one before it, while there is room;
everything else discards the candidate. -/
def Obligations.ExpectLowNibblePhase : Prop :=
  ∀ (s : State) (i : Instr) (c : Byte) (ps : Nat) (chars : List Byte) (cursor : Nat) (h : Nibble),
    charOf s.cfg i = some c → s.unit = .framing ps chars cursor → ParserInv s.cfg (s.parser ps) →
    (s.parser ps).phase = .expectLowNibble → hexval s.cfg (s.parser ps).prev = some h →
    exec i s = .next (s.framerMoved ps
      (match hexval s.cfg c with
       | none => discarded c
       | some l =>
         if (s.parser ps).buf.length < s.cfg.cap then
           { s.parser ps with
             phase := .expectHighNibble
             prev := c
             buf := (s.parser ps).buf ++ [BitVec.ofNat 8 (16 * h.toNat + l.toNat)] }
         else discarded c) chars (cursor + 1))

/-- R21, R34, R52: a character leaves the bytes of the buffer as they are and appends at most one, inside the capacity
and in phase ExpectLowNibble only, or it empties the buffer. -/
def Obligations.BufferIsAppendOnly : Prop :=
  ∀ (s t : State) (i : Instr) (c : Byte) (ps : Nat) (chars : List Byte) (cursor : Nat),
    charOf s.cfg i = some c → s.unit = .framing ps chars cursor → exec i s = .next t →
    (t.parser ps).buf = [] ∨ (t.parser ps).buf = (s.parser ps).buf ∨
    ((s.parser ps).phase = .expectLowNibble ∧ (s.parser ps).buf.length < s.cfg.cap ∧
      ∃ b, (t.parser ps).buf = (s.parser ps).buf ++ [b])

/-- R113: `PROCESS_CHUNK` as its loop: nothing at the end of the chunk; before it one `Step`, the return at a terminal
classification with the peek of R115, and otherwise the rest of the loop. -/
def Obligations.ProcessChunkLoop : Prop :=
  ∀ (s : State) (ps : Nat) (chars : List Byte) (length cursor : Nat),
    StateInv s → ChunkCallLegal s ps chars length cursor →
    (cursor = length → exec (.processChunk ps chars length cursor) s = .next (s.ret (.chunk false cursor))) ∧
    ∀ (c : Byte) (q : ParserState), cursor < length → chars[cursor]? = some c →
      framerStep s.cfg (s.parser ps) c = some q →
      exec (.processChunk ps chars length cursor) s =
        if q.cls.terminal = true then
          if q.cls = .salReceived ∧ cursor + 1 < length ∧ chars[cursor + 1]? = some 0x0A#8 then
            .next ((s.setParser ps { q with cls := .monitoredSalReceived, prev := 0x0A#8 }).ret
              (.chunk true (cursor + 2)))
          else .next ((s.setParser ps q).ret (.chunk true (cursor + 1)))
        else exec (.processChunk ps chars length (cursor + 1)) (s.setParser ps q)

/-- R113, R114, R118: a legal call of `PROCESS_CHUNK` returns; it stays inside the chunk, returns true only at a terminal
classification reached by a character of this call, and false only at the end of the chunk. -/
def Obligations.ProcessChunkReturns : Prop :=
  ∀ (s : State) (ps : Nat) (chars : List Byte) (length cursor : Nat),
    StateInv s → ChunkCallLegal s ps chars length cursor →
    ∃ (done : Bool) (k : Nat) (q : ParserState),
      exec (.processChunk ps chars length cursor) s = .next ((s.setParser ps q).ret (.chunk done k)) ∧
      cursor ≤ k ∧ k ≤ length ∧ ParserInv s.cfg q ∧
      (done = true → cursor < k ∧ q.phase = .complete) ∧
      (done = false → k = length ∧ (k = cursor → q = s.parser ps) ∧ (cursor < k → q.cls = .pending))

/-- R117: a call that returns false can be split: the two calls together do what one call on both chunks does. -/
def Obligations.ChunkBoundariesDoNotMatter : Prop :=
  ∀ (s s1 s2 : State) (ps : Nat) (x y : List Byte) (d : Bool) (k : Nat),
    StateInv s → s.parserBusy ps = false → fitsChunk s.cfg (x.length + y.length) = true →
    exec (.processChunk ps x x.length 0) s = .next s1 → s1.result = .chunk false x.length →
    exec (.processChunk ps y y.length 0) s1 = .next s2 → s2.result = .chunk d k →
    exec (.processChunk ps (x ++ y) (x.length + y.length) 0) s = .next (s2.ret (.chunk d (x.length + k)))

/-- R230: what the framer makes of the outbound texts: a SAL text without an acknowledgement request is received as it
was sent; one with a request is discarded; a CAL text starts a misaligned candidate behind its third character. -/
def Obligations.LoopBack : Prop :=
  ∀ (s : State) (ps : Nat), StateInv s → configLegal s.cfg = true → s.parserBusy ps = false →
    (s.parser ps).phase = .idle ∨ (s.parser ps).phase = .complete →
    (∀ (b text : List Byte), text = salFrameText s.cfg b none → 1 ≤ b.length → b.length ≤ s.cfg.cap →
      fitsChunk s.cfg text.length = true →
      exec (.processChunk ps text text.length 0) s =
        .next ((s.setParser ps { phase := .complete, buf := b, prev := chCr, ack := none, cls := .salReceived }).ret
          (.chunk true (2 * b.length + 2)))) ∧
    (∀ (b text : List Byte) (a : Byte), text = salFrameText s.cfg b (some a) → 1 ≤ b.length → b.length ≤ s.cfg.cap →
      fitsChunk s.cfg text.length = true → hexval s.cfg a = none → a ≠ chCr → s.cfg.chStx ≠ chCr →
      exec (.processChunk ps text text.length 0) s =
        .next ((s.setParser ps { phase := .ackPending, buf := [], prev := chCr, ack := none, cls := .pending }).ret
          (.chunk false (2 * b.length + 3)))) ∧
    (∀ (cal : CalCommand) (text : List Byte), text = calFrameText s.cfg cal → fitsChunk s.cfg 3 = true →
      s.cfg.chDirect ≠ s.cfg.chStx → hexval s.cfg s.cfg.chDirect = none → outcomeOf s.cfg 0x41 = none →
      exec (.processChunk ps text 3 0) s =
        .next ((s.setParser ps
          { phase := .expectLowNibble, buf := [], prev := 0x33, ack := none, cls := .pending }).ret (.chunk false 3)))

/-- R74: every text of the inbound grammar is delivered, from phase Idle or Complete, if its bytes fit the buffer. -/
def Obligations.GrammarIsDelivered : Prop :=
  ∀ (s : State) (ps : Nat) (w : List Byte) (q : ParserState),
    StateInv s → configLegal s.cfg = true → ChunkCallLegal s ps w w.length 0 →
    (s.parser ps).phase = .idle ∨ (s.parser ps).phase = .complete → Delivers s.cfg w q → q.buf.length ≤ s.cfg.cap →
    exec (.processChunk ps w w.length 0) s = .next ((s.setParser ps q).ret (.chunk true w.length))

/-- R74: nothing else is delivered: what a call that returns true has consumed, from phase Idle or Complete, ends in a
text of the inbound grammar, and the ParserState is the one of that text. -/
def Obligations.OnlyGrammarIsDelivered : Prop :=
  ∀ (s t : State) (ps : Nat) (chars : List Byte) (length k : Nat),
    StateInv s → (s.parser ps).phase = .idle ∨ (s.parser ps).phase = .complete →
    exec (.processChunk ps chars length 0) s = .next t → t.result = .chunk true k →
    ∃ pre w, chars.take k = pre ++ w ∧ Delivers s.cfg w (t.parser ps)

/-- R115, R280, R281: a secondary terminator in a later chunk upgrades nothing: it erases the frame instead. In the same
chunk it upgrades the frame. -/
def Obligations.LateTerminatorIsLost : Prop :=
  ∀ (s : State) (ps : Nat),
    StateInv s → s.parserBusy ps = false → fitsChunk s.cfg 2 = true → fitsChunk s.cfg 1 = true →
    s.cfg.chStx ≠ chLf → (s.parser ps).phase = .expectHighNibble →
    exec (.processChunk ps [chCr, chLf] 2 0) s =
      .next ((s.setParser ps
        { s.parser ps with phase := .complete, prev := chLf, cls := .monitoredSalReceived }).ret (.chunk true 2)) ∧
    ∃ s1, exec (.processChunk ps [chCr] 1 0) s = .next s1 ∧
      s1 = (s.setParser ps { s.parser ps with phase := .complete, prev := chCr, cls := .salReceived }).ret
        (.chunk true 1) ∧
      exec (.processChunk ps [chLf] 1 0) s1 =
        .next ((s.setParser ps { phase := .ackPending, buf := [], prev := chLf, ack := none, cls := .pending }).ret
          (.chunk false 1))

/-! ### Reset -/

/-- R43, R271: `PS_RESET` resets one ParserState and nothing else, in any phase; no instruction outside the framer and
the two resets touches a candidate; and `PS_RESET` is, beside `HW_RESET`, the only way `cls` returns to None. -/
def Obligations.PsResetResetsOne : Prop :=
  (∀ (s : State) (ps : Nat), StateInv s → s.parserBusy ps = false →
    ∃ t, exec (.psReset ps) s = .next t ∧
      (t.parser ps).phase = .idle ∧ (t.parser ps).buf = [] ∧ (t.parser ps).ack = none ∧ (t.parser ps).cls = .none ∧
      (t.parser ps).prev = (s.parser ps).prev ∧
      (∀ q, q ≠ ps → t.parser q = s.parser q) ∧
      t = { s with parsers := t.parsers, result := .done }) ∧
  (∀ (s t : State) (i : Instr) (ps : Nat), exec i s = .next t → mayWriteParser s.cfg i = false →
    t.parser ps = s.parser ps) ∧
  (∀ (s t : State) (i : Instr) (ps : Nat), StateInv s → exec i s = .next t → i ≠ .hwReset → i ≠ .psReset ps →
    (s.parser ps).cls ≠ .none → (t.parser ps).cls ≠ .none)

/-- R270: what `HW_RESET` makes of the spec's state, in every state; and the machine right after reset. -/
def Obligations.HwResetResetsAll : Prop :=
  (∀ (s : State), ∃ t, exec .hwReset s = .next t ∧
    (∀ ps, (t.parser ps).phase = .idle ∧ (t.parser ps).buf = [] ∧ (t.parser ps).ack = none ∧
      (t.parser ps).cls = .none) ∧
    (∀ a, t.domainAt a = none) ∧ t.mapFault = false) ∧
  (∀ ps, (State.reset.parser ps).phase = .idle ∧ (State.reset.parser ps).buf = [] ∧
    (State.reset.parser ps).ack = none ∧ (State.reset.parser ps).cls = .none) ∧
  (∀ a, State.reset.domainAt a = none) ∧ State.reset.mapFault = false

/-! ### The checksum -/

/-- R140, R141: `CHECKSUM` is the negation modulo 256 of the sum of the bytes, in any order, and writes no state. -/
def Obligations.ChecksumResult : Prop :=
  (∀ (s : State) (bytes : List Byte) (length : Nat), length ≤ bytes.length →
    exec (.checksum bytes length) s =
      .next (s.ret (.byte (BitVec.ofNat 8 (256 - ((bytes.take length).map BitVec.toNat).sum % 256))))) ∧
  (∀ (s : State) (xs ys : List Byte), xs.Perm ys →
    exec (.checksum xs xs.length) s = exec (.checksum ys ys.length) s)

/-- R142: the checksum of bytes with one more byte behind them is 0 exactly when that byte is their checksum. -/
def Obligations.ChecksumResidue : Prop :=
  ∀ (s : State) (bytes : List Byte) (x : Byte),
    exec (.checksum (bytes ++ [x]) (bytes.length + 1)) s = .next (s.ret (.byte 0)) ↔
    exec (.checksum bytes bytes.length) s = .next (s.ret (.byte x))

/-! ### Headers -/

/-- R150: `HDR_ENCODE`. -/
def Obligations.HdrEncodeResult : Prop :=
  ∀ (s : State) (priority : BitVec 2) (code : BitVec 3),
    exec (.hdrEncode priority code) s = .next (s.ret (.byte (BitVec.ofNat 8 (64 * priority.toNat + code.toNat))))

/-- R151: `HDR_DECODE`; it gives back what `HDR_ENCODE` encoded (R153), and it ignores bits 5:3. -/
def Obligations.HdrDecodeResult : Prop :=
  (∀ (s : State) (h : Byte), exec (.hdrDecode h) s = .next (s.ret (.header
    { priority := BitVec.ofNat 2 (h.toNat / 64)
      addrType := if h.toNat % 8 = 5 then .noAddr
                  else if h.toNat % 8 = s.cfg.atTwo.toNat then .twoByte else .oneByte }))) ∧
  (∀ (s : State) (priority : BitVec 2) (code : BitVec 3), exec (.hdrDecode (headerEncode priority code)) s =
    .next (s.ret (.header
      { priority
        addrType := if code = 5#3 then .noAddr else if code = s.cfg.atTwo then .twoByte else .oneByte }))) ∧
  (∀ (s : State) (priority : BitVec 2) (x y code : BitVec 3),
    exec (.hdrDecode (packHeader priority x code)) s = exec (.hdrDecode (packHeader priority y code)) s)

/-- R151, R84: each of the eight header rows, where `HDR_DECODE` is stepped, gives what `HDR_DECODE` gives for its byte.
That the rows are executed one by one is the model's choice (log entry 8). -/
def Obligations.HeaderRowsDecode : Prop :=
  ∀ (s : State) (i : Instr) (b h : Byte), configLegal s.cfg = true → s.unit = .decodingHeader b →
    headerByteOf s.cfg i = some h → exec i s = .next (s.finish (.header (headerDecode s.cfg h)))

/-- R160 to R163: each of the eight header rows, where `LOCATE_APP` of a locally-originated frame is stepped, gives what
`LOCATE_APP` gives for the frame that begins with its byte (log entry 8). -/
def Obligations.HeaderRowsLocate : Prop :=
  ∀ (s : State) (i : Instr) (h : Byte) (bytes : List Byte) (length : Nat) (f : Bool), configLegal s.cfg = true →
    s.unit = .locating bytes length → 2 ≤ length → bytes[0]? = some h → headerByteOf s.cfg i = some h →
    exec i s = .next (s.finish (locatedResult (locateApp s.cfg bytes length false f)))

/-- R204, R205: each of the eight header rows, where `TRY_PARSE` of a locally-originated frame is stepped: the location,
the lookup, and the first command word or the absent result (log entry 8). -/
def Obligations.HeaderRowsParse : Prop :=
  ∀ (s : State) (i : Instr) (h : Byte) (bytes : List Byte) (length : Nat) (f : Bool), configLegal s.cfg = true →
    s.unit = .parsing bytes length → s.mapFault = false → 2 ≤ length → bytes[0]? = some h →
    headerByteOf s.cfg i = some h →
    exec i s = .next
      (match locateApp s.cfg bytes length false f with
       | .error _ => s.shareMap.finish .absent
       | .ok loc =>
         match s.domainAt loc.1 with
         | none => s.shareMap.finish .absent
         | some d => s.shareMap.wordsAt d bytes (length - 1) loc.2 [])

/-! ### Locating -/

/-- R161 to R163: `LOCATE_APP` of a locally-originated frame, by the three layouts. `isShortForm` has no effect. -/
def Obligations.LocateLocalFrames : Prop :=
  ∀ (s : State) (bytes : List Byte) (length : Nat) (f : Bool), length ≤ bytes.length →
    exec (.locateApp bytes length false f) s = .next (s.ret
      (if (bytes.getD 0 0).toNat % 8 = 5 then
        if 4 ≤ length then .located (bytes.getD 1 0) 3 else .absent
      else if (bytes.getD 0 0).toNat % 8 = s.cfg.atTwo.toNat then
        if 6 + (bytes.getD 2 0).toNat / s.cfg.routeDiv ≤ length then
          .located (bytes.getD (3 + (bytes.getD 2 0).toNat / s.cfg.routeDiv) 0)
            (5 + (bytes.getD 2 0).toNat / s.cfg.routeDiv)
        else .absent
      else .absent))

/-- R164, R165: `LOCATE_APP` of a monitored reply, in the long and in the short form. -/
def Obligations.LocateMonitoredReplies : Prop :=
  ∀ (s : State) (bytes : List Byte) (length : Nat), length ≤ bytes.length →
    exec (.locateApp bytes length true false) s = .next (s.ret
      (if 5 + (bytes.getD 3 0).toNat / s.cfg.routeDiv ≤ length then
        .located (bytes.getD 2 0) (4 + (bytes.getD 3 0).toNat / s.cfg.routeDiv)
      else .absent)) ∧
    exec (.locateApp bytes length true true) s = .next (s.ret
      (if (if s.cfg.shortSkipBridge = true then 1 else 0) + 3 ≤ length then
        .located (bytes.getD (if s.cfg.shortSkipBridge = true then 1 else 0) 0)
          ((if s.cfg.shortSkipBridge = true then 1 else 0) + 2)
      else .absent))

/-! ### Command words -/

/-- R172 to R175, R168: the four command words of Lighting, as rows, and as the decoder meets their ids at `dpos`: the
operands are the bytes behind the id, and a word that passes the end of the region fails the decode. -/
def Obligations.LightingWords : Prop :=
  ∀ (s : State) (bytes : List Byte) (stop dpos : Nat) (subs : List SubCmd),
    s.unit = .words .lighting bytes stop dpos subs →
    (∀ g, exec (.on g) s = .next
      (if dpos + 2 ≤ stop then
        s.wordsAt .lighting bytes stop (dpos + 2) (subs ++ [{ id := 0x79, group := g, param := none }])
      else s.finish .absent)) ∧
    (∀ g, exec (.off g) s = .next
      (if dpos + 2 ≤ stop then
        s.wordsAt .lighting bytes stop (dpos + 2) (subs ++ [{ id := s.cfg.lightOff, group := g, param := none }])
      else s.finish .absent)) ∧
    (∀ g, exec (.terminate g) s = .next
      (if dpos + 2 ≤ stop then
        s.wordsAt .lighting bytes stop (dpos + 2)
          (subs ++ [{ id := s.cfg.lightTerminate, group := g, param := none }])
      else s.finish .absent)) ∧
    (∀ id g l, exec (.ramp id g l) s = .next
      (if dpos + 3 ≤ stop then
        s.wordsAt .lighting bytes stop (dpos + 3) (subs ++ [{ id := id, group := g, param := some l }])
      else s.finish .absent)) ∧
    (∀ id, configLegal s.cfg = true → dpos < stop → stop < bytes.length → bytes[dpos]? = some id →
      (id = 0x79 ∨ id = s.cfg.lightOff ∨ id = s.cfg.lightTerminate →
        step s = .next
          (if dpos + 2 ≤ stop then
            s.wordsAt .lighting bytes stop (dpos + 2)
              (subs ++ [{ id := id, group := bytes.getD (dpos + 1) 0, param := none }])
          else s.finish .absent)) ∧
      (id ∈ s.cfg.rampIds →
        step s = .next
          (if dpos + 3 ≤ stop then
            s.wordsAt .lighting bytes stop (dpos + 3)
              (subs ++ [{ id := id, group := bytes.getD (dpos + 1) 0, param := some (bytes.getD (dpos + 2) 0) }])
          else s.finish .absent)))

/-- R176 to R179, R168: the four command words of Trigger, as rows, and as the decoder meets their ids at `dpos`: the
operands are the bytes behind the id, and a word that passes the end of the region fails the decode. -/
def Obligations.TriggerWords : Prop :=
  ∀ (s : State) (bytes : List Byte) (stop dpos : Nat) (subs : List SubCmd),
    s.unit = .words .trigger bytes stop dpos subs →
    (∀ g a, exec (.event g a) s = .next
      (if dpos + 3 ≤ stop then
        s.wordsAt .trigger bytes stop (dpos + 3) (subs ++ [{ id := 0x02, group := g, param := some a }])
      else s.finish .absent)) ∧
    (∀ g, exec (.min g) s = .next
      (if dpos + 2 ≤ stop then
        s.wordsAt .trigger bytes stop (dpos + 2) (subs ++ [{ id := s.cfg.trigMin, group := g, param := none }])
      else s.finish .absent)) ∧
    (∀ g, exec (.max g) s = .next
      (if dpos + 2 ≤ stop then
        s.wordsAt .trigger bytes stop (dpos + 2) (subs ++ [{ id := s.cfg.trigMax, group := g, param := none }])
      else s.finish .absent)) ∧
    (∀ g, exec (.kill g) s = .next
      (if dpos + 2 ≤ stop then
        s.wordsAt .trigger bytes stop (dpos + 2) (subs ++ [{ id := s.cfg.trigKill, group := g, param := none }])
      else s.finish .absent)) ∧
    (∀ id, configLegal s.cfg = true → dpos < stop → stop < bytes.length → bytes[dpos]? = some id →
      (id = s.cfg.trigMin ∨ id = s.cfg.trigMax ∨ id = s.cfg.trigKill →
        step s = .next
          (if dpos + 2 ≤ stop then
            s.wordsAt .trigger bytes stop (dpos + 2)
              (subs ++ [{ id := id, group := bytes.getD (dpos + 1) 0, param := none }])
          else s.finish .absent)) ∧
      (id = 0x02 →
        step s = .next
          (if dpos + 3 ≤ stop then
            s.wordsAt .trigger bytes stop (dpos + 3)
              (subs ++ [{ id := id, group := bytes.getD (dpos + 1) 0, param := some (bytes.getD (dpos + 2) 0) }])
          else s.finish .absent)))

/-- R76, R171: a LONG word, in either domain, is skipped with its content and yields nothing, whatever its bits 6:5 and
its content; the decoder takes every id with bit 7 set for one, of the length that bits 4:0 give. -/
def Obligations.LongWordIsSkipped : Prop :=
  ∀ (s : State) (d : Domain) (bytes : List Byte) (stop dpos : Nat) (subs : List SubCmd),
    s.unit = .words d bytes stop dpos subs →
    (∀ (x : BitVec 2) (n : BitVec 5) (content : List Byte),
      exec (.long x n content) s = .next
        (if dpos + 1 + n.toNat ≤ stop then s.wordsAt d bytes stop (dpos + 1 + n.toNat) subs else s.finish .absent)) ∧
    (∀ id, configLegal s.cfg = true → dpos < stop → stop < bytes.length → bytes[dpos]? = some id → 128 ≤ id.toNat →
      step s = .next
        (if dpos + 1 + id.toNat % 32 ≤ stop then s.wordsAt d bytes stop (dpos + 1 + id.toNat % 32) subs
         else s.finish .absent))

/-- R170: an unrecognised id, one with bit 7 clear that its domain's table does not list, fails the whole decode; the
sub-commands so far are dropped. -/
def Obligations.UnknownIdsFailTheDecode : Prop :=
  ∀ (s : State) (d : Domain) (bytes : List Byte) (stop dpos : Nat) (subs : List SubCmd),
    s.unit = .words d bytes stop dpos subs →
    (∀ id, d = .lighting → exec (.lightUnknown id) s = .next (s.finish .absent)) ∧
    (∀ id, d = .trigger → exec (.trigUnknown id) s = .next (s.finish .absent)) ∧
    (∀ id, configLegal s.cfg = true → dpos < stop → stop < bytes.length → bytes[dpos]? = some id → id.toNat < 128 →
      shortForm s.cfg d id = none → step s = .next (s.finish .absent))

/-- R167 to R171, R180: `TRY_PARSE` decodes a command region exactly when the region is a sequence of command words of
the domain, and then it yields what the words yield, in their order. -/
def Obligations.RegionIsASequenceOfWords : Prop :=
  ∀ (s : State) (d : Domain) (bytes : List Byte) (length off : Nat) (app : Byte) (m f : Bool),
    configLegal s.cfg = true → s.mapFault = false → length ≤ bytes.length →
    locateApp s.cfg bytes length m f = .ok (app, off) → s.domainAt app = some d →
    (∀ ws : List Instr,
      (∀ i ∈ ws, i.wf s.cfg = true ∧ i.inSpace (.word d) = true ∧ isUnknownIdRow i = false) →
      (bytes.take (length - 1)).drop off = ws.flatMap (fun i => (encode s.cfg i).getD []) →
      ∃ t, exec (.tryParse bytes length m f) s = .next t ∧
        t.result = .sal { domain := d, subs := ws.flatMap (wordYield s.cfg), ackChar := none }) ∧
    (∀ (t : State) (c : SalCommand), exec (.tryParse bytes length m f) s = .next t → t.result = .sal c →
      ∃ ws : List Instr,
        (∀ i ∈ ws, i.wf s.cfg = true ∧ i.inSpace (.word d) = true ∧ isUnknownIdRow i = false) ∧
        (bytes.take (length - 1)).drop off = ws.flatMap (fun i => (encode s.cfg i).getD []) ∧
        c = { domain := d, subs := ws.flatMap (wordYield s.cfg), ackChar := none })

/-! ### The router -/

/-- R204, R205: `TRY_PARSE`: the location, the lookup, the domain's decoder; each failure is the absent result, and
nothing changes but the result and the model's own mark that the map is shared (log entry 15). -/
def Obligations.TryParseResult : Prop :=
  ∀ (s : State) (bytes : List Byte) (length : Nat) (m f : Bool), s.mapFault = false → length ≤ bytes.length →
    ∃ t, exec (.tryParse bytes length m f) s = .next t ∧
      t = { s with result := t.result, mapShared := t.mapShared } ∧
      t.result =
        match locateApp s.cfg bytes length m f with
        | .error _ => .absent
        | .ok loc =>
          match s.domainAt loc.1 with
          | none => .absent
          | some d =>
            match decodeSubs s.cfg d bytes loc.2 (length - 1) with
            | .error _ => .absent
            | .ok subs => .sal { domain := d, subs, ackChar := none }

/-- R209: a domain with no binding cannot be decoded, and with the reset map, which has no binding, `TRY_PARSE` decodes
nothing. -/
def Obligations.ResetMapDecodesNothing : Prop :=
  (∀ (s t : State) (bytes : List Byte) (length : Nat) (m f : Bool) (d : Domain) (c : SalCommand),
    (∀ a, s.domainAt a ≠ some d) → exec (.tryParse bytes length m f) s = .next t → t.result = .sal c → c.domain ≠ d) ∧
  (∀ a, State.reset.domainAt a = none) ∧
  ∀ (s : State) (bytes : List Byte) (length : Nat) (m f : Bool),
    (∀ a, s.domainAt a = none) → s.mapFault = false → length ≤ bytes.length →
    ∃ t, exec (.tryParse bytes length m f) s = .next t ∧ t.result = .absent

/-- R207: the last byte of a frame, the checksum byte, has no influence on `TRY_PARSE` and `DECODE_FRAME`. -/
def Obligations.ChecksumByteIsNotExamined : Prop :=
  ∀ (s : State) (bytes : List Byte) (x y : Byte),
    (∀ m f, exec (.tryParse (bytes ++ [x]) (bytes.length + 1) m f) s =
      exec (.tryParse (bytes ++ [y]) (bytes.length + 1) m f) s) ∧
    (∀ (ps : Nat) (p : ParserState) (f : Bool) (t u : State),
      exec (.decodeFrame ps f) (s.setParser ps { p with buf := bytes ++ [x] }) = .next t →
      exec (.decodeFrame ps f) (s.setParser ps { p with buf := bytes ++ [y] }) = .next u → t.result = u.result)

/-- R206: `DECODE_FRAME` is `TRY_PARSE` of the completed ParserState, and is refused on any other ParserState. -/
def Obligations.DecodeFrameIsTryParse : Prop :=
  ∀ (s : State) (ps : Nat) (f : Bool), s.mapFault = false → s.parserBusy ps = false →
    ((s.parser ps).cls = .salReceived ∨ (s.parser ps).cls = .monitoredSalReceived →
      (∃ t, exec (.decodeFrame ps f) s = .next t) ∧
      exec (.decodeFrame ps f) s =
        exec (.tryParse (s.parser ps).buf (s.parser ps).buf.length
          (decide ((s.parser ps).cls = .monitoredSalReceived)) f) s) ∧
    ((s.parser ps).cls ≠ .salReceived ∧ (s.parser ps).cls ≠ .monitoredSalReceived →
      exec (.decodeFrame ps f) s = .refused .noSalFrame)

/-- R201 to R203: `ADD_MAPPING` in the Setup phase: it binds an unbound address, does nothing to one bound to the same
domain, and reports ConfigFault for one bound to the other domain; after a ConfigFault it is refused. -/
def Obligations.AddMappingResult : Prop :=
  ∀ (s : State) (d : Domain) (a : Byte), StateInv s →
    (s.mapFault = true → exec (.addMapping d a) s = .refused .mapHalted) ∧
    (s.mapFault = false → s.mapShared = false → s.routerBusy = false →
      (s.domainAt a = none → ∃ t, exec (.addMapping d a) s = .next t ∧
        t = { s with map := t.map, result := .ok } ∧ ∀ x, t.domainAt x = if x = a then some d else s.domainAt x) ∧
      (s.domainAt a = some d → exec (.addMapping d a) s = .next { s with result := .ok }) ∧
      (∀ d', s.domainAt a = some d' → d' ≠ d →
        exec (.addMapping d a) s = .next { s with mapFault := true, result := .configFault }))

/-- R33: `map_fault` is 0 after `HW_RESET`, is set by `ADD_MAPPING` of an address bound to the other domain, and is
cleared by nothing but `HW_RESET`; while it is 1 the operations on the map are refused, and every other operation
remains defined. -/
def Obligations.MapFaultHaltsTheMap : Prop :=
  (∀ s t : State, exec .hwReset s = .next t → t.mapFault = false) ∧
  (∀ (s : State) (d d' : Domain) (a : Byte), s.mapFault = false → s.mapShared = false → s.routerBusy = false →
    s.domainAt a = some d' → d' ≠ d → ∃ t, exec (.addMapping d a) s = .next t ∧ t.mapFault = true) ∧
  (∀ (s t : State) (i : Instr), exec i s = .next t → i ≠ .hwReset → s.mapFault = true → t.mapFault = true) ∧
  (∀ s : State, s.mapFault = true →
    (∀ d a, exec (.addMapping d a) s = .refused .mapHalted) ∧
    (∀ bytes length m f, exec (.tryParse bytes length m f) s = .refused .mapHalted) ∧
    (∀ ps f, exec (.decodeFrame ps f) s = .refused .mapHalted)) ∧
  (∀ (s t : State) (i : Instr), (∀ d a, i ≠ .addMapping d a) → (∀ bytes length m f, i ≠ .tryParse bytes length m f) →
    (∀ ps f, i ≠ .decodeFrame ps f) → headerByteOf s.cfg i = none → exec i s = .next t →
    ∃ u, exec i { s with mapFault := true } = .next u)

/-- R65, R256: a lookup ends the Setup phase, `ADD_MAPPING` is refused from there on, and only `HW_RESET` leads back;
it also ends the operation in progress and leaves the parameters and the invocations (log entry 19). That the boundary
is policed is the model's (log entry 15). -/
def Obligations.NoMappingAfterALookup : Prop :=
  (∀ (s t : State) (bytes : List Byte) (length : Nat) (m f : Bool),
    exec (.tryParse bytes length m f) s = .next t → t.mapShared = true) ∧
  (∀ (s t : State) (ps : Nat) (f : Bool), exec (.decodeFrame ps f) s = .next t → t.mapShared = true) ∧
  (∀ (s t : State) (i : Instr), exec i s = .next t → s.mapShared = true → i ≠ .hwReset → t.mapShared = true) ∧
  (∀ (s : State) (d : Domain) (a : Byte), s.mapFault = false → s.routerBusy = false → s.mapShared = true →
    exec (.addMapping d a) s = .refused .mappingAfterLookup) ∧
  (∀ s : State, ∃ t, exec .hwReset s = .next t ∧ t.mapShared = false ∧ t.unit = .idle ∧ t.decoding = none ∧ t.cfg = s.cfg ∧
    t.pending = s.pending ∧ t.outBytes = s.outBytes ∧ t.outText = s.outText)

/-- R35, R201: a binding is made by `ADD_MAPPING` only, and only `HW_RESET` ends one. -/
def Obligations.BindingsPersist : Prop :=
  ∀ (s t : State) (i : Instr), StateInv s → exec i s = .next t → i ≠ .hwReset →
    (∀ a d, s.domainAt a = some d → t.domainAt a = some d) ∧
    ((∀ d a, i ≠ .addMapping d a) → t.map = s.map ∧ t.mapFault = s.mapFault)

/-! ### The encoders -/

/-- R181 to R183, R185: `SAL_ENCODE`. -/
def Obligations.SalEncodeResult : Prop :=
  ∀ (s : State) (d : Domain) (priority : BitVec 2) (app : Byte) (subs : List SubCmd) (body : List Byte),
    body = [BitVec.ofNat 8 (64 * priority.toNat + 5), app, 0x00] ++
      subs.flatMap (fun sc => match sc.param with | none => [sc.id, sc.group] | some p => [sc.id, sc.group, p]) →
    ((∀ sc ∈ subs, sc.id.toNat < 128 ∧ ∃ k, shortForm s.cfg d sc.id = some k ∧ (sc.param.isSome = true ↔ k = 2)) →
      (∀ m, s.cfg.txMax = some m → body.length + 1 ≤ m) →
      exec (.salEncode d priority app subs) s = .next (s.produceBytes (body ++ [checksum8 body]))) ∧
    (¬(∀ sc ∈ subs, sc.id.toNat < 128 ∧
        ∃ k, shortForm s.cfg d sc.id = some k ∧ (sc.param.isSome = true ↔ k = 2)) ∨
      (∃ m, s.cfg.txMax = some m ∧ m < body.length + 1) →
      exec (.salEncode d priority app subs) s = .next (s.ret .absent))

/-- R184: what `SAL_ENCODE` encodes, `TRY_PARSE` decodes, and its checksum is 0. -/
def Obligations.SalRoundTrip : Prop :=
  ∀ (s t : State) (d : Domain) (priority : BitVec 2) (app : Byte) (subs : List SubCmd) (f : Bool),
    exec (.salEncode d priority app subs) s = .next t → t.result = .bytes → s.mapFault = false →
    s.domainAt app = some d →
    (∃ u, exec (.tryParse t.outBytes t.outBytes.length false f) t = .next u ∧
      u.result = .sal { domain := d, subs, ackChar := none }) ∧
    exec (.checksum t.outBytes t.outBytes.length) t = .next (t.ret (.byte 0))

/-- R215 to R217: `RESET_ENCODE` and `CAL_ENCODE`, where the output fits `TX_MAX` (R50). -/
def Obligations.CalAndResetEncodeResults : Prop :=
  ∀ (s : State),
    (fitsTx s.cfg 1 = true → exec .resetEncode s = .next (s.produceText [s.cfg.chReset])) ∧
    (∀ id v, fitsTx s.cfg 4 = true → exec (.calEncode { parameterId := id, parameterValue := v, includeChecksum := false }) s =
      .next (s.produceBytes [0xA3, id, 0x00, v])) ∧
    (∀ id v, fitsTx s.cfg 5 = true →
      exec (.calEncode { parameterId := id, parameterValue := v, includeChecksum := true }) s =
      .next (s.produceBytes [0xA3, id, 0x00, v, checksum8 [0xA3, id, 0x00, v]]))

/-- R225: `HEX_ENCODE`, where the output fits `TX_MAX` (R50), writes two upper-case digits a byte, and every `Config` reads
them back. -/
def Obligations.HexEncodeReadsBack : Prop :=
  ∀ (s : State) (bytes : List Byte), fitsTx s.cfg (2 * bytes.length) = true → ∃ text,
    exec (.hexEncode bytes) s = .next (s.produceText text) ∧ text.length = 2 * bytes.length ∧
    (∀ cfg, hexPairs cfg text = some bytes) ∧
    ∀ c ∈ text, (0x30 ≤ c.toNat ∧ c.toNat ≤ 0x39) ∨ (0x41 ≤ c.toNat ∧ c.toNat ≤ 0x46)

/-- R226, R228: `SAL_FRAME_TEXT` and `CAL_FRAME_TEXT`, where the output fits `TX_MAX` (R50). -/
def Obligations.FrameTexts : Prop :=
  ∀ (s : State),
    (∀ bytes, fitsTx s.cfg (2 * bytes.length + 2) = true →
      exec (.salFrameText bytes none) s = .next (s.produceText (s.cfg.chStx :: (hexEncode bytes ++ [0x0D])))) ∧
    (∀ bytes a, fitsTx s.cfg (2 * bytes.length + 3) = true → exec (.salFrameText bytes (some a)) s =
      .next (s.produceText (s.cfg.chStx :: (hexEncode bytes ++ [a, 0x0D])))) ∧
    (∀ cal, fitsTx s.cfg (2 * (calEncode cal).length + 2) = true → exec (.calFrameText cal) s =
      .next (s.produceText (s.cfg.chDirect :: (hexEncode (calEncode cal) ++ [0x0D]))))

/-- R53, R92: each of the six outbound rows produces its constant whole, where one element fits `TX_MAX`. That the rows are
executed one by one is the model's choice (log entry 18). -/
def Obligations.OutboundRowsEmit : Prop :=
  ∀ (s : State), fitsTx s.cfg 1 = true →
    exec .calPrefix s = .next (s.produceBytes [0xA3]) ∧
    exec .reservedZero s = .next (s.produceBytes [0x00]) ∧
    exec .direct s = .next (s.produceText [s.cfg.chDirect]) ∧
    exec .reset s = .next (s.produceText [s.cfg.chReset]) ∧
    exec .stxOut s = .next (s.produceText [s.cfg.chStx]) ∧
    exec .crOut s = .next (s.produceText [0x0D])

/-! ### The whole machine -/

/-- R31: only the character rows, `PS_RESET`, `PROCESS_CHUNK` and `HW_RESET` write a ParserState. -/
def Obligations.OnlyTheFramerWritesParserStates : Prop :=
  ∀ (s t : State) (i : Instr), exec i s = .next t → mayWriteParser s.cfg i = false → t.parsers = s.parsers

/-- R64: calls of `PROCESS_CHUNK` on different ParserStates commute, and leave each other's ParserState alone. -/
def Obligations.ConversationsAreIndependent : Prop :=
  ∀ (s s1 s2 u1 u2 : State) (p q : Nat) (xs ys : List Byte) (m n j k : Nat), StateInv s → p ≠ q →
    exec (.processChunk p xs m j) s = .next s1 → exec (.processChunk q ys n k) s1 = .next s2 →
    exec (.processChunk q ys n k) s = .next u1 → exec (.processChunk p xs m j) u1 = .next u2 →
    s2.parsers = u2.parsers ∧ s1.result = u2.result ∧ u1.result = s2.result ∧
    s1.parser q = s.parser q ∧ u1.parser p = s.parser p

/-- R32: no instruction and no step changes a parameter. -/
def Obligations.ParametersNeverChange : Prop :=
  (∀ (s t : State) (i : Instr), exec i s = .next t → t.cfg = s.cfg) ∧ ∀ (s t : State), step s = .next t → t.cfg = s.cfg

/-- R11: a `Config` is legal exactly when it satisfies the constraints; under any other, nothing is done. -/
def Obligations.IllegalConfigIsRefused : Prop :=
  (∀ cfg, configLegal cfg = true ↔ ConfigConstraints cfg) ∧
  (∀ s : State, ¬ConfigConstraints s.cfg → step s = .refused .illegalConfig) ∧
  ConfigConstraints Config.standard

/-- R10, R24, R50, R51, R113, R140, R166: a call with a length above the bytes it is given or above `CHUNK_MAX`, or with a
cursor above the length, is refused by name, and an encoder whose output passes `TX_MAX` answers `none`. That these calls
are refused, and that encoders other than `SAL_ENCODE` answer `none`, is the model's (log entries 20, 21 and 22). -/
def Obligations.CallsOutsideTheDomainAreRefused : Prop :=
  ∀ (s : State) (bytes : List Byte) (length : Nat),
    (bytes.length < length →
      exec (.checksum bytes length) s = .refused .lengthPastBytes ∧
      (∀ m f, exec (.locateApp bytes length m f) s = .refused .lengthPastBytes) ∧
      (∀ m f, s.mapFault = false → exec (.tryParse bytes length m f) s = .refused .lengthPastBytes) ∧
      (∀ ps k, s.parserBusy ps = false → exec (.processChunk ps bytes length k) s = .refused .lengthPastBytes)) ∧
    (∀ ps k, s.parserBusy ps = false → length ≤ bytes.length → length < k →
      exec (.processChunk ps bytes length k) s = .refused .cursorPastLength) ∧
    (∀ ps k m, s.parserBusy ps = false → length ≤ bytes.length → k ≤ length → s.cfg.chunkMax = some m → m < length →
      exec (.processChunk ps bytes length k) s = .refused .chunkTooLong) ∧
    (fitsTx s.cfg 1 = false → ∀ i ∈ [Instr.resetEncode, .calPrefix, .reservedZero, .direct, .reset, .stxOut, .crOut],
      exec i s = .next (s.ret .absent)) ∧
    (∀ cal, fitsTx s.cfg (calEncode cal).length = false → exec (.calEncode cal) s = .next (s.ret .absent)) ∧
    (fitsTx s.cfg (2 * bytes.length) = false → exec (.hexEncode bytes) s = .next (s.ret .absent)) ∧
    (∀ a : Option Byte, fitsTx s.cfg (2 * bytes.length + a.toList.length + 2) = false →
      exec (.salFrameText bytes a) s = .next (s.ret .absent)) ∧
    (∀ cal, fitsTx s.cfg (2 * (calEncode cal).length + 2) = false →
      exec (.calFrameText cal) s = .next (s.ret .absent))

/-- R60, R259: while the framer or a `DECODE_FRAME` is in the middle of a ParserState, every other operation on it is
refused, and so is `ADD_MAPPING` in the middle of a lookup; a stepped `DECODE_FRAME` holds its ParserState from its first
step until it ends. That an operation can be stepped, and the name of the refusal, are the model's (log entries 8 and
17). -/
def Obligations.OverlappingCallsAreRefused : Prop :=
  (∀ (s : State) (ps : Nat), (∃ chars cursor, s.unit = .framing ps chars cursor) ∨ s.decoding = some ps →
    exec (.psReset ps) s = .refused .overlappingOperation ∧
    (∀ xs n k, exec (.processChunk ps xs n k) s = .refused .overlappingOperation) ∧
    (∀ f, s.mapFault = false → exec (.decodeFrame ps f) s = .refused .overlappingOperation)) ∧
  (∀ (s : State) (a : Domain) (x : Byte), s.mapFault = false →
    (∃ bytes length, s.unit = .parsing bytes length) ∨ (∃ d bytes stop dpos subs, s.unit = .words d bytes stop dpos subs) →
    exec (.addMapping a x) s = .refused .overlappingOperation) ∧
  (∀ (s t : State) (ps : Nat) (f : Bool) (rest : List Invocation), s.unit = .idle →
    s.pending = { op := .decodeFrame ps f, stepped := true } :: rest → step s = .next t →
    t.decoding = some ps ∨ t.unit = .idle) ∧
  (∀ (s t : State) (ps : Nat), StateInv s → s.decoding = some ps → step s = .next t →
    t.decoding = some ps ∨ t.unit = .idle)

/-- R95, R44: a character row where no framer reads, a header row where no decoder reads a header, and a command word
where its domain's decoder does not stand, are refused. The refusal is the model's (log entry 13). -/
def Obligations.RowsOutsideTheirSpaceAreRefused : Prop :=
  ∀ (s : State) (i : Instr),
    ((charOf s.cfg i).isSome = true → (∀ ps chars cursor, s.unit ≠ .framing ps chars cursor) →
      exec i s = .refused .noUnitReadsThisSpace) ∧
    ((headerByteOf s.cfg i).isSome = true → (∀ b, s.unit ≠ .decodingHeader b) →
      (∀ bytes length, s.unit ≠ .locating bytes length) → (∀ bytes length, s.unit ≠ .parsing bytes length) →
      exec i s = .refused .noUnitReadsThisSpace) ∧
    ((wordBytesOf s.cfg i).isSome = true →
      (∀ d bytes stop dpos subs, i.inSpace (.word d) = true → s.unit ≠ .words d bytes stop dpos subs) →
      exec i s = .refused .noUnitReadsThisSpace)

/-- R30, R101: outside the invariants of R30, where `prev` holds no high nibble, a low nibble has no meaning. The fault
is the model's (log entry 14). -/
def Obligations.LostHighNibbleFaults : Prop :=
  ∀ (s : State) (i : Instr) (c : Byte) (ps : Nat) (chars : List Byte) (cursor : Nat),
    charOf s.cfg i = some c → s.unit = .framing ps chars cursor → (s.parser ps).phase = .expectLowNibble →
    hexval s.cfg (s.parser ps).prev = none → (hexval s.cfg c).isSome = true →
    (s.parser ps).buf.length < s.cfg.cap → exec i s = .fault .parserOutsideInvariants

/-- R44, R260: with no operation in progress and none invoked, the block holds all its state. -/
def Obligations.IdleBlockHoldsItsState : Prop :=
  ∀ (s : State), configLegal s.cfg = true → s.unit = .idle → s.pending = [] → step s = .next s

/-- A step runs the instruction that the decoder reads where the unit stands, or the operation that the host has invoked. R8,
R24 and R25 give the framer a character and the decoder a command word a step; that a header byte is an instruction of its
own (log entry 8), and that the host's invocations stand in the state (log entry 7), is the model's choice. -/
def Obligations.StepRunsTheDecodedInstruction : Prop :=
  ∀ (s : State) (i : Instr), configLegal s.cfg = true →
    (∀ ps chars cursor, s.unit = .framing ps chars cursor → decodeIn s.cfg .character (chars.drop cursor) = .ok i →
      step s = exec i s) ∧
    (∀ b, s.unit = .decodingHeader b → decodeIn s.cfg .header [b] = .ok i → step s = exec i s) ∧
    (∀ bytes length, s.unit = .locating bytes length →
      decodeIn s.cfg .header (bytes.take (length - 1)) = .ok i → step s = exec i s) ∧
    (∀ bytes length, s.unit = .parsing bytes length → s.mapFault = false →
      decodeIn s.cfg .header (bytes.take (length - 1)) = .ok i → step s = exec i s) ∧
    (∀ d bytes stop dpos subs, s.unit = .words d bytes stop dpos subs → dpos < stop →
      decodeIn s.cfg (.word d) ((bytes.take stop).drop dpos) = .ok i → step s = exec i s) ∧
    (∀ rest, s.unit = .idle → s.pending = { op := i, stepped := false } :: rest →
      step s = exec i { s with pending := rest })

/-- R8, R12: an operation run step by step, one character, header byte or command word a step, reaches the state that
the operation run whole reaches. That an operation can be stepped is the model's (log entry 8). -/
def Obligations.SteppedOperationsAgree : Prop :=
  ∀ (s t : State) (op : Instr) (rest : List Invocation), StateInv s → configLegal s.cfg = true → s.unit = .idle →
    s.pending = { op, stepped := true } :: rest → exec op { s with pending := rest } = .next t →
    ∃ n, 0 < n ∧ stepTimes n s = .next t

/-- R30, R35, R51, R183: every step keeps the invariant of the machine. -/
def Obligations.StepKeepsTheInvariant : Prop :=
  ∀ (s t : State), StateInv s → step s = .next t → StateInv t

/-- R30, R42: the invariant holds right after reset. -/
def Obligations.ResetMeetsTheInvariant : Prop := StateInv State.reset

/-- R101: from a state that keeps the invariant, no step ends in a fault. -/
def Obligations.NoStepFaults : Prop :=
  ∀ (s : State) (x : Fault), StateInv s → step s ≠ .fault x

/-- R70, R84, R85, R92, R95: decoding gives back every well-formed instruction from its encoding, in its space, with
anything behind it. -/
def Obligations.DecodeReadsBackEncode : Prop :=
  ∀ (cfg : Config) (sp : Space) (i : Instr) (bytes rest : List Byte),
    configLegal cfg = true → i.wf cfg = true → i.inSpace sp = true → encode cfg i = some bytes →
    decodeIn cfg sp (bytes ++ rest) = .ok i

/-- R71, R72, R84 to R87, R92: words written out from the tables of the spec, at least one of each space, decode to their
instructions. The values of `CH_DIRECT` and of the ids other than ON and EVENT are the default `Config`'s (log entry 2). -/
def Obligations.WrittenWordsDecode : Prop :=
  decodeIn Config.standard .character [0x43] = .ok .hexC ∧
  decodeIn Config.standard .character [0x0D] = .ok .cr ∧
  decodeIn Config.standard .header [0b11111101] = .ok (.hdrNoaddr 3 7) ∧
  decodeIn Config.standard (.word .lighting) [0x79, 0x88] = .ok (.on 0x88) ∧
  decodeIn Config.standard (.word .lighting) [0x0A, 0x88, 0xFF] = .ok (.ramp 0x0A 0x88 0xFF) ∧
  decodeIn Config.standard (.word .trigger) [0x02, 0x25, 0x01] = .ok (.event 0x25 0x01) ∧
  decodeIn Config.standard (.word .trigger) [0xA2, 0x11, 0x22] = .ok (.long 1 2 [0x11, 0x22]) ∧
  decodeIn Config.standard .outByte [0xA3] = .ok .calPrefix ∧
  decodeIn Config.standard .outChar [0x40] = .ok .direct
end

