-- ==== Sys2Proof/Laws/Decoder.lean ====
section
/-! SUPPORT. What the decoder's operations can do: one lemma each for a bounded read, a command word, the decode loop,
and a header byte or a command word when the decoder is stepped. -/

namespace Sys2Proof.Machine

/-- R166: `rd(i)` answers the byte at `i`, inside the bound only. -/
theorem rd_eq_ok (bytes : List Byte) (stop i : Nat) (b : Byte) :
    rd bytes stop i = .ok b ↔ i < stop ∧ bytes[i]? = some b := by
  unfold rd
  by_cases h : i < stop
  · simp only [h, if_true, true_and]
    cases bytes[i]? <;> simp
  · simp [h]

/-- R160: a checked location is the location, and its command region begins at or before its end. -/
theorem checkOffset_eq_ok (stop : Nat) (loc r : Byte × Nat) :
    checkOffset stop loc = .ok r ↔ r = loc ∧ loc.2 ≤ stop := by
  unfold checkOffset
  split <;> rename_i h
  · simp only [Except.ok.injEq, h, and_true]; exact eq_comm
  · simp [h]

/-- R161 to R163: a locally-originated location has a region that begins at or before its end. -/
theorem locateLocal_offset (cfg : Config) (t : AddrType) (bytes : List Byte) (stop : Nat) (loc : Byte × Nat)
    (h : locateLocal cfg t bytes stop = .ok loc) : loc.2 ≤ stop := by
  unfold locateLocal at h
  split at h
  · unfold locateNoAddr at h
    cases h1 : rd bytes stop 1 <;> simp [h1, bind, Except.bind] at h
    exact ((checkOffset_eq_ok _ _ _).mp h).1 ▸ ((checkOffset_eq_ok _ _ _).mp h).2
  · unfold locateTwoByte at h
    cases h1 : rd bytes stop 2 with
    | error => simp [h1, bind, Except.bind] at h
    | ok r =>
      cases h2 : rd bytes stop (3 + routeCount cfg r) <;> simp [h1, h2, bind, Except.bind] at h
      exact ((checkOffset_eq_ok _ _ _).mp h).1 ▸ ((checkOffset_eq_ok _ _ _).mp h).2
  · cases h

/-- R167: a command word lies wholly before the end, and it has at least one byte. -/
theorem wordAt_fits (cfg : Config) (d : Domain) (bytes : List Byte) (stop dpos len : Nat) (sc : Option SubCmd)
    (h : wordAt cfg d bytes stop dpos = .ok (sc, len)) : 1 ≤ len ∧ dpos + len ≤ stop := by
  unfold wordAt at h
  cases h0 : rd bytes stop dpos with
  | error => simp [h0, bind, Except.bind] at h
  | ok id =>
    simp only [h0, bind, Except.bind] at h
    split at h
    · split at h <;> simp at h
      obtain ⟨-, rfl⟩ := h; omega
    · split at h
      · cases h
      · rename_i k hk
        split at h
        · cases h1 : rd bytes stop (dpos + 1) with
          | error => simp [h1] at h
          | ok g =>
            simp only [h1] at h
            split at h
            · cases h2 : rd bytes stop (dpos + 2) <;> simp [h2] at h
              obtain ⟨-, rfl⟩ := h; omega
            · simp at h; obtain ⟨-, rfl⟩ := h; omega
        · cases h

/-- R167: more fuel than there are bytes left changes nothing. -/
theorem decodeSubsLoop_fuel (cfg : Config) (d : Domain) (bytes : List Byte) (stop : Nat) :
    ∀ (f g dpos : Nat), stop - dpos ≤ f → stop - dpos ≤ g →
      decodeSubsLoop cfg d bytes stop f dpos = decodeSubsLoop cfg d bytes stop g dpos := by
  intro f
  induction f with
  | zero =>
    intro g dpos hf _
    have h : stop ≤ dpos := by omega
    cases g <;> simp [decodeSubsLoop, h]
  | succ f ih =>
    intro g dpos hf hg
    by_cases h : stop ≤ dpos
    · cases g <;> simp [decodeSubsLoop, h]
    · obtain ⟨g, rfl⟩ : ∃ n, g = n + 1 := ⟨g - 1, by omega⟩
      simp only [decodeSubsLoop, h, if_false]
      split
      · rfl
      · rename_i sc len hw
        have := wordAt_fits _ _ _ _ _ _ _ hw
        rw [ih g (dpos + len) (by omega) (by omega)]

/-- R167: at the end of the region the decode ends. -/
theorem decodeSubs_end (cfg : Config) (d : Domain) (bytes : List Byte) (dpos stop : Nat) (h : stop ≤ dpos) :
    decodeSubs cfg d bytes dpos stop = .ok [] := by
  simp [decodeSubs, Nat.sub_eq_zero_of_le h, decodeSubsLoop, h]

/-- R167: before the end of the region the decode takes one command word and goes on behind it. -/
theorem decodeSubs_word (cfg : Config) (d : Domain) (bytes : List Byte) (dpos stop : Nat) (h : dpos < stop) :
    decodeSubs cfg d bytes dpos stop =
      match wordAt cfg d bytes stop dpos with
      | .error e => .error e
      | .ok (sc, len) =>
        match decodeSubs cfg d bytes (dpos + len) stop with
        | .error e => .error e
        | .ok rest => .ok (sc.toList ++ rest) := by
  obtain ⟨n, hn⟩ : ∃ n, stop - dpos = n + 1 := ⟨stop - dpos - 1, by omega⟩
  have hs : ¬ stop ≤ dpos := by omega
  unfold decodeSubs
  rw [hn, decodeSubsLoop]
  simp only [hs, if_false]
  cases hw : wordAt cfg d bytes stop dpos with
  | error e => rfl
  | ok x =>
    obtain ⟨sc, len⟩ := x
    have := wordAt_fits _ _ _ _ _ _ _ hw
    dsimp only
    rw [decodeSubsLoop_fuel cfg d bytes stop n (stop - (dpos + len)) (dpos + len) (by omega) (by omega)]
    all_goals cases decodeSubsLoop cfg d bytes stop (stop - (dpos + len)) (dpos + len) <;> rfl

/-- R171 to R179: what a command word can do to the machine when the decoder is stepped. -/
theorem wordStep_next (inDomain : Domain → Bool) (len : Nat) (sc : Option SubCmd) (s t : State)
    (h : wordStep inDomain len sc s = .next t) :
    ∃ d bytes stop dpos subs, s.unit = .words d bytes stop dpos subs ∧ inDomain d = true ∧
      t = if dpos + len ≤ stop then enterWords d bytes stop (dpos + len) (subs ++ sc.toList) s
          else s.failDecode .fTrunc := by
  unfold wordStep at h
  split at h
  · rename_i d bytes stop dpos subs hu
    split at h
    · cases h
    · rename_i hd
      refine ⟨d, bytes, stop, dpos, subs, hu, by simpa using hd, ?_⟩
      split at h <;> rename_i hl <;> cases h <;> simp [hl]
  · cases h

/-- R170: what an unrecognised id can do to the machine when the decoder is stepped. -/
theorem unknownIdStep_next (d : Domain) (s t : State) (h : unknownIdStep d s = .next t) :
    (∃ bytes stop dpos subs, s.unit = .words d bytes stop dpos subs) ∧ t = s.failDecode .fUnknownId := by
  unfold unknownIdStep at h
  split at h
  · rename_i d' bytes stop dpos subs hu
    split at h
    · rename_i hd
      cases h; subst hd
      exact ⟨⟨bytes, stop, dpos, subs, hu⟩, rfl⟩
    · cases h
  · cases h

/-- R151, R161 to R163: what a header byte can do to the machine when the decoder is stepped. -/
theorem headerStep_next (priority : BitVec 2) (ty : AddrType) (s t : State) (h : headerStep priority ty s = .next t) :
    (∃ b, s.unit = .decodingHeader b ∧ t = s.finish (.header { priority, addrType := ty })) ∨
    (∃ bytes length, s.unit = .locating bytes length ∧
      t = s.finish (locatedResult (locateLocal s.cfg ty bytes (length - 1)))) ∨
    (∃ bytes length, s.unit = .parsing bytes length ∧ s.mapFault = false ∧
      ((∃ e, locateLocal s.cfg ty bytes (length - 1) = .error e ∧ t = s.shareMap.failDecode e) ∨
       (∃ loc, locateLocal s.cfg ty bytes (length - 1) = .ok loc ∧
         t = routeTo bytes (length - 1) loc s.shareMap))) := by
  unfold headerStep at h
  split at h
  · rename_i b hu; cases h; exact .inl ⟨b, hu, rfl⟩
  · rename_i bytes length hu; cases h; exact .inr (.inl ⟨bytes, length, hu, rfl⟩)
  · rename_i bytes length hu
    split at h
    · cases h
    · rename_i hm
      refine .inr (.inr ⟨bytes, length, hu, by simpa using hm, ?_⟩)
      split at h
      · rename_i e he; cases h; exact .inl ⟨e, he, rfl⟩
      · rename_i loc hl; cases h; exact .inr ⟨loc, hl, rfl⟩
  · cases h

end Sys2Proof.Machine
end

