-- ==== Sys2Proof/Laws/Encoder.lean ====
section
/-! SUPPORT. What the encoders can do: the length of a hex text, and the two ways an encoder answers. -/

namespace Sys2Proof.Machine

/-- R225: a hex text has two characters a byte. -/
@[simp] theorem hexEncode_length (bytes : List Byte) : (hexEncode bytes).length = 2 * bytes.length := by
  induction bytes with
  | nil => rfl
  | cons b bs ih =>
    rw [hexEncode] at ih ⊢
    rw [List.flatMap_cons, List.length_append, ih, List.length_cons, hexPair]
    simp only [List.length_cons, List.length_nil]
    omega

/-- R53: bytes that fit are produced whole. -/
theorem answerBytes_of_fits {bs : List Byte} {s : State} (h : fitsTx s.cfg bs.length = true) :
    answerBytes bs s = .next (s.produceBytes bs) := if_pos h

/-- R50: bytes that do not fit are answered with `none`. -/
theorem answerBytes_of_not_fits {bs : List Byte} {s : State} (h : fitsTx s.cfg bs.length = false) :
    answerBytes bs s = .next (s.ret .absent) := if_neg (by simp [h])

/-- R53: characters that fit are produced whole. -/
theorem answerText_of_fits {cs : List Byte} {s : State} (h : fitsTx s.cfg cs.length = true) :
    answerText cs s = .next (s.produceText cs) := if_pos h

/-- R50: characters that do not fit are answered with `none`. -/
theorem answerText_of_not_fits {cs : List Byte} {s : State} (h : fitsTx s.cfg cs.length = false) :
    answerText cs s = .next (s.ret .absent) := if_neg (by simp [h])

/-- An encoder of bytes always answers. -/
theorem answerBytes_completes (bs : List Byte) (s : State) : ∃ t, answerBytes bs s = .next t := by
  unfold answerBytes
  split <;> exact ⟨_, rfl⟩

/-- An encoder of characters always answers. -/
theorem answerText_completes (cs : List Byte) (s : State) : ∃ t, answerText cs s = .next t := by
  unfold answerText
  split <;> exact ⟨_, rfl⟩

/-- R50, R53: what an encoder of bytes can do: its output is produced whole, or it does not fit and the answer is `none`. -/
theorem answerBytes_next {bs : List Byte} {s t : State} (h : answerBytes bs s = .next t) :
    (fitsTx s.cfg bs.length = true ∧ t = s.produceBytes bs) ∨ (fitsTx s.cfg bs.length = false ∧ t = s.ret .absent) := by
  unfold answerBytes at h
  split at h <;> rename_i hf <;> cases h
  · exact .inl ⟨hf, rfl⟩
  · exact .inr ⟨by simpa using hf, rfl⟩

/-- R50, R53: what an encoder of characters can do. -/
theorem answerText_next {cs : List Byte} {s t : State} (h : answerText cs s = .next t) :
    (fitsTx s.cfg cs.length = true ∧ t = s.produceText cs) ∨ (fitsTx s.cfg cs.length = false ∧ t = s.ret .absent) := by
  unfold answerText at h
  split at h <;> rename_i hf <;> cases h
  · exact .inl ⟨hf, rfl⟩
  · exact .inr ⟨by simpa using hf, rfl⟩

end Sys2Proof.Machine
end

