-- ==== Sys2Proof/Laws/State.lean ====
section
/-! SUPPORT. One lemma per field per update of the state, and the reads that an update leaves alone: no later proof
unfolds a record update. -/

namespace Sys2Proof.Machine

variable (s : State)

@[simp] theorem State.setParser_cfg (ps : Nat) (p : ParserState) :
    (s.setParser ps p).cfg = s.cfg := rfl
@[simp] theorem State.setParser_parsers (ps : Nat) (p : ParserState) :
    (s.setParser ps p).parsers = memSet ParserState.reset s.parsers ps p := rfl
@[simp] theorem State.setParser_map (ps : Nat) (p : ParserState) :
    (s.setParser ps p).map = s.map := rfl
@[simp] theorem State.setParser_mapFault (ps : Nat) (p : ParserState) :
    (s.setParser ps p).mapFault = s.mapFault := rfl
@[simp] theorem State.setParser_mapShared (ps : Nat) (p : ParserState) :
    (s.setParser ps p).mapShared = s.mapShared := rfl
@[simp] theorem State.setParser_unit (ps : Nat) (p : ParserState) :
    (s.setParser ps p).unit = s.unit := rfl
@[simp] theorem State.setParser_decoding (ps : Nat) (p : ParserState) :
    (s.setParser ps p).decoding = s.decoding := rfl
@[simp] theorem State.setParser_result (ps : Nat) (p : ParserState) :
    (s.setParser ps p).result = s.result := rfl
@[simp] theorem State.setParser_outBytes (ps : Nat) (p : ParserState) :
    (s.setParser ps p).outBytes = s.outBytes := rfl
@[simp] theorem State.setParser_outText (ps : Nat) (p : ParserState) :
    (s.setParser ps p).outText = s.outText := rfl
@[simp] theorem State.setParser_pending (ps : Nat) (p : ParserState) :
    (s.setParser ps p).pending = s.pending := rfl
@[simp] theorem State.setParser_domainAt (ps : Nat) (p : ParserState) (x : Byte) :
    (s.setParser ps p).domainAt x = s.domainAt x := rfl

@[simp] theorem State.bindAddress_cfg (a : Byte) (d : Domain) :
    (s.bindAddress a d).cfg = s.cfg := rfl
@[simp] theorem State.bindAddress_parsers (a : Byte) (d : Domain) :
    (s.bindAddress a d).parsers = s.parsers := rfl
@[simp] theorem State.bindAddress_map (a : Byte) (d : Domain) :
    (s.bindAddress a d).map = memSet none s.map a.toNat (some d) := rfl
@[simp] theorem State.bindAddress_mapFault (a : Byte) (d : Domain) :
    (s.bindAddress a d).mapFault = s.mapFault := rfl
@[simp] theorem State.bindAddress_mapShared (a : Byte) (d : Domain) :
    (s.bindAddress a d).mapShared = s.mapShared := rfl
@[simp] theorem State.bindAddress_unit (a : Byte) (d : Domain) :
    (s.bindAddress a d).unit = s.unit := rfl
@[simp] theorem State.bindAddress_decoding (a : Byte) (d : Domain) :
    (s.bindAddress a d).decoding = s.decoding := rfl
@[simp] theorem State.bindAddress_result (a : Byte) (d : Domain) :
    (s.bindAddress a d).result = s.result := rfl
@[simp] theorem State.bindAddress_outBytes (a : Byte) (d : Domain) :
    (s.bindAddress a d).outBytes = s.outBytes := rfl
@[simp] theorem State.bindAddress_outText (a : Byte) (d : Domain) :
    (s.bindAddress a d).outText = s.outText := rfl
@[simp] theorem State.bindAddress_pending (a : Byte) (d : Domain) :
    (s.bindAddress a d).pending = s.pending := rfl
@[simp] theorem State.bindAddress_parser (a : Byte) (d : Domain) (q : Nat) :
    (s.bindAddress a d).parser q = s.parser q := rfl

@[simp] theorem State.shareMap_cfg :
    (s.shareMap).cfg = s.cfg := rfl
@[simp] theorem State.shareMap_parsers :
    (s.shareMap).parsers = s.parsers := rfl
@[simp] theorem State.shareMap_map :
    (s.shareMap).map = s.map := rfl
@[simp] theorem State.shareMap_mapFault :
    (s.shareMap).mapFault = s.mapFault := rfl
@[simp] theorem State.shareMap_mapShared :
    (s.shareMap).mapShared = true := rfl
@[simp] theorem State.shareMap_unit :
    (s.shareMap).unit = s.unit := rfl
@[simp] theorem State.shareMap_decoding :
    (s.shareMap).decoding = s.decoding := rfl
@[simp] theorem State.shareMap_result :
    (s.shareMap).result = s.result := rfl
@[simp] theorem State.shareMap_outBytes :
    (s.shareMap).outBytes = s.outBytes := rfl
@[simp] theorem State.shareMap_outText :
    (s.shareMap).outText = s.outText := rfl
@[simp] theorem State.shareMap_pending :
    (s.shareMap).pending = s.pending := rfl
@[simp] theorem State.shareMap_parser (q : Nat) :
    (s.shareMap).parser q = s.parser q := rfl
@[simp] theorem State.shareMap_domainAt (x : Byte) :
    (s.shareMap).domainAt x = s.domainAt x := rfl

@[simp] theorem State.ret_cfg (r : Result) :
    (s.ret r).cfg = s.cfg := rfl
@[simp] theorem State.ret_parsers (r : Result) :
    (s.ret r).parsers = s.parsers := rfl
@[simp] theorem State.ret_map (r : Result) :
    (s.ret r).map = s.map := rfl
@[simp] theorem State.ret_mapFault (r : Result) :
    (s.ret r).mapFault = s.mapFault := rfl
@[simp] theorem State.ret_mapShared (r : Result) :
    (s.ret r).mapShared = s.mapShared := rfl
@[simp] theorem State.ret_unit (r : Result) :
    (s.ret r).unit = s.unit := rfl
@[simp] theorem State.ret_decoding (r : Result) :
    (s.ret r).decoding = s.decoding := rfl
@[simp] theorem State.ret_result (r : Result) :
    (s.ret r).result = r := rfl
@[simp] theorem State.ret_outBytes (r : Result) :
    (s.ret r).outBytes = s.outBytes := rfl
@[simp] theorem State.ret_outText (r : Result) :
    (s.ret r).outText = s.outText := rfl
@[simp] theorem State.ret_pending (r : Result) :
    (s.ret r).pending = s.pending := rfl
@[simp] theorem State.ret_parser (r : Result) (q : Nat) :
    (s.ret r).parser q = s.parser q := rfl
@[simp] theorem State.ret_domainAt (r : Result) (x : Byte) :
    (s.ret r).domainAt x = s.domainAt x := rfl

@[simp] theorem State.finish_cfg (r : Result) :
    (s.finish r).cfg = s.cfg := rfl
@[simp] theorem State.finish_parsers (r : Result) :
    (s.finish r).parsers = s.parsers := rfl
@[simp] theorem State.finish_map (r : Result) :
    (s.finish r).map = s.map := rfl
@[simp] theorem State.finish_mapFault (r : Result) :
    (s.finish r).mapFault = s.mapFault := rfl
@[simp] theorem State.finish_mapShared (r : Result) :
    (s.finish r).mapShared = s.mapShared := rfl
@[simp] theorem State.finish_unit (r : Result) :
    (s.finish r).unit = .idle := rfl
@[simp] theorem State.finish_decoding (r : Result) :
    (s.finish r).decoding = none := rfl
@[simp] theorem State.finish_result (r : Result) :
    (s.finish r).result = r := rfl
@[simp] theorem State.finish_outBytes (r : Result) :
    (s.finish r).outBytes = s.outBytes := rfl
@[simp] theorem State.finish_outText (r : Result) :
    (s.finish r).outText = s.outText := rfl
@[simp] theorem State.finish_pending (r : Result) :
    (s.finish r).pending = s.pending := rfl
@[simp] theorem State.finish_parser (r : Result) (q : Nat) :
    (s.finish r).parser q = s.parser q := rfl
@[simp] theorem State.finish_domainAt (r : Result) (x : Byte) :
    (s.finish r).domainAt x = s.domainAt x := rfl

@[simp] theorem State.continueAt_cfg (u : Activity) :
    (s.continueAt u).cfg = s.cfg := rfl
@[simp] theorem State.continueAt_parsers (u : Activity) :
    (s.continueAt u).parsers = s.parsers := rfl
@[simp] theorem State.continueAt_map (u : Activity) :
    (s.continueAt u).map = s.map := rfl
@[simp] theorem State.continueAt_mapFault (u : Activity) :
    (s.continueAt u).mapFault = s.mapFault := rfl
@[simp] theorem State.continueAt_mapShared (u : Activity) :
    (s.continueAt u).mapShared = s.mapShared := rfl
@[simp] theorem State.continueAt_unit (u : Activity) :
    (s.continueAt u).unit = u := rfl
@[simp] theorem State.continueAt_decoding (u : Activity) :
    (s.continueAt u).decoding = s.decoding := rfl
@[simp] theorem State.continueAt_result (u : Activity) :
    (s.continueAt u).result = s.result := rfl
@[simp] theorem State.continueAt_outBytes (u : Activity) :
    (s.continueAt u).outBytes = s.outBytes := rfl
@[simp] theorem State.continueAt_outText (u : Activity) :
    (s.continueAt u).outText = s.outText := rfl
@[simp] theorem State.continueAt_pending (u : Activity) :
    (s.continueAt u).pending = s.pending := rfl
@[simp] theorem State.continueAt_parser (u : Activity) (q : Nat) :
    (s.continueAt u).parser q = s.parser q := rfl
@[simp] theorem State.continueAt_domainAt (u : Activity) (x : Byte) :
    (s.continueAt u).domainAt x = s.domainAt x := rfl

@[simp] theorem State.holdParser_cfg (ps : Nat) :
    (s.holdParser ps).cfg = s.cfg := rfl
@[simp] theorem State.holdParser_parsers (ps : Nat) :
    (s.holdParser ps).parsers = s.parsers := rfl
@[simp] theorem State.holdParser_map (ps : Nat) :
    (s.holdParser ps).map = s.map := rfl
@[simp] theorem State.holdParser_mapFault (ps : Nat) :
    (s.holdParser ps).mapFault = s.mapFault := rfl
@[simp] theorem State.holdParser_mapShared (ps : Nat) :
    (s.holdParser ps).mapShared = s.mapShared := rfl
@[simp] theorem State.holdParser_unit (ps : Nat) :
    (s.holdParser ps).unit = s.unit := rfl
@[simp] theorem State.holdParser_decoding (ps : Nat) :
    (s.holdParser ps).decoding = some ps := rfl
@[simp] theorem State.holdParser_result (ps : Nat) :
    (s.holdParser ps).result = s.result := rfl
@[simp] theorem State.holdParser_outBytes (ps : Nat) :
    (s.holdParser ps).outBytes = s.outBytes := rfl
@[simp] theorem State.holdParser_outText (ps : Nat) :
    (s.holdParser ps).outText = s.outText := rfl
@[simp] theorem State.holdParser_pending (ps : Nat) :
    (s.holdParser ps).pending = s.pending := rfl
@[simp] theorem State.holdParser_parser (ps : Nat) (q : Nat) :
    (s.holdParser ps).parser q = s.parser q := rfl
@[simp] theorem State.holdParser_domainAt (ps : Nat) (x : Byte) :
    (s.holdParser ps).domainAt x = s.domainAt x := rfl

@[simp] theorem State.produceBytes_cfg (bs : List Byte) :
    (s.produceBytes bs).cfg = s.cfg := rfl
@[simp] theorem State.produceBytes_parsers (bs : List Byte) :
    (s.produceBytes bs).parsers = s.parsers := rfl
@[simp] theorem State.produceBytes_map (bs : List Byte) :
    (s.produceBytes bs).map = s.map := rfl
@[simp] theorem State.produceBytes_mapFault (bs : List Byte) :
    (s.produceBytes bs).mapFault = s.mapFault := rfl
@[simp] theorem State.produceBytes_mapShared (bs : List Byte) :
    (s.produceBytes bs).mapShared = s.mapShared := rfl
@[simp] theorem State.produceBytes_unit (bs : List Byte) :
    (s.produceBytes bs).unit = s.unit := rfl
@[simp] theorem State.produceBytes_decoding (bs : List Byte) :
    (s.produceBytes bs).decoding = s.decoding := rfl
@[simp] theorem State.produceBytes_result (bs : List Byte) :
    (s.produceBytes bs).result = .bytes := rfl
@[simp] theorem State.produceBytes_outBytes (bs : List Byte) :
    (s.produceBytes bs).outBytes = bs := rfl
@[simp] theorem State.produceBytes_outText (bs : List Byte) :
    (s.produceBytes bs).outText = s.outText := rfl
@[simp] theorem State.produceBytes_pending (bs : List Byte) :
    (s.produceBytes bs).pending = s.pending := rfl
@[simp] theorem State.produceBytes_parser (bs : List Byte) (q : Nat) :
    (s.produceBytes bs).parser q = s.parser q := rfl
@[simp] theorem State.produceBytes_domainAt (bs : List Byte) (x : Byte) :
    (s.produceBytes bs).domainAt x = s.domainAt x := rfl

@[simp] theorem State.produceText_cfg (cs : List Byte) :
    (s.produceText cs).cfg = s.cfg := rfl
@[simp] theorem State.produceText_parsers (cs : List Byte) :
    (s.produceText cs).parsers = s.parsers := rfl
@[simp] theorem State.produceText_map (cs : List Byte) :
    (s.produceText cs).map = s.map := rfl
@[simp] theorem State.produceText_mapFault (cs : List Byte) :
    (s.produceText cs).mapFault = s.mapFault := rfl
@[simp] theorem State.produceText_mapShared (cs : List Byte) :
    (s.produceText cs).mapShared = s.mapShared := rfl
@[simp] theorem State.produceText_unit (cs : List Byte) :
    (s.produceText cs).unit = s.unit := rfl
@[simp] theorem State.produceText_decoding (cs : List Byte) :
    (s.produceText cs).decoding = s.decoding := rfl
@[simp] theorem State.produceText_result (cs : List Byte) :
    (s.produceText cs).result = .text := rfl
@[simp] theorem State.produceText_outBytes (cs : List Byte) :
    (s.produceText cs).outBytes = s.outBytes := rfl
@[simp] theorem State.produceText_outText (cs : List Byte) :
    (s.produceText cs).outText = cs := rfl
@[simp] theorem State.produceText_pending (cs : List Byte) :
    (s.produceText cs).pending = s.pending := rfl
@[simp] theorem State.produceText_parser (cs : List Byte) (q : Nat) :
    (s.produceText cs).parser q = s.parser q := rfl
@[simp] theorem State.produceText_domainAt (cs : List Byte) (x : Byte) :
    (s.produceText cs).domainAt x = s.domainAt x := rfl

@[simp] theorem State.failDecode_cfg (e : DecodeCause) :
    (s.failDecode e).cfg = s.cfg := rfl
@[simp] theorem State.failDecode_parsers (e : DecodeCause) :
    (s.failDecode e).parsers = s.parsers := rfl
@[simp] theorem State.failDecode_map (e : DecodeCause) :
    (s.failDecode e).map = s.map := rfl
@[simp] theorem State.failDecode_mapFault (e : DecodeCause) :
    (s.failDecode e).mapFault = s.mapFault := rfl
@[simp] theorem State.failDecode_mapShared (e : DecodeCause) :
    (s.failDecode e).mapShared = s.mapShared := rfl
@[simp] theorem State.failDecode_unit (e : DecodeCause) :
    (s.failDecode e).unit = .idle := rfl
@[simp] theorem State.failDecode_decoding (e : DecodeCause) :
    (s.failDecode e).decoding = none := rfl
@[simp] theorem State.failDecode_result (e : DecodeCause) :
    (s.failDecode e).result = .absent := rfl
@[simp] theorem State.failDecode_outBytes (e : DecodeCause) :
    (s.failDecode e).outBytes = s.outBytes := rfl
@[simp] theorem State.failDecode_outText (e : DecodeCause) :
    (s.failDecode e).outText = s.outText := rfl
@[simp] theorem State.failDecode_pending (e : DecodeCause) :
    (s.failDecode e).pending = s.pending := rfl
@[simp] theorem State.failDecode_parser (e : DecodeCause) (q : Nat) :
    (s.failDecode e).parser q = s.parser q := rfl
@[simp] theorem State.failDecode_domainAt (e : DecodeCause) (x : Byte) :
    (s.failDecode e).domainAt x = s.domainAt x := rfl

@[simp] theorem State.raiseConfigFault_cfg :
    (s.raiseConfigFault).cfg = s.cfg := rfl
@[simp] theorem State.raiseConfigFault_parsers :
    (s.raiseConfigFault).parsers = s.parsers := rfl
@[simp] theorem State.raiseConfigFault_map :
    (s.raiseConfigFault).map = s.map := rfl
@[simp] theorem State.raiseConfigFault_mapFault :
    (s.raiseConfigFault).mapFault = true := rfl
@[simp] theorem State.raiseConfigFault_mapShared :
    (s.raiseConfigFault).mapShared = s.mapShared := rfl
@[simp] theorem State.raiseConfigFault_unit :
    (s.raiseConfigFault).unit = s.unit := rfl
@[simp] theorem State.raiseConfigFault_decoding :
    (s.raiseConfigFault).decoding = s.decoding := rfl
@[simp] theorem State.raiseConfigFault_result :
    (s.raiseConfigFault).result = .configFault := rfl
@[simp] theorem State.raiseConfigFault_outBytes :
    (s.raiseConfigFault).outBytes = s.outBytes := rfl
@[simp] theorem State.raiseConfigFault_outText :
    (s.raiseConfigFault).outText = s.outText := rfl
@[simp] theorem State.raiseConfigFault_pending :
    (s.raiseConfigFault).pending = s.pending := rfl
@[simp] theorem State.raiseConfigFault_parser (q : Nat) :
    (s.raiseConfigFault).parser q = s.parser q := rfl
@[simp] theorem State.raiseConfigFault_domainAt (x : Byte) :
    (s.raiseConfigFault).domainAt x = s.domainAt x := rfl

/-- R259: no operation on a ParserState is in progress: the framer is not in the middle of it, nor a `DECODE_FRAME`. -/
theorem State.parserBusy_eq_false (ps : Nat) :
    s.parserBusy ps = false ↔ s.framerHolds ps = false ∧ s.decoding ≠ some ps := by
  simp [State.parserBusy]

/-- R259: an operation on a ParserState is in progress: the framer is in the middle of it, or a `DECODE_FRAME`. -/
theorem State.parserBusy_eq_true (ps : Nat) :
    s.parserBusy ps = true ↔ (∃ chars cursor, s.unit = .framing ps chars cursor) ∨ s.decoding = some ps := by
  unfold State.parserBusy State.framerHolds
  cases s.unit <;> simp

end Sys2Proof.Machine
end

