-- ==== Sys2Proof/Laws/Dispatch.lean ====
section
/-! SUPPORT. What `exec` and `step` do with the instructions the decoder reads, by space. -/

namespace Sys2Proof.Machine

/-- Every character row gives its character to the framer. -/
theorem exec_charOf (i : Instr) (c : Byte) (s : State) (h : charOf s.cfg i = some c) : exec i s = feedChar c s := by
  cases i <;> simp [charOf] at h <;> subst h <;> rfl

/-- R95: what holds of the row of the first match, and of what the later rows give, holds of what a table gives. -/
theorem row_cases {p : Instr → Prop} {c k : Byte} {i j : Instr} {r : Option Instr}
    (h : (if c = k then some i else r) = some j) (h1 : c = k → p i) (h2 : r = some j → p j) : p j := by
  by_cases hc : c = k
  · rw [if_pos hc] at h
    cases h
    exact h1 hc
  · rw [if_neg hc] at h
    exact h2 h

/-- R71, R95: the row of an upper-case hex digit has its character. -/
theorem charOf_upperHexRow (cfg : Config) (c : Byte) (i : Instr) (h : upperHexRow c = some i) :
    charOf cfg i = some c := by
  unfold upperHexRow at h
  iterate 16
    refine row_cases (p := fun i => charOf cfg i = some c) h (fun e => by rw [e]; rfl) (fun h' => ?_)
    clear h
    rename' h' => h
  cases h

/-- R71, R95: the row of a lower-case hex letter has its character. -/
theorem charOf_lowerHexRow (cfg : Config) (c : Byte) (i : Instr) (h : lowerHexRow c = some i) :
    charOf cfg i = some c := by
  unfold lowerHexRow at h
  iterate 6
    refine row_cases (p := fun i => charOf cfg i = some c) h (fun e => by rw [e]; rfl) (fun h' => ?_)
    clear h
    rename' h' => h
  cases h

/-- R72, R95: the row of a special character has its character. -/
theorem charOf_specialRow (cfg : Config) (c : Byte) (i : Instr) (h : specialRow cfg c = some i) :
    charOf cfg i = some c := by
  unfold specialRow at h
  iterate 8
    refine row_cases (p := fun i => charOf cfg i = some c) h (fun e => by rw [e]; rfl) (fun h' => ?_)
    clear h
    rename' h' => h
  cases h

/-- R72: the row of a character has that character. -/
theorem charOf_decodeChar (cfg : Config) (c : Byte) : charOf cfg (decodeChar cfg c) = some c := by
  unfold decodeChar
  split
  · exact charOf_upperHexRow _ _ _ ‹_›
  · split
    · rename_i i h
      split at h
      · exact charOf_lowerHexRow _ _ _ h
      · cases h
    · split
      · exact charOf_specialRow _ _ _ ‹_›
      · cases h : lowerHexRow c with
        | none => rfl
        | some i => exact charOf_lowerHexRow _ _ _ h

/-- A decoded character is given to the framer. -/
theorem exec_decodeChar (c : Byte) (s : State) : exec (decodeChar s.cfg c) s = feedChar c s :=
  exec_charOf _ _ _ (charOf_decodeChar _ _)

/-- A decoded header byte selects its layout by its address type (R151). -/
theorem exec_decodeHeaderByte (h : Byte) (s : State) :
    exec (decodeHeaderByte s.cfg h) s = headerStep (headerPriority h) (addrTypeOf s.cfg (headerCode h)) s := by
  unfold decodeHeaderByte addrTypeOf
  by_cases h1 : headerCode h = atNone
  · simp only [h1, if_true]; rfl
  · by_cases h2 : headerCode h = s.cfg.atTwo
    · have h4 : ¬s.cfg.atTwo = atNone := h2 ▸ h1
      simp only [h2, h4, if_true, if_false]; rfl
    · by_cases h3 : headerCode h = s.cfg.atOne
      · simp only [h1, h2, if_false]; simp only [h3, if_true]; rfl
      · simp only [h1, h2, h3, if_false]; split <;> rfl

/-- Which meaning an instruction that answers a next state has run. -/
inductive ExecNext (s : State) : Instr → State → Prop where
  | character {i t} (c : Byte) (hc : charOf s.cfg i = some c) (h : feedChar c s = .next t) : ExecNext s i t
  | headerByte {i t} (priority : BitVec 2) (ty : AddrType) (hb : (headerByteOf s.cfg i).isSome = true)
      (h : headerStep priority ty s = .next t) : ExecNext s i t
  | commandWord {i t} (inDomain : Domain → Bool) (len : Nat) (sc : Option SubCmd)
      (hw : (wordBytesOf s.cfg i).isSome = true) (h : wordStep inDomain len sc s = .next t) : ExecNext s i t
  | unknownId {i t} (d : Domain) (hi : isUnknownIdRow i = true) (h : unknownIdStep d s = .next t) : ExecNext s i t
  | hwReset {t} (h : execHwReset s = .next t) : ExecNext s .hwReset t
  | psReset {t} (ps : Nat) (h : execPsReset ps s = .next t) : ExecNext s (.psReset ps) t
  | processChunk {t} (ps : Nat) (chars : List Byte) (length cursor : Nat)
      (h : execProcessChunk ps chars length cursor s = .next t) : ExecNext s (.processChunk ps chars length cursor) t
  | tryParse {t} (bytes : List Byte) (length : Nat) (m f : Bool) (h : execTryParse bytes length m f s = .next t) :
      ExecNext s (.tryParse bytes length m f) t
  | decodeFrame {t} (ps : Nat) (f : Bool) (h : execDecodeFrame ps f s = .next t) : ExecNext s (.decodeFrame ps f) t
  | addMapping {t} (d : Domain) (a : Byte) (h : execAddMapping d a s = .next t) : ExecNext s (.addMapping d a) t
  /-- The pure operations and the outbound rows: only the result and the output buffers change. -/
  | pureResult {i} (r : Result) (hi : encode s.cfg i = outboundOf s.cfg i >>= fun b => some [b])
      (hr : ∀ c, r ≠ .sal c) : ExecNext s i (s.ret r)
  | pureBytes {i} (bs : List Byte) (hi : encode s.cfg i = outboundOf s.cfg i >>= fun b => some [b]) :
      ExecNext s i (s.produceBytes bs)
  | pureText {i} (cs : List Byte) (hi : encode s.cfg i = outboundOf s.cfg i >>= fun b => some [b]) :
      ExecNext s i (s.produceText cs)

/-- An encoder of bytes is a pure operation. -/
theorem ExecNext.ofBytes {s t : State} {i : Instr} {bs : List Byte}
    (hi : encode s.cfg i = outboundOf s.cfg i >>= fun b => some [b]) (h : answerBytes bs s = .next t) :
    ExecNext s i t := by
  rcases answerBytes_next h with ⟨-, rfl⟩ | ⟨-, rfl⟩
  · exact .pureBytes _ hi
  · exact .pureResult _ hi (by simp)

/-- An encoder of characters is a pure operation. -/
theorem ExecNext.ofText {s t : State} {i : Instr} {cs : List Byte}
    (hi : encode s.cfg i = outboundOf s.cfg i >>= fun b => some [b]) (h : answerText cs s = .next t) :
    ExecNext s i t := by
  rcases answerText_next h with ⟨-, rfl⟩ | ⟨-, rfl⟩
  · exact .pureText _ hi
  · exact .pureResult _ hi (by simp)

/-- What `exec` can do: every next state comes from one of the meanings. -/
theorem exec_next (i : Instr) (s t : State) (h : exec i s = .next t) : ExecNext s i t := by
  cases hc : charOf s.cfg i with
  | some c => exact .character c hc (exec_charOf i c s hc ▸ h)
  | none =>
    cases i
    case hdrNoaddr => exact .headerByte _ _ rfl h
    case hdrTwobyte => exact .headerByte _ _ rfl h
    case hdrOnebyte => exact .headerByte _ _ rfl h
    case hdrUnrecognised0 => exact .headerByte _ _ rfl h
    case hdrUnrecognised1 => exact .headerByte _ _ rfl h
    case hdrUnrecognised2 => exact .headerByte _ _ rfl h
    case hdrUnrecognised4 => exact .headerByte _ _ rfl h
    case hdrUnrecognised7 => exact .headerByte _ _ rfl h
    case long => exact .commandWord _ _ _ rfl h
    case on => exact .commandWord _ _ _ rfl h
    case off => exact .commandWord _ _ _ rfl h
    case terminate => exact .commandWord _ _ _ rfl h
    case ramp => exact .commandWord _ _ _ rfl h
    case event => exact .commandWord _ _ _ rfl h
    case min => exact .commandWord _ _ _ rfl h
    case max => exact .commandWord _ _ _ rfl h
    case kill => exact .commandWord _ _ _ rfl h
    case lightUnknown => exact .unknownId _ rfl h
    case trigUnknown => exact .unknownId _ rfl h
    case calPrefix => exact .ofBytes rfl h
    case reservedZero => exact .ofBytes rfl h
    case direct => exact .ofText rfl h
    case reset => exact .ofText rfl h
    case stxOut => exact .ofText rfl h
    case crOut => exact .ofText rfl h
    case hwReset => exact .hwReset h
    case psReset => exact .psReset _ h
    case processChunk => exact .processChunk _ _ _ _ h
    case tryParse => exact .tryParse _ _ _ _ h
    case decodeFrame => exact .decodeFrame _ _ h
    case addMapping => exact .addMapping _ _ h
    case checksum bytes length =>
      have h' : execChecksum bytes length s = .next t := h
      unfold execChecksum at h'
      split at h' <;> cases h'
      exact .pureResult _ rfl (by simp)
    case locateApp bytes length m f =>
      have h' : execLocateApp bytes length m f s = .next t := h
      unfold execLocateApp at h'
      split at h' <;> cases h'
      exact .pureResult _ rfl (fun c => by unfold locatedResult; split <;> simp)
    case hdrEncode => cases h; exact .pureResult _ rfl (by simp)
    case hdrDecode => cases h; exact .pureResult _ rfl (by simp)
    case salEncode d p a subs =>
      have h' : execSalEncode d p a subs s = .next t := h
      unfold execSalEncode at h'
      split at h'
      · cases h'
        exact .pureResult _ rfl (by simp)
      · exact .ofBytes rfl h'
    case calEncode => exact .ofBytes rfl h
    case resetEncode => exact .ofText rfl h
    case hexEncode => exact .ofText rfl h
    case salFrameText => exact .ofText rfl h
    case calFrameText => exact .ofText rfl h
    all_goals cases hc

/-- Under a legal `Config` a step executes what it fetches. -/
theorem step_of_fetch_run (s t : State) (i : Instr) (hc : configLegal s.cfg = true) (h : fetchNext s = .run i t) :
    step s = exec i t := by
  simp [step, fetch, h, underLegal, hc]

/-- Under a legal `Config` a step that finds no instruction leaves what the fetch leaves. -/
theorem step_of_fetch_settle (s t : State) (hc : configLegal s.cfg = true) (h : fetchNext s = .settle t) :
    step s = .next t := by
  simp [step, fetch, h, underLegal, hc]

/-- A step that answers a next state ran under a legal `Config`. -/
theorem configLegal_of_step (s t : State) (h : step s = .next t) : configLegal s.cfg = true := by
  by_contra hc
  simp only [step, fetch] at h
  cases hf : fetchNext s <;> simp [hf, underLegal, hc] at h

end Sys2Proof.Machine
end

