-- ==== Sys2Proof/Laws/Framer.lean ====
section
/-! SUPPORT. What the framer's operations can do: one lemma each for `Step`, one turn of the chunk loop, the loop, and a
character of it when the framer is stepped. -/

namespace Sys2Proof.Machine

/-- R101: `Step` answers a ParserState wherever `prev` is hex-valid in phase ExpectLowNibble (R30 (i)). -/
theorem framerStep_isSome (cfg : Config) (p : ParserState) (c : Byte)
    (h : p.phase = .expectLowNibble → hexValid cfg p.prev = true) : (framerStep cfg p c).isSome = true := by
  have hu : phaseRule cfg p c ≠ .undefined := by
    unfold phaseRule
    split
    · unfold phaseIdle; split <;> simp
    · unfold phaseIdle; split <;> simp
    · unfold phaseStxFound; split <;> simp
    · unfold phaseAckPending; repeat (split; · simp)
      simp
    · unfold phaseExpectHigh; repeat (split; · simp)
      simp
    · rename_i hp
      obtain ⟨v, hv⟩ := Option.isSome_iff_exists.mp (h hp)
      unfold phaseExpectLow
      split
      · simp
      · split <;> simp [hv]
  unfold framerStep
  split <;> simp_all

/-- R105: after a `Step`, `prev` is the character just consumed. -/
theorem framerStep_prev (cfg : Config) (p q : ParserState) (c : Byte) (h : framerStep cfg p c = some q) :
    q.prev = c := by
  unfold framerStep at h
  split at h <;> simp_all <;> subst h <;> rfl

/-- R113, R115: what one turn of the chunk loop can do: it goes on behind the character, it returns true behind
it, or it returns true behind the secondary terminator that the peek consumed. -/
theorem consumeChar_cases (cfg : Config) (chars : List Byte) (cursor k : Nat) (p q : ParserState) (c : Byte) (done : Bool)
    (h : consumeChar cfg chars cursor p c = some (q, k, done)) :
    (framerStep cfg p c = some q ∧ k = cursor + 1 ∧ done = false ∧ q.cls.terminal = false) ∨
    (framerStep cfg p c = some q ∧ k = cursor + 1 ∧ done = true ∧ q.cls.terminal = true ∧
      (q.cls = .salReceived → chars[cursor + 1]? ≠ some chLf)) ∨
    (∃ r, framerStep cfg p c = some r ∧ r.cls = .salReceived ∧ chars[cursor + 1]? = some chLf ∧
      q = { r with cls := .monitoredSalReceived, prev := chLf } ∧ k = cursor + 2 ∧ done = true) := by
  unfold consumeChar at h
  split at h
  · cases h
  · rename_i r hr
    split at h
    · split at h
      · rename_i hp
        simp only [Option.some.injEq, Prod.mk.injEq] at h
        exact .inr (.inr ⟨r, hr, hp.1, hp.2, h.1.symm, h.2.1.symm, h.2.2.symm⟩)
      · rename_i ht hp
        simp only [Option.some.injEq, Prod.mk.injEq] at h
        obtain ⟨rfl, rfl, rfl⟩ := h
        exact .inr (.inl ⟨hr, rfl, rfl, ht, fun hs hl => hp ⟨hs, hl⟩⟩)
    · rename_i ht
      simp only [Option.some.injEq, Prod.mk.injEq] at h
      obtain ⟨rfl, rfl, rfl⟩ := h
      exact .inl ⟨hr, rfl, rfl, by simpa using ht⟩

/-- R113: at the end of the chunk the call returns false and consumes nothing. -/
theorem processChunk_end (cfg : Config) (chars : List Byte) (cursor : Nat) (p : ParserState)
    (h : chars.length ≤ cursor) : processChunk cfg chars cursor p = some (false, cursor, p) := by
  simp [processChunk, Nat.sub_eq_zero_of_le h, chunkLoop]

/-- R113: before the end of the chunk the call takes one turn of the loop and, unless that returned, goes on. -/
theorem processChunk_turn (cfg : Config) (chars : List Byte) (cursor : Nat) (p : ParserState) (h : cursor < chars.length) :
    processChunk cfg chars cursor p =
      match consumeChar cfg chars cursor p chars[cursor] with
      | none => none
      | some (q, k, true) => some (true, k, q)
      | some (q, k, false) => processChunk cfg chars k q := by
  obtain ⟨n, hn⟩ : ∃ n, chars.length - cursor = n + 1 := ⟨chars.length - cursor - 1, by omega⟩
  have hk : chars.length - (cursor + 1) = n := by omega
  unfold processChunk
  rw [hn, chunkLoop, List.getElem?_eq_getElem h]
  dsimp only
  cases hq : consumeChar cfg chars cursor p chars[cursor] with
  | none => rfl
  | some x =>
    obtain ⟨q, k, done⟩ := x
    cases done with
    | true => rfl
    | false =>
      rcases consumeChar_cases _ _ _ _ _ _ _ _ hq with ⟨-, rfl, -, -⟩ | ⟨-, -, hd, -⟩ | ⟨_, -, -, -, -, -, hd⟩
      · simp only [hk]
      · cases hd
      · cases hd

/-- R8, R113: what consuming a character can do to the machine when the framer is stepped. -/
theorem feedChar_next (c : Byte) (s t : State) (h : feedChar c s = .next t) :
    ∃ ps chars cursor q k done, s.unit = .framing ps chars cursor ∧
      consumeChar s.cfg chars cursor (s.parser ps) c = some (q, k, done) ∧
      t = if done = true ∨ chars.length ≤ k then (s.setParser ps q).finish (.chunk done k)
          else (s.setParser ps q).continueAt (.framing ps chars k) := by
  unfold feedChar at h
  split at h
  · rename_i ps chars cursor hu
    split at h
    · cases h
    · rename_i q k done hq
      refine ⟨ps, chars, cursor, q, k, done, hu, hq, ?_⟩
      split at h <;> rename_i hd <;> cases h <;> simp [hd]
  · cases h

/-- R113: the framer, stepped, goes on behind a character that reaches no terminal classification. -/
theorem feedChar_moved (s : State) (c : Byte) (ps : Nat) (chars : List Byte) (cursor : Nat) (q : ParserState)
    (hu : s.unit = .framing ps chars cursor) (hs : framerStep s.cfg (s.parser ps) c = some q)
    (hq : q.cls.terminal = false) : feedChar c s = .next (s.framerMoved ps q chars (cursor + 1)) := by
  simp only [feedChar, hu, consumeChar, hs, hq, State.framerMoved]
  by_cases h : chars.length ≤ cursor + 1 <;> simp [h]

/-- R113, R115: the framer, stepped, returns behind a character that reaches a terminal classification. -/
theorem feedChar_returned (s : State) (c : Byte) (ps : Nat) (chars : List Byte) (cursor : Nat) (q : ParserState)
    (hu : s.unit = .framing ps chars cursor) (hs : framerStep s.cfg (s.parser ps) c = some q)
    (hq : q.cls.terminal = true) (hp : ¬(q.cls = .salReceived ∧ chars[cursor + 1]? = some chLf)) :
    feedChar c s = .next (s.framerReturned ps q (cursor + 1)) := by
  simp only [feedChar, hu, consumeChar, hs, hq, State.framerReturned, if_true, if_neg hp]
  simp

/-- R115: the framer, stepped, takes a secondary terminator with the primary one. -/
theorem feedChar_upgraded (s : State) (c : Byte) (ps : Nat) (chars : List Byte) (cursor : Nat) (q : ParserState)
    (hu : s.unit = .framing ps chars cursor) (hs : framerStep s.cfg (s.parser ps) c = some q)
    (hq : q.cls = .salReceived) (hp : chars[cursor + 1]? = some chLf) :
    feedChar c s = .next (s.framerReturned ps { q with cls := .monitoredSalReceived, prev := chLf } (cursor + 2)) := by
  simp [feedChar, hu, consumeChar, hs, hq, State.framerReturned, hp, Cls.terminal]

/-- R102: phase Idle or Complete, by the value of the character. -/
theorem phaseIdle_eq (cfg : Config) (p : ParserState) (c : Byte) :
    phaseIdle cfg p c = .go { restart p with
      phase := if c = cfg.chStx then .stxFound
               else if (hexval cfg c).isSome = true then .expectLowNibble else .ackPending } := by
  simp only [phaseIdle, classify]
  by_cases h0 : c = cfg.chStx
  · simp [h0]
  · cases h : hexval cfg c with
    | some v => simp [h0]
    | none => by_cases h2 : c = chCr <;> simp [h2] <;> simp_all

end Sys2Proof.Machine
end

