-- ==== Sys2Proof/Laws/Memory.lean ====
section
/-! SUPPORT. The laws of the sparse stores: read after write, a write leaves every other index alone, and every
write keeps the canonical form. -/

namespace Sys2Proof.Machine

variable {α : Type} [DecidableEq α]

/-- R52, R201: a read after a write to the same index gives the value written (in any list). -/
theorem memGet_memSet_same (d : α) (m : List (Nat × α)) (i : Nat) (v : α) : memGet d (memSet d m i v) i = v := by
  induction m with
  | nil => by_cases h : v = d <;> simp [memSet, memGet, h]
  | cons e m ih =>
    obtain ⟨k, w⟩ := e
    by_cases h1 : i < k
    · by_cases h : v = d <;> simp [memSet, memGet, h1, h]
    · by_cases h2 : i = k
      · by_cases h : v = d
        · subst h2 h; simpa [memSet] using ih
        · simp [memSet, memGet, h2, h]
      · simp [memSet, memGet, h1, h2, ih]

omit [DecidableEq α] in
/-- An index below every listed one reads as unlisted. -/
theorem memGet_of_lt (d : α) (m : List (Nat × α)) (i : Nat) (h : ∀ e ∈ m, i < e.1) : memGet d m i = d := by
  cases m with
  | nil => rfl
  | cons e m => obtain ⟨k, w⟩ := e; simp [memGet, h (k, w) (by simp)]

/-- The entries of a written store are old ones, or the one written. -/
theorem mem_memSet (d : α) (m : List (Nat × α)) (i : Nat) (v : α) :
    ∀ e ∈ memSet d m i v, e ∈ m ∨ (e = (i, v) ∧ v ≠ d) := by
  induction m with
  | nil => intro e; by_cases h : v = d <;> simp [memSet, h]
  | cons x m ih =>
    obtain ⟨k, w⟩ := x
    intro e he
    unfold memSet at he
    split at he
    · split at he <;> simp_all
      rcases he with h | h | h <;> simp_all
    · split at he
      · split at he
        · rcases ih e he with h | h <;> simp_all
        · simp at he; rcases he with h | h <;> simp_all
      · simp at he
        rcases he with h | h
        · simp [h]
        · rcases ih e h with h | h <;> simp_all

/-- Every write keeps the canonical form. -/
theorem memSet_wf (d : α) (m : List (Nat × α)) (i : Nat) (v : α) (h : Memory.wf d m) :
    Memory.wf d (memSet d m i v) := by
  induction m with
  | nil => by_cases hv : v = d <;> simp [memSet, hv, Memory.wf]
  | cons x m ih =>
    obtain ⟨k, w⟩ := x
    obtain ⟨hp, hd⟩ := h
    have hp' := List.pairwise_cons.mp hp
    have hm : Memory.wf d m := ⟨hp'.2, fun e he => hd e (by simp [he])⟩
    unfold memSet
    split
    · rename_i hik
      split
      · exact ⟨hp, hd⟩
      · rename_i hv
        refine ⟨List.pairwise_cons.mpr ⟨?_, hp⟩, ?_⟩
        · intro e he
          rcases List.mem_cons.mp he with rfl | he
          · exact hik
          · exact lt_trans hik (hp'.1 e he)
        · intro e he
          rcases List.mem_cons.mp he with rfl | he
          · exact hv
          · exact hd e he
    · split
      · split
        · exact ih hm
        · rename_i _ hik hv
          subst hik
          refine ⟨List.pairwise_cons.mpr ⟨fun e he => hp'.1 e he, hp'.2⟩, ?_⟩
          intro e he
          rcases List.mem_cons.mp he with rfl | he
          · exact hv
          · exact hd e (by simp [he])
      · rename_i h1 h2
        refine ⟨List.pairwise_cons.mpr ⟨?_, (ih hm).1⟩, ?_⟩
        · intro e he
          rcases mem_memSet d m i v e he with h | ⟨rfl, -⟩
          · exact hp'.1 e h
          · show k < i; omega
        · intro e he
          rcases List.mem_cons.mp he with rfl | he
          · exact hd _ (by simp)
          · exact (ih hm).2 e he

/-- In a canonical store a write leaves every other index alone. -/
theorem memGet_memSet_other (d : α) (m : List (Nat × α)) (i j : Nat) (v : α) (h : Memory.wf d m) (hij : j ≠ i) :
    memGet d (memSet d m i v) j = memGet d m j := by
  induction m with
  | nil => by_cases hv : v = d <;> simp [memSet, memGet, hv, hij]
  | cons x m ih =>
    obtain ⟨k, w⟩ := x
    have hp' := List.pairwise_cons.mp h.1
    have hm : Memory.wf d m := ⟨hp'.2, fun e he => h.2 e (by simp [he])⟩
    have ih := ih hm
    unfold memSet
    split
    · rename_i hik
      split
      · rfl
      · by_cases hj : j < i
        · have : j < k := by omega
          simp [memGet, hj, this]
        · simp [memGet, hj, hij]
    · split
      · rename_i _ hik
        subst hik
        split
        · rw [ih]
          by_cases hj : j < i
          · rw [memGet_of_lt d m j (fun e he => lt_trans hj (hp'.1 e he))]; simp [memGet, hj]
          · simp [memGet, hj, hij]
        · simp [memGet, hij]
      · by_cases hj : j < k
        · simp [memGet, hj]
        · by_cases hk : j = k <;> simp [memGet, hj, hk, ih]

omit [DecidableEq α] in
/-- What a store reads as is an entry's value, or the value of unlisted indices. -/
theorem memGet_mem (d : α) (m : List (Nat × α)) (i : Nat) : memGet d m i = d ∨ (i, memGet d m i) ∈ m := by
  induction m with
  | nil => simp [memGet]
  | cons x m ih =>
    obtain ⟨k, w⟩ := x
    unfold memGet
    split
    · simp
    · split
      · rename_i h; simp [h]
      · rcases ih with h | h
        · exact .inl h
        · exact .inr (List.mem_cons_of_mem _ h)

/-- Canonical stores that read alike at every index are equal data. -/
theorem memory_ext (d : α) : ∀ (m n : List (Nat × α)), Memory.wf d m → Memory.wf d n →
    (∀ i, memGet d m i = memGet d n i) → m = n := by
  intro m
  induction m with
  | nil =>
    intro n _ hn h
    cases n with
    | nil => rfl
    | cons e n =>
      have he := h e.1
      simp [memGet] at he
      exact absurd he.symm (hn.2 e (by simp))
  | cons e m ih =>
    intro n hm hn h
    have hm1 := List.pairwise_cons.mp hm.1
    cases n with
    | nil =>
      have he := h e.1
      simp [memGet] at he
      exact absurd he (hm.2 e (by simp))
    | cons x n =>
      obtain ⟨k, v⟩ := e
      obtain ⟨l, w⟩ := x
      have hn1 := List.pairwise_cons.mp hn.1
      have hkl : k = l := by
        rcases Nat.lt_trichotomy k l with hlt | heq | hgt
        · have hk := h k
          simp [memGet, hlt] at hk
          exact absurd hk (hm.2 (k, v) (by simp))
        · exact heq
        · have hl := h l
          simp [memGet, hgt] at hl
          exact absurd hl.symm (hn.2 (l, w) (by simp))
      subst hkl
      have hv : v = w := by have hk := h k; simpa [memGet] using hk
      subst hv
      congr 1
      refine ih n ⟨hm1.2, fun e he => hm.2 e (by simp [he])⟩ ⟨hn1.2, fun e he => hn.2 e (by simp [he])⟩ fun i => ?_
      by_cases hi : i ≤ k
      · rw [memGet_of_lt d m i fun e he => lt_of_le_of_lt hi (hm1.1 e he),
          memGet_of_lt d n i fun e he => lt_of_le_of_lt hi (hn1.1 e he)]
      · have h1 : ¬i < k := by omega
        have h2 : ¬i = k := by omega
        simpa [memGet, h1, h2] using h i

/-- In a canonical store the last write to an index stands. -/
theorem memSet_memSet (d : α) (m : List (Nat × α)) (i : Nat) (a b : α) (h : Memory.wf d m) :
    memSet d (memSet d m i a) i b = memSet d m i b := by
  have hw := memSet_wf d m i a h
  refine memory_ext d _ _ (memSet_wf _ _ _ _ hw) (memSet_wf _ _ _ _ h) fun j => ?_
  by_cases hj : j = i
  · rw [hj, memGet_memSet_same, memGet_memSet_same]
  · rw [memGet_memSet_other _ _ _ _ _ hw hj, memGet_memSet_other _ _ _ _ _ h hj, memGet_memSet_other _ _ _ _ _ h hj]

/-- In a canonical store writing back what is read changes nothing. -/
theorem memSet_self (d : α) (m : List (Nat × α)) (i : Nat) (h : Memory.wf d m) : memSet d m i (memGet d m i) = m := by
  refine memory_ext d _ _ (memSet_wf _ _ _ _ h) h fun j => ?_
  by_cases hj : j = i
  · rw [hj, memGet_memSet_same]
  · rw [memGet_memSet_other _ _ _ _ _ h hj]

/-- In a canonical store writes to different indices commute. -/
theorem memSet_comm (d : α) (m : List (Nat × α)) (i j : Nat) (a b : α) (h : Memory.wf d m) (hij : i ≠ j) :
    memSet d (memSet d m i a) j b = memSet d (memSet d m j b) i a := by
  have w1 := memSet_wf d m i a h
  have w2 := memSet_wf d m j b h
  refine memory_ext d _ _ (memSet_wf _ _ _ _ w1) (memSet_wf _ _ _ _ w2) fun k => ?_
  by_cases hi : k = i
  · rw [hi, memGet_memSet_other _ _ _ _ _ w1 hij, memGet_memSet_same, memGet_memSet_same]
  · by_cases hj : k = j
    · rw [hj, memGet_memSet_other _ _ _ _ _ w2 hij.symm, memGet_memSet_same, memGet_memSet_same]
    · rw [memGet_memSet_other _ _ _ _ _ w1 hj, memGet_memSet_other _ _ _ _ _ w2 hi,
        memGet_memSet_other _ _ _ _ _ h hj, memGet_memSet_other _ _ _ _ _ h hi]

/-! ### The two stores of the machine -/

/-- A ParserState reads as it was last written. -/
@[simp] theorem State.parser_setParser (s : State) (ps : Nat) (p : ParserState) : (s.setParser ps p).parser ps = p :=
  memGet_memSet_same _ _ _ _

/-- Writing one ParserState leaves every other alone (R64). -/
theorem State.parser_setParser_other (s : State) (ps q : Nat) (p : ParserState)
    (h : Memory.wf ParserState.reset s.parsers) (hq : q ≠ ps) : (s.setParser ps p).parser q = s.parser q :=
  memGet_memSet_other _ _ _ _ _ h hq

/-- The last value written to a ParserState stands. -/
theorem State.setParser_setParser (s : State) (ps : Nat) (p q : ParserState)
    (h : Memory.wf ParserState.reset s.parsers) : (s.setParser ps p).setParser ps q = s.setParser ps q := by
  simp [State.setParser, memSet_memSet _ _ _ _ _ h]

/-- Writing back a ParserState as it reads changes nothing. -/
theorem State.setParser_parser (s : State) (ps : Nat) (h : Memory.wf ParserState.reset s.parsers) :
    s.setParser ps (s.parser ps) = s := by
  simp [State.setParser, State.parser, memSet_self _ _ _ h]

/-- A bound address reads as bound (R201). -/
@[simp] theorem State.domainAt_bindAddress (s : State) (a : Byte) (d : Domain) :
    (s.bindAddress a d).domainAt a = some d :=
  memGet_memSet_same _ _ _ _

/-- Binding one address leaves every other alone (R201). -/
theorem State.domainAt_bindAddress_other (s : State) (a x : Byte) (d : Domain)
    (h : Memory.wf none s.map) (hx : x ≠ a) : (s.bindAddress a d).domainAt x = s.domainAt x :=
  memGet_memSet_other _ _ _ _ _ h (fun e => hx (BitVec.eq_of_toNat_eq e))

end Sys2Proof.Machine
end

