-- ==== Sys2Proof/Laws/Operations.lean ====
section
/-! SUPPORT. What the host operations can do, one lemma each, the parts of the state that a unit's step leaves alone, and
what a step can do. -/

namespace Sys2Proof.Machine

/-! ### Host operations -/

/-- R43: what `PS_RESET` does when it answers. -/
theorem execPsReset_next {ps : Nat} {s t : State} (h : execPsReset ps s = .next t) :
    s.parserBusy ps = false ∧ t = (s.setParser ps (resetParser (s.parser ps))).ret .done := by
  unfold execPsReset at h
  split at h
  · cases h
  · rename_i hh
    cases h
    exact ⟨by simpa using hh, rfl⟩

/-- R113: a call of `PROCESS_CHUNK` that is not refused is legal. -/
theorem chunkCallLegal_of_not_refused {s : State} {ps : Nat} {chars : List Byte} {length cursor : Nat}
    (h : chunkRefusal ps chars length cursor s = none) : ChunkCallLegal s ps chars length cursor := by
  unfold chunkRefusal at h
  split_ifs at h with h1 h2 h3 h4
  exact ⟨by simpa using h1, by omega, by simpa using h4, by omega⟩

/-- R113: a legal call of `PROCESS_CHUNK` is not refused. -/
theorem not_refused_of_chunkCallLegal {s : State} {ps : Nat} {chars : List Byte} {length cursor : Nat}
    (h : ChunkCallLegal s ps chars length cursor) : chunkRefusal ps chars length cursor s = none := by
  obtain ⟨h1, h2, h3, h4⟩ := h
  simp [chunkRefusal, h1, h3, Nat.not_lt.mpr h2, Nat.not_lt.mpr h4]

/-- R113: what `PROCESS_CHUNK` does when it answers. -/
theorem execProcessChunk_next {ps : Nat} {chars : List Byte} {length cursor : Nat} {s t : State}
    (h : execProcessChunk ps chars length cursor s = .next t) :
    ChunkCallLegal s ps chars length cursor ∧ ∃ d k q,
      processChunk s.cfg (chars.take length) cursor (s.parser ps) = some (d, k, q) ∧
      t = (s.setParser ps q).ret (.chunk d k) := by
  unfold execProcessChunk at h
  split at h
  · cases h
  · rename_i hr
    refine ⟨chunkCallLegal_of_not_refused hr, ?_⟩
    split at h
    · cases h
    · rename_i d k q hq
      cases h
      exact ⟨d, k, q, hq, rfl⟩

/-- R204: what `TRY_PARSE` does when it answers. -/
theorem execTryParse_next {bytes : List Byte} {length : Nat} {m f : Bool} {s t : State}
    (h : execTryParse bytes length m f s = .next t) :
    s.mapFault = false ∧ length ≤ bytes.length ∧ t = lookupBytes bytes length m f s := by
  unfold execTryParse parseRefusal at h
  split at h
  · cases h
  · rename_i hr
    cases h
    split_ifs at hr with h1 h2
    exact ⟨by simpa using h1, by omega, rfl⟩

/-- R206: what `DECODE_FRAME` does when it answers. -/
theorem execDecodeFrame_next {ps : Nat} {f : Bool} {s t : State} (h : execDecodeFrame ps f s = .next t) :
    s.mapFault = false ∧ s.parserBusy ps = false ∧ (s.parser ps).cls.hasFrame = true ∧
    t = lookupBytes (s.parser ps).buf (s.parser ps).len (s.parser ps).monitored f s := by
  unfold execDecodeFrame frameRefusal at h
  split at h
  · cases h
  · rename_i hr
    cases h
    split_ifs at hr with h1 h2 h3
    exact ⟨by simpa using h1, by simpa using h2, h3, rfl⟩

/-- R201 to R203: what `ADD_MAPPING` does when it answers. -/
theorem execAddMapping_next {d : Domain} {a : Byte} {s t : State} (h : execAddMapping d a s = .next t) :
    s.mapFault = false ∧ s.routerBusy = false ∧ s.mapShared = false ∧
    ((s.domainAt a = none ∧ t = (s.bindAddress a d).ret .ok) ∨ (s.domainAt a = some d ∧ t = s.ret .ok) ∨
     (∃ e, e ≠ d ∧ s.domainAt a = some e ∧ t = s.raiseConfigFault)) := by
  unfold execAddMapping at h
  split_ifs at h with h1 h2 h3
  refine ⟨by simpa using h1, by simpa using h2, by simpa using h3, ?_⟩
  split at h
  · cases h
    exact .inl ⟨‹_›, rfl⟩
  · rename_i e he
    split at h
    · rename_i hd
      cases h
      subst hd
      exact .inr (.inl ⟨he, rfl⟩)
    · rename_i hd
      cases h
      exact .inr (.inr ⟨e, hd, he, rfl⟩)

/-! ### What a unit's step leaves alone -/

/-- R151, R161 to R163: a header byte writes no ParserState, no binding and no invocation. -/
theorem headerStep_frame {p : BitVec 2} {ty : AddrType} {s t : State} (h : headerStep p ty s = .next t) :
    t.cfg = s.cfg ∧ t.parsers = s.parsers ∧ t.map = s.map ∧ t.mapFault = s.mapFault ∧
    (s.mapShared = true → t.mapShared = true) ∧ t.pending = s.pending := by
  rcases headerStep_next _ _ _ _ h with ⟨b, -, rfl⟩ | ⟨b, l, -, rfl⟩ | ⟨b, l, -, -, ⟨e, -, rfl⟩ | ⟨loc, -, rfl⟩⟩
  · simp
  · simp
  · simp
  · unfold routeTo
    split
    · simp
    · unfold enterWords
      split <;> simp

/-- R167: going on in a command region changes only the position and the result. -/
theorem enterWords_frame (d : Domain) (bytes : List Byte) (stop dpos : Nat) (subs : List SubCmd) (s : State) :
    let t := enterWords d bytes stop dpos subs s
    t.cfg = s.cfg ∧ t.parsers = s.parsers ∧ t.map = s.map ∧ t.mapFault = s.mapFault ∧ t.mapShared = s.mapShared ∧
    t.pending = s.pending := by
  unfold enterWords
  dsimp only
  split <;> simp

/-- R171 to R179: a command word changes only the position and the result. -/
theorem wordStep_frame {f : Domain → Bool} {n : Nat} {sc : Option SubCmd} {s t : State}
    (h : wordStep f n sc s = .next t) :
    t.cfg = s.cfg ∧ t.parsers = s.parsers ∧ t.map = s.map ∧ t.mapFault = s.mapFault ∧ t.mapShared = s.mapShared ∧
    t.pending = s.pending := by
  obtain ⟨d, bytes, stop, dpos, subs, -, -, rfl⟩ := wordStep_next _ _ _ _ _ h
  split
  · exact enterWords_frame _ _ _ _ _ _
  · simp

/-- R8: a character writes the ParserState that the framer works on, and nothing of the map or the host. -/
theorem feedChar_frame {c : Byte} {s t : State} (h : feedChar c s = .next t) :
    t.cfg = s.cfg ∧ t.map = s.map ∧ t.mapFault = s.mapFault ∧ t.mapShared = s.mapShared ∧ t.pending = s.pending ∧
    ∃ ps chars cursor q k d, s.unit = .framing ps chars cursor ∧
      consumeChar s.cfg chars cursor (s.parser ps) c = some (q, k, d) ∧ t.parsers = (s.setParser ps q).parsers := by
  obtain ⟨ps, chars, cursor, q, k, d, hu, hq, rfl⟩ := feedChar_next _ _ _ h
  refine ⟨?_, ?_, ?_, ?_, ?_, ps, chars, cursor, q, k, d, hu, hq, ?_⟩ <;> split <;> rfl

/-! ### A step -/

/-- What a step that answers has done: it executed what it fetched, or the fetch found that nothing is left to execute. -/
theorem step_cases {s t : State} (h : step s = .next t) :
    (∃ i u, fetchNext s = .run i u ∧ exec i u = .next t) ∨ fetchNext s = .settle t := by
  have hc := configLegal_of_step _ _ h
  cases hf : fetchNext s with
  | run i u =>
    rw [step_of_fetch_run _ _ _ hc hf] at h
    exact .inl ⟨i, u, rfl, h⟩
  | settle u =>
    rw [step_of_fetch_settle _ _ hc hf] at h
    cases h
    exact .inr rfl
  | refuse r => simp [step, fetch, hf, underLegal, hc] at h

end Sys2Proof.Machine
end

