-- ==== Sys2Proof/Laws/PerInstr.lean ====
section
/-! SUPPORT. The statements made per instruction. `EncodedLength`: a well-formed instruction that has an encoding is
encoded in as many bytes as its row of the opcode table says (R70, R84, R85, R92). -/

namespace Sys2Proof.Laws.EncodedLength

open Sys2Proof.Machine

/-- R70, R84, R85, R92: the length of the encoding of an instruction. -/
def Statement (i : Instr) : Prop :=
  ∀ (cfg : Config) (bytes : List Byte), i.wf cfg = true → encode cfg i = some bytes → bytes.length = i.length

theorem hex0 : Statement .hex0 := by
  intro _ _ _ h; exact Option.some.inj h ▸ rfl
theorem hex1 : Statement .hex1 := by
  intro _ _ _ h; exact Option.some.inj h ▸ rfl
theorem hex2 : Statement .hex2 := by
  intro _ _ _ h; exact Option.some.inj h ▸ rfl
theorem hex3 : Statement .hex3 := by
  intro _ _ _ h; exact Option.some.inj h ▸ rfl
theorem hex4 : Statement .hex4 := by
  intro _ _ _ h; exact Option.some.inj h ▸ rfl
theorem hex5 : Statement .hex5 := by
  intro _ _ _ h; exact Option.some.inj h ▸ rfl
theorem hex6 : Statement .hex6 := by
  intro _ _ _ h; exact Option.some.inj h ▸ rfl
theorem hex7 : Statement .hex7 := by
  intro _ _ _ h; exact Option.some.inj h ▸ rfl
theorem hex8 : Statement .hex8 := by
  intro _ _ _ h; exact Option.some.inj h ▸ rfl
theorem hex9 : Statement .hex9 := by
  intro _ _ _ h; exact Option.some.inj h ▸ rfl
theorem hexA : Statement .hexA := by
  intro _ _ _ h; exact Option.some.inj h ▸ rfl
theorem hexB : Statement .hexB := by
  intro _ _ _ h; exact Option.some.inj h ▸ rfl
theorem hexC : Statement .hexC := by
  intro _ _ _ h; exact Option.some.inj h ▸ rfl
theorem hexD : Statement .hexD := by
  intro _ _ _ h; exact Option.some.inj h ▸ rfl
theorem hexE : Statement .hexE := by
  intro _ _ _ h; exact Option.some.inj h ▸ rfl
theorem hexF : Statement .hexF := by
  intro _ _ _ h; exact Option.some.inj h ▸ rfl
theorem hexLowerA : Statement .hexLowerA := by
  intro _ _ _ h; exact Option.some.inj h ▸ rfl
theorem hexLowerB : Statement .hexLowerB := by
  intro _ _ _ h; exact Option.some.inj h ▸ rfl
theorem hexLowerC : Statement .hexLowerC := by
  intro _ _ _ h; exact Option.some.inj h ▸ rfl
theorem hexLowerD : Statement .hexLowerD := by
  intro _ _ _ h; exact Option.some.inj h ▸ rfl
theorem hexLowerE : Statement .hexLowerE := by
  intro _ _ _ h; exact Option.some.inj h ▸ rfl
theorem hexLowerF : Statement .hexLowerF := by
  intro _ _ _ h; exact Option.some.inj h ▸ rfl
theorem stx : Statement .stx := by
  intro _ _ _ h; exact Option.some.inj h ▸ rfl
theorem cr : Statement .cr := by
  intro _ _ _ h; exact Option.some.inj h ▸ rfl
theorem lf : Statement .lf := by
  intro _ _ _ h; exact Option.some.inj h ▸ rfl
theorem ack : Statement .ack := by
  intro _ _ _ h; exact Option.some.inj h ▸ rfl
theorem nak : Statement .nak := by
  intro _ _ _ h; exact Option.some.inj h ▸ rfl
theorem nakCorrupt : Statement .nakCorrupt := by
  intro _ _ _ h; exact Option.some.inj h ▸ rfl
theorem nakNoclock : Statement .nakNoclock := by
  intro _ _ _ h; exact Option.some.inj h ▸ rfl
theorem nakToolong : Statement .nakToolong := by
  intro _ _ _ h; exact Option.some.inj h ▸ rfl
theorem other (c : Byte) : Statement (.other c) := by
  intro _ _ _ h; exact Option.some.inj h ▸ rfl
theorem hdrNoaddr (p : BitVec 2) (g : BitVec 3) : Statement (.hdrNoaddr p g) := by
  intro _ _ _ h; exact Option.some.inj h ▸ rfl
theorem hdrTwobyte (p : BitVec 2) (g : BitVec 3) : Statement (.hdrTwobyte p g) := by
  intro _ _ _ h; exact Option.some.inj h ▸ rfl
theorem hdrOnebyte (p : BitVec 2) (g : BitVec 3) : Statement (.hdrOnebyte p g) := by
  intro _ _ _ h; exact Option.some.inj h ▸ rfl
theorem hdrUnrecognised0 (p : BitVec 2) (g : BitVec 3) : Statement (.hdrUnrecognised0 p g) := by
  intro _ _ _ h; exact Option.some.inj h ▸ rfl
theorem hdrUnrecognised1 (p : BitVec 2) (g : BitVec 3) : Statement (.hdrUnrecognised1 p g) := by
  intro _ _ _ h; exact Option.some.inj h ▸ rfl
theorem hdrUnrecognised2 (p : BitVec 2) (g : BitVec 3) : Statement (.hdrUnrecognised2 p g) := by
  intro _ _ _ h; exact Option.some.inj h ▸ rfl
theorem hdrUnrecognised4 (p : BitVec 2) (g : BitVec 3) : Statement (.hdrUnrecognised4 p g) := by
  intro _ _ _ h; exact Option.some.inj h ▸ rfl
theorem hdrUnrecognised7 (p : BitVec 2) (g : BitVec 3) : Statement (.hdrUnrecognised7 p g) := by
  intro _ _ _ h; exact Option.some.inj h ▸ rfl
theorem long (g : BitVec 2) (n : BitVec 5) (content : List Byte) : Statement (.long g n content) := by
  intro cfg bytes hw h
  have hl : content.length = n.toNat := eq_of_beq hw
  have hb : encode cfg (.long g n content) = some (packLong g n :: content) := rfl
  rw [hb] at h
  rw [← Option.some.inj h, List.length_cons, hl]
  exact Nat.add_comm _ _
theorem on (g : Byte) : Statement (.on g) := by
  intro _ _ _ h; exact Option.some.inj h ▸ rfl
theorem off (g : Byte) : Statement (.off g) := by
  intro _ _ _ h; exact Option.some.inj h ▸ rfl
theorem terminate (g : Byte) : Statement (.terminate g) := by
  intro _ _ _ h; exact Option.some.inj h ▸ rfl
theorem ramp (id : Byte) (g : Byte) (l : Byte) : Statement (.ramp id g l) := by
  intro _ _ _ h; exact Option.some.inj h ▸ rfl
theorem lightUnknown (id : Byte) : Statement (.lightUnknown id) := by
  intro _ _ _ h; exact Option.some.inj h ▸ rfl
theorem event (g : Byte) (a : Byte) : Statement (.event g a) := by
  intro _ _ _ h; exact Option.some.inj h ▸ rfl
theorem min (g : Byte) : Statement (.min g) := by
  intro _ _ _ h; exact Option.some.inj h ▸ rfl
theorem max (g : Byte) : Statement (.max g) := by
  intro _ _ _ h; exact Option.some.inj h ▸ rfl
theorem kill (g : Byte) : Statement (.kill g) := by
  intro _ _ _ h; exact Option.some.inj h ▸ rfl
theorem trigUnknown (id : Byte) : Statement (.trigUnknown id) := by
  intro _ _ _ h; exact Option.some.inj h ▸ rfl
theorem calPrefix : Statement .calPrefix := by
  intro _ _ _ h; exact Option.some.inj h ▸ rfl
theorem reservedZero : Statement .reservedZero := by
  intro _ _ _ h; exact Option.some.inj h ▸ rfl
theorem direct : Statement .direct := by
  intro _ _ _ h; exact Option.some.inj h ▸ rfl
theorem reset : Statement .reset := by
  intro _ _ _ h; exact Option.some.inj h ▸ rfl
theorem stxOut : Statement .stxOut := by
  intro _ _ _ h; exact Option.some.inj h ▸ rfl
theorem crOut : Statement .crOut := by
  intro _ _ _ h; exact Option.some.inj h ▸ rfl
theorem hwReset : Statement .hwReset := by
  intro _ _ _ h; cases h
theorem psReset (ps : Nat) : Statement (.psReset ps) := by
  intro _ _ _ h; cases h
theorem processChunk (ps : Nat) (cs : List Byte) (l : Nat) (k : Nat) : Statement (.processChunk ps cs l k) := by
  intro _ _ _ h; cases h
theorem checksum (bs : List Byte) (l : Nat) : Statement (.checksum bs l) := by
  intro _ _ _ h; cases h
theorem hdrEncode (p : BitVec 2) (k : BitVec 3) : Statement (.hdrEncode p k) := by
  intro _ _ _ h; cases h
theorem hdrDecode (b : Byte) : Statement (.hdrDecode b) := by
  intro _ _ _ h; cases h
theorem locateApp (bs : List Byte) (l : Nat) (m : Bool) (f : Bool) : Statement (.locateApp bs l m f) := by
  intro _ _ _ h; cases h
theorem tryParse (bs : List Byte) (l : Nat) (m : Bool) (f : Bool) : Statement (.tryParse bs l m f) := by
  intro _ _ _ h; cases h
theorem decodeFrame (ps : Nat) (f : Bool) : Statement (.decodeFrame ps f) := by
  intro _ _ _ h; cases h
theorem addMapping (d : Domain) (a : Byte) : Statement (.addMapping d a) := by
  intro _ _ _ h; cases h
theorem salEncode (d : Domain) (p : BitVec 2) (a : Byte) (subs : List SubCmd) : Statement (.salEncode d p a subs) := by
  intro _ _ _ h; cases h
theorem calEncode (cal : CalCommand) : Statement (.calEncode cal) := by
  intro _ _ _ h; cases h
theorem resetEncode : Statement .resetEncode := by
  intro _ _ _ h; cases h
theorem hexEncode (bs : List Byte) : Statement (.hexEncode bs) := by
  intro _ _ _ h; cases h
theorem salFrameText (bs : List Byte) (c : Option Byte) : Statement (.salFrameText bs c) := by
  intro _ _ _ h; cases h
theorem calFrameText (cal : CalCommand) : Statement (.calFrameText cal) := by
  intro _ _ _ h; cases h

end Sys2Proof.Laws.EncodedLength
end

