-- ==== Sys2Proof/Tests/Slice0.lean ====
section
/-! SUPPORT. The model's own tests. The expected values are the vectors of spec/95_test_vectors.md (named by their id), or
words written out from the tables of 30_encoding.md. The last part shows, for every obligation with hypotheses, concrete
states and operands that meet them. -/

namespace Sys2Proof.Tests

open Sys2Proof Sys2Proof.Machine

/-! ### Helpers -/

/-- The default parameters. -/
abbrev std : Config := Config.standard

/-- The answer is a next state with the property `f`. -/
def answers (o : Answer) (f : State → Bool) : Bool :=
  match o with
  | .next t => f t
  | _ => false

/-- The answer is a refusal with the name `r`. -/
def refuses (o : Answer) (r : Refusal) : Bool :=
  match o with
  | .refused r' => r' == r
  | _ => false

/-- After reset, ParserState 0 holds `p`. -/
def holding (p : ParserState) : State := State.reset.setParser 0 p

/-- The framer is in the middle of a chunk, on ParserState 0, which holds `p`. -/
def framingAt (p : ParserState) (chars : List Byte) (cursor : Nat) : State :=
  (holding p).continueAt (.framing 0 chars cursor)

/-- The map of the vectors of 2.4. -/
def mapped : State := (State.reset.bindAddress 0x38 .lighting).bindAddress 0xCA .trigger

/-- The decoder is in the middle of a command region. -/
def wordsAt (d : Domain) (bytes : List Byte) (stop dpos : Nat) : State :=
  mapped.continueAt (.words d bytes stop dpos [])

/-- A ParserState of a candidate in progress. -/
def candidate (phase : Phase) (buf : List Byte) (prev : Byte) : ParserState :=
  { phase, buf, prev, ack := none, cls := .pending }

/-- The text of vector S4 (a), without the frame-start character. -/
def s4Text : List Byte := [0x30, 0x35, 0x33, 0x38, 0x30, 0x30, 0x37, 0x39, 0x38, 0x38, 0x43, 0x32, 0x0D]

/-- The bytes of vector S4. -/
def s4Bytes : List Byte := [0x05, 0x38, 0x00, 0x79, 0x88, 0xC2]

/-- The ParserState that vector S4 (a) leaves. -/
def s4Parser : ParserState := { phase := .complete, buf := s4Bytes, prev := 0x0D, ack := none, cls := .salReceived }

/-- The host has invoked `DECODE_FRAME` of ParserState 0, which holds the frame of vector S4, to be stepped. -/
def invokedDecode : State :=
  { (mapped.setParser 0 s4Parser) with pending := [{ op := .decodeFrame 0 false, stepped := true }] }

/-- One step later: the decoder has the header byte next. -/
def begunDecode : State := ((mapped.setParser 0 s4Parser).holdParser 0).shareMap.continueAt (.parsing s4Bytes 6)

/-! ### Decoding: every constructor with an encoding, from a word written out -/

theorem test_decode_digits :
    decodeIn std .character [0x30] = .ok .hex0 ∧ decodeIn std .character [0x31] = .ok .hex1 ∧
    decodeIn std .character [0x32] = .ok .hex2 ∧ decodeIn std .character [0x33] = .ok .hex3 ∧
    decodeIn std .character [0x34] = .ok .hex4 ∧ decodeIn std .character [0x35] = .ok .hex5 ∧
    decodeIn std .character [0x36] = .ok .hex6 ∧ decodeIn std .character [0x37] = .ok .hex7 ∧
    decodeIn std .character [0x38] = .ok .hex8 ∧ decodeIn std .character [0x39] = .ok .hex9 := by decide

theorem test_decode_hex_letters :
    decodeIn std .character [0x41] = .ok .hexA ∧ decodeIn std .character [0x42] = .ok .hexB ∧
    decodeIn std .character [0x43] = .ok .hexC ∧ decodeIn std .character [0x44] = .ok .hexD ∧
    decodeIn std .character [0x45] = .ok .hexE ∧ decodeIn std .character [0x46] = .ok .hexF := by decide

theorem test_decode_lower_letters :
    decodeIn std .character [0x61] = .ok .hexLowerA ∧ decodeIn std .character [0x62] = .ok .hexLowerB ∧
    decodeIn std .character [0x63] = .ok .hexLowerC ∧ decodeIn std .character [0x64] = .ok .hexLowerD ∧
    decodeIn std .character [0x65] = .ok .hexLowerE ∧ decodeIn std .character [0x66] = .ok .hexLowerF := by decide

theorem test_decode_special_characters :
    decodeIn std .character [0x5C] = .ok .stx ∧ decodeIn std .character [0x0D] = .ok .cr ∧
    decodeIn std .character [0x0A] = .ok .lf ∧ decodeIn std .character [0x2E] = .ok .ack ∧
    decodeIn std .character [0x23] = .ok .nak ∧ decodeIn std .character [0x24] = .ok .nakCorrupt ∧
    decodeIn std .character [0x25] = .ok .nakNoclock ∧ decodeIn std .character [0x27] = .ok .nakToolong ∧
    decodeIn std .character [0x67] = .ok (.other 0x67) := by decide

theorem test_decode_headers :
    decodeIn std .header [0b11000101] = .ok (.hdrNoaddr 3 0) ∧ decodeIn std .header [0b00111101] = .ok (.hdrNoaddr 0 7) ∧
    decodeIn std .header [0b10001011] = .ok (.hdrTwobyte 2 1) ∧ decodeIn std .header [0b01100110] = .ok (.hdrOnebyte 1 4) ∧
    decodeIn std .header [0b01000000] = .ok (.hdrUnrecognised0 1 0) ∧
    decodeIn std .header [0b01000001] = .ok (.hdrUnrecognised1 1 0) ∧
    decodeIn std .header [0b01000010] = .ok (.hdrUnrecognised2 1 0) ∧
    decodeIn std .header [0b01000100] = .ok (.hdrUnrecognised4 1 0) ∧
    decodeIn std .header [0b11111111] = .ok (.hdrUnrecognised7 3 7) := by decide

theorem test_decode_lighting_words :
    decodeIn std (.word .lighting) [0x79, 0x88] = .ok (.on 0x88) ∧
    decodeIn std (.word .lighting) [0x01, 0x10] = .ok (.off 0x10) ∧
    decodeIn std (.word .lighting) [0x09, 0x11] = .ok (.terminate 0x11) ∧
    decodeIn std (.word .lighting) [0b00001010, 0x12, 0xFF] = .ok (.ramp 0x0A 0x12 0xFF) ∧
    decodeIn std (.word .lighting) [0b10100010, 0x11, 0x22] = .ok (.long 1 2 [0x11, 0x22]) ∧
    decodeIn std (.word .lighting) [0x03, 0x88] = .ok (.lightUnknown 0x03) := by decide

theorem test_decode_trigger_words :
    decodeIn std (.word .trigger) [0x02, 0x25, 0x01] = .ok (.event 0x25 0x01) ∧
    decodeIn std (.word .trigger) [0x01, 0x25] = .ok (.min 0x25) ∧
    decodeIn std (.word .trigger) [0x79, 0x26] = .ok (.max 0x26) ∧
    decodeIn std (.word .trigger) [0x09, 0x27] = .ok (.kill 0x27) ∧
    decodeIn std (.word .trigger) [0b11100001, 0xFF] = .ok (.long 3 1 [0xFF]) ∧
    decodeIn std (.word .trigger) [0x0A, 0x25, 0x01] = .ok (.trigUnknown 0x0A) := by decide

theorem test_decode_outbound :
    decodeIn std .outByte [0xA3] = .ok .calPrefix ∧ decodeIn std .outByte [0x00] = .ok .reservedZero ∧
    decodeIn std .outChar [0x40] = .ok .direct ∧ decodeIn std .outChar [0x7E] = .ok .reset ∧
    decodeIn std .outChar [0x5C] = .ok .stxOut ∧ decodeIn std .outChar [0x0D] = .ok .crOut := by decide

/-- R76, R168, R95: words that are cut off, or that no row of their space has, are rejected by name. -/
theorem test_decode_rejects :
    decodeIn std .character [] = .error .noBytes ∧ decodeIn std (.word .lighting) [0x79] = .error .truncated ∧
    decodeIn std (.word .trigger) [0x02, 0x25] = .error .truncated ∧
    decodeIn std (.word .lighting) [0xA2, 0x11] = .error .truncated ∧
    decodeIn std .outByte [0x01] = .error .noOutByteRow ∧ decodeIn std .outChar [0x30] = .error .noOutCharRow := by decide

/-- The table's words that the model's order of spaces reads in their own space, and that the next step after reset runs
(log entry 10). -/
theorem test_table_words :
    decodeTableWord 8 0x30 = some .hex0 ∧ decodeTableWord 8 0x05 = some (.hdrNoaddr 0 0) ∧
    decodeTableWord 8 0x02 = some (.event 0 0) ∧ decodeTableWord 8 0xA3 = some .calPrefix ∧
    decodeTableWord 8 0x40 = some .direct ∧
    answers (step (State.reset.withFetchWord 8 0x05))
      (fun t => t.result == .header { priority := 0, addrType := .noAddr }) = true := by decide

/-! ### Well-formedness: an ill-formed term for each check -/

/-- A `Config` in which a lower-case letter, a special character and the outbound characters collide. -/
def colliding : Config :=
  { std with chAck := 0x61, chNak := 0x0D, chNakCorrupt := 0x0A, chReset := 0x40, chDirect := 0x40, chStx := 0x40 }

theorem test_wf_refuses_claimed_characters :
    Instr.wf colliding .hexLowerA = false ∧ Instr.wf colliding .nak = false ∧ Instr.wf colliding .nakCorrupt = false ∧
    Instr.wf { std with chStx := 0x41 } .stx = false ∧ Instr.wf { std with chStx := 0x0D } .cr = false ∧
    Instr.wf { std with chStx := 0x0A } .lf = false ∧ Instr.wf { std with chAck := 0x5C } .ack = false ∧
    Instr.wf { std with chNakNoclock := 0x23 } .nakNoclock = false ∧
    Instr.wf { std with chNakToolong := 0x24 } .nakToolong = false := by decide

theorem test_wf_refuses_claimed_lower_letters :
    Instr.wf { std with chNak := 0x62 } .hexLowerB = false ∧ Instr.wf { std with chNak := 0x63 } .hexLowerC = false ∧
    Instr.wf { std with chNak := 0x64 } .hexLowerD = false ∧ Instr.wf { std with chNak := 0x65 } .hexLowerE = false ∧
    Instr.wf { std with chNak := 0x66 } .hexLowerF = false := by decide

theorem test_wf_refuses_other_rows_characters :
    Instr.wf std (.other 0x30) = false ∧ Instr.wf std (.other 0x5C) = false ∧ Instr.wf std (.other 0x61) = false ∧
    Instr.wf std (.other 0x66) = false ∧ Instr.wf std (.other 0x67) = true := by decide

theorem test_wf_refuses_words :
    Instr.wf std (.long 0 2 [0x11]) = false ∧ Instr.wf std (.ramp 0x03 0 0) = false ∧
    Instr.wf std (.lightUnknown 0x79) = false ∧ Instr.wf std (.lightUnknown 0x80) = false ∧
    Instr.wf std (.trigUnknown 0x02) = false := by decide

theorem test_wf_refuses_outbound :
    Instr.wf colliding .reset = false ∧ Instr.wf colliding .stxOut = false ∧
    Instr.wf { std with chDirect := 0x0D } .crOut = false := by decide

theorem test_wf_refuses_lengths :
    Instr.wf std (.processChunk 0 [0x30] 2 0) = false ∧ Instr.wf std (.processChunk 0 [0x30] 1 2) = false ∧ Instr.wf std (.checksum [0x30] 2) = false ∧
    Instr.wf std (.locateApp [] 1 false false) = false ∧ Instr.wf std (.tryParse [] 1 false false) = false := by decide

/-! ### Host operations: the spec's vectors -/

/-- S4 (a). -/
theorem test_process_chunk_s4 :
    answers (exec (.processChunk 0 s4Text 13 0) State.reset)
      (fun t => t.result == .chunk true 13 && t.parser 0 == s4Parser && (t.parser 0).csum == 0x00) = true := by decide

/-- S6: the split monitored frame, call 2 after call 1. -/
theorem test_process_chunk_s6 :
    answers (exec (.processChunk 0 [0x37, 0x39, 0x32, 0x32, 0x43, 0x34, 0x0D, 0x0A] 8 0)
        (holding (candidate .expectHighNibble [0x05, 0x64, 0x38, 0x00] 0x30)))
      (fun t => t.result == .chunk true 8 && t.parser 0 ==
        { phase := .complete, buf := [0x05, 0x64, 0x38, 0x00, 0x79, 0x22, 0xC4], prev := 0x0A, ack := none,
          cls := .monitoredSalReceived }) = true := by decide

/-- F29. -/
theorem test_ps_reset_f29 :
    answers (exec (.psReset 0) (holding s4Parser)) (fun t => t.parser 0 == { ParserState.reset with prev := 0x0D }) = true := by
  decide

/-- R42: nothing is bound after `HW_RESET`. -/
theorem test_hw_reset :
    answers (exec .hwReset { mapped with mapFault := true })
      (fun t => t.domainAt 0x38 == none && !t.mapFault && t.map == [] && t.parsers == []) = true := by decide

/-- X9, X7. -/
theorem test_checksum :
    answers (exec (.checksum [0x05, 0xCA, 0x00, 0x02, 0x25, 0x01] 6) State.reset) (fun t => t.result == .byte 0x09) = true ∧
    answers (exec (.checksum [0x80, 0x80, 0x01] 2) State.reset) (fun t => t.result == .byte 0x00) = true := by decide

/-- H3. -/
theorem test_hdr_encode : answers (exec (.hdrEncode 2 3) State.reset) (fun t => t.result == .byte 0x83) = true := by decide

/-- H9, H12. -/
theorem test_hdr_decode :
    answers (exec (.hdrDecode 0x83) State.reset)
      (fun t => t.result == .header { priority := 2, addrType := .twoByte }) = true ∧
    answers (exec (.hdrDecode 0xFF) State.reset)
      (fun t => t.result == .header { priority := 3, addrType := .oneByte }) = true := by decide

/-- T18, T38: the location only. -/
theorem test_locate_app :
    answers (exec (.locateApp [0x03, 0x11, 0x09, 0x22, 0x38, 0x00, 0x79, 0x88, 0x00] 9 false false) State.reset)
      (fun t => t.result == .located 0x38 6) = true ∧
    answers (exec (.locateApp [0x05, 0x64, 0x38, 0x09, 0x77, 0x79, 0x22, 0x00] 8 true false) State.reset)
      (fun t => t.result == .located 0x38 5) = true := by decide

/-- T29, T22. -/
theorem test_try_parse :
    answers (exec (.tryParse [0x05, 0x38, 0x00, 0x01, 0x10, 0x09, 0x11, 0x0A, 0x12, 0xFF, 0x79, 0x13, 0x00] 13 false false)
        mapped)
      (fun t => t.result == .sal { domain := .lighting, ackChar := none, subs :=
        [{ id := 0x01, group := 0x10, param := none }, { id := 0x09, group := 0x11, param := none },
         { id := 0x0A, group := 0x12, param := some 0xFF }, { id := 0x79, group := 0x13, param := none }] }) = true ∧
    answers (exec (.tryParse [0x05, 0x38, 0x00, 0x79, 0x88, 0x7F, 0x01, 0x00] 8 false false) mapped)
      (fun t => t.result == .absent) = true := by decide

/-- S5, S6. -/
theorem test_decode_frame :
    answers (exec (.decodeFrame 0 false) (mapped.setParser 0
        { phase := .complete, buf := [0x05, 0xCA, 0x00, 0x02, 0x25, 0x01, 0x09], prev := 0x0D, ack := none,
          cls := .salReceived }))
      (fun t => t.result == .sal { domain := .trigger, ackChar := none, subs :=
        [{ id := 0x02, group := 0x25, param := some 0x01 }] }) = true ∧
    answers (exec (.decodeFrame 0 false) (mapped.setParser 0
        { phase := .complete, buf := [0x05, 0x64, 0x38, 0x00, 0x79, 0x22, 0xC4], prev := 0x0A, ack := none,
          cls := .monitoredSalReceived }))
      (fun t => t.result == .sal { domain := .lighting, ackChar := none, subs :=
        [{ id := 0x79, group := 0x22, param := none }] }) = true := by decide

/-- A1, A4. -/
theorem test_add_mapping :
    answers (exec (.addMapping .lighting 0x38) State.reset)
      (fun t => t.result == .ok && t.domainAt 0x38 == some .lighting && t.map.length == 1) = true ∧
    answers (exec (.addMapping .trigger 0x38) mapped)
      (fun t => t.result == .configFault && t.domainAt 0x38 == some .lighting && t.mapFault) = true := by decide

/-- E3, E6. -/
theorem test_sal_encode :
    answers (exec (.salEncode .lighting 3 0x38
        [{ id := 0x0A, group := 0x88, param := some 0xFF }, { id := 0x01, group := 0x89, param := none }]) State.reset)
      (fun t => t.outBytes == [0xC5, 0x38, 0x00, 0x0A, 0x88, 0xFF, 0x01, 0x89, 0xE8]) = true ∧
    answers (exec (.salEncode .trigger 0 0xCA [{ id := 0x02, group := 0x25, param := none }]) State.reset)
      (fun t => t.result == .absent) = true := by decide

/-- K4, K2. -/
theorem test_cal_encode :
    answers (exec (.calEncode { parameterId := 0xFF, parameterValue := 0xFF, includeChecksum := true }) State.reset)
      (fun t => t.outBytes == [0xA3, 0xFF, 0x00, 0xFF, 0x5F]) = true ∧
    answers (exec (.calEncode { parameterId := 0x30, parameterValue := 0x79, includeChecksum := false }) State.reset)
      (fun t => t.outBytes == [0xA3, 0x30, 0x00, 0x79]) = true := by decide

/-- K8, K9. -/
theorem test_reset_and_hex_encode :
    answers (exec .resetEncode State.reset) (fun t => t.outText == [0x7E]) = true ∧
    answers (exec (.hexEncode [0x05, 0xCA, 0x00, 0xFF]) State.reset)
      (fun t => t.outText == [0x30, 0x35, 0x43, 0x41, 0x30, 0x30, 0x46, 0x46]) = true := by decide

/-- K12, K7. -/
theorem test_frame_texts :
    answers (exec (.salFrameText s4Bytes (some 0x67)) State.reset)
      (fun t => t.outText == [0x5C, 0x30, 0x35, 0x33, 0x38, 0x30, 0x30, 0x37, 0x39, 0x38, 0x38, 0x43, 0x32, 0x67, 0x0D]) =
      true ∧
    answers (exec (.calFrameText { parameterId := 0x42, parameterValue := 0x0E, includeChecksum := false }) State.reset)
      (fun t => t.outText == [0x40, 0x41, 0x33, 0x34, 0x32, 0x30, 0x30, 0x30, 0x45, 0x0D]) = true := by decide

/-- R53, R92: an outbound row produces its constant whole, whatever an earlier operation produced. -/
theorem test_outbound_rows :
    answers (exec .calPrefix { State.reset with outBytes := [0x05] })
      (fun t => t.outBytes == [0xA3] && t.result == .bytes) = true ∧
    answers (exec .crOut { State.reset with outText := [0x7E] })
      (fun t => t.outText == [0x0D] && t.result == .text) = true := by decide

/-- U19, D14: `cursor = length` returns false and changes nothing, `cursor > length` is refused. -/
theorem test_process_chunk_cursor :
    answers (exec (.processChunk 0 s4Text 13 13) State.reset)
      (fun t => t.result == .chunk false 13 && t.parser 0 == ParserState.reset) = true ∧
    refuses (exec (.processChunk 0 s4Text 13 14) State.reset) .cursorPastLength = true := by decide

/-- R50: an output buffer of 3 elements holds no four characters. -/
theorem test_hex_encode_bounded :
    answers (exec (.hexEncode [0x05, 0xCA]) { State.reset with cfg := { std with txMax := some 3 } })
      (fun t => t.result == .absent && t.outText == []) = true := by decide

/-- U17, D39: a stepped `DECODE_FRAME` holds its ParserState, and no other, from its first step to its end. -/
theorem test_decode_frame_holds :
    answers (step invokedDecode) (fun t => t == begunDecode && refuses (exec (.psReset 0) t) .overlappingOperation &&
      refuses (exec (.processChunk 0 s4Text 13 0) t) .overlappingOperation &&
      refuses (exec (.decodeFrame 0 false) t) .overlappingOperation && answers (exec (.psReset 1) t) (fun _ => true)) = true ∧
    answers (stepTimes 3 invokedDecode) (fun t => t.unit == .idle && answers (exec (.psReset 0) t) (fun _ => true) &&
      t.result == .sal { domain := .lighting, ackChar := none, subs := [{ id := 0x79, group := 0x88, param := none }] }) =
      true := by decide

/-- F26: a buffer that is too small discards the frame. -/
theorem test_overflow_f26 :
    answers (exec (.processChunk 0 s4Text 13 0) { State.reset with cfg := { std with cap := 5 } })
      (fun t => t.result == .chunk false 13 && t.parser 0 == candidate .ackPending [] 0x0D) = true := by decide

/-- F19: lower-case digits are of class OTHER unless the `Config` accepts them. -/
theorem test_lower_case_f19 :
    answers (exec .hexLowerC (framingAt (candidate .expectHighNibble [0x05] 0x35) [0x63] 0))
      (fun t => t.parser 0 == discarded 0x63) = true ∧
    answers (exec .hexLowerC { framingAt (candidate .expectHighNibble [0x05] 0x35) [0x63] 0 with
        cfg := { std with acceptLowerHex := true } })
      (fun t => t.parser 0 == candidate .expectLowNibble [0x05] 0x63) = true := by decide

/-! ### The hypotheses of the obligations are met -/

/-- A state with finitely many listed ParserStates keeps the invariant if they do. -/
theorem stateInv_of_listed (s : State) (h1 : Memory.wf ParserState.reset s.parsers)
    (h2 : ∀ e ∈ s.parsers, ParserInv s.cfg e.2) (h3 : Memory.wf none s.map) (h4 : ∀ e ∈ s.map, e.1 < 256)
    (h5 : UnitInv s.cfg s.unit) (h6 : ResultInv s.cfg s.result)
    (h7 : s.decoding.isSome = true → s.routerBusy = true) : StateInv s := by
  refine ⟨h1, fun ps => ?_, h3, h4, h5, h6, h7⟩
  rcases memGet_mem ParserState.reset s.parsers ps with h | h
  · have he : s.parser ps = ParserState.reset := h
    rw [he]
    exact ⟨Nat.zero_le _, by decide, by decide, by decide, by decide, by decide, by decide, by decide,
      fun h => (by cases h), fun h => (by cases h)⟩
  · exact h2 _ h

theorem inv_reset : StateInv State.reset :=
  stateInv_of_listed _ (by decide) (by decide) (by decide) (by decide) trivial trivial (by decide)

theorem inv_mapped : StateInv mapped :=
  stateInv_of_listed _ (by decide) (by decide) (by decide) (by decide) trivial trivial (by decide)

theorem inv_s4 : StateInv (holding s4Parser) :=
  stateInv_of_listed _ (by decide) (by decide) (by decide) (by decide) trivial trivial (by decide)

/-- A `Config` with output buffers of `m` elements. -/
def bounded (m : Nat) : Config := { std with txMax := some m }

/-- A `Config` that breaks R11 (e). -/
def noCapacity : Config := { std with cap := 0 }

theorem witness_IdlePhaseRestarts :
    (charOf std .stx = some 0x5C ∧ (framingAt ParserState.reset [0x5C] 0).unit = .framing 0 [0x5C] 0 ∧
      ((framingAt ParserState.reset [0x5C] 0).parser 0).phase = .idle) ∧
    (charOf std .hex5 = some 0x35 ∧ (framingAt s4Parser [0x35, 0x30] 0).unit = .framing 0 [0x35, 0x30] 0 ∧
      ((framingAt s4Parser [0x35, 0x30] 0).parser 0).phase = .complete) ∧
    (charOf std (.other 0x67) = some 0x67 ∧ (framingAt s4Parser [0x67] 0).unit = .framing 0 [0x67] 0 ∧
      ((framingAt s4Parser [0x67] 0).parser 0).phase = .complete) := by decide

/-- The chunk, position and ParserState of a framer in the middle of a candidate. -/
abbrev meets (i : Instr) (c : Byte) (p : ParserState) (chars : List Byte) (ph : Phase) : Prop :=
  charOf std i = some c ∧ (framingAt p chars 0).unit = .framing 0 chars 0 ∧
  ParserInv std ((framingAt p chars 0).parser 0) ∧ ((framingAt p chars 0).parser 0).phase = ph

theorem witness_StxFoundPhase :
    meets .hexF 0x46 (candidate .stxFound [] 0x5C) [0x46] .stxFound ∧
    meets .stx 0x5C (candidate .stxFound [] 0x5C) [0x5C] .stxFound :=
  ⟨by decide, by decide⟩

theorem witness_AckPendingPhase :
    meets .ack 0x2E (candidate .ackPending [] 0x67) [0x2E] .ackPending ∧
    meets .nak 0x23 (candidate .ackPending [] 0x67) [0x23] .ackPending ∧
    meets .nakCorrupt 0x24 (candidate .ackPending [] 0x67) [0x24] .ackPending ∧
    meets .nakNoclock 0x25 (candidate .ackPending [] 0x67) [0x25] .ackPending ∧
    meets .nakToolong 0x27 (candidate .ackPending [] 0x67) [0x27] .ackPending ∧
    meets .lf 0x0A (candidate .ackPending [] 0x67) [0x0A] .ackPending :=
  ⟨by decide, by decide, by decide, by decide, by decide, by decide⟩

theorem witness_ExpectHighNibblePhase :
    meets .hex0 0x30 (candidate .expectHighNibble [0x05] 0x35) [0x30] .expectHighNibble ∧
    meets .cr 0x0D (candidate .expectHighNibble [0x05] 0x35) [0x0D, 0x0A] .expectHighNibble ∧
    meets .cr 0x0D (candidate .expectHighNibble [0x05] 0x35) [0x0D] .expectHighNibble ∧
    meets .lf 0x0A (candidate .expectHighNibble [0x05] 0x35) [0x0A] .expectHighNibble :=
  ⟨by decide, by decide, by decide, by decide⟩

/-- A buffer with 31 bytes has room for one more, a buffer with 32 bytes has none (`CAP` is 32). -/
theorem witness_ExpectLowNibblePhase :
    meets .hexA 0x41 (candidate .expectLowNibble (List.replicate 31 0) 0x43) [0x41] .expectLowNibble ∧
    meets .hexA 0x41 (candidate .expectLowNibble (List.replicate 32 0) 0x43) [0x41] .expectLowNibble ∧
    meets .cr 0x0D (candidate .expectLowNibble [] 0x43) [0x0D] .expectLowNibble ∧
    hexval std 0x43 = some 12 :=
  ⟨by decide, by decide, by decide, by decide⟩

theorem witness_BufferIsAppendOnly :
    meets .hexA 0x41 (candidate .expectLowNibble [0x05] 0x43) [0x41] .expectLowNibble ∧
    ∃ t, exec .hexA (framingAt (candidate .expectLowNibble [0x05] 0x43) [0x41] 0) = .next t :=
  ⟨by decide, _, rfl⟩

theorem witness_ProcessChunkLoop :
    StateInv State.reset ∧ ChunkCallLegal State.reset 0 [0x5C, 0x0D] 2 1 ∧ ChunkCallLegal State.reset 0 [0x5C, 0x0D] 2 2 ∧
    (∃ q, framerStep std (State.reset.parser 0) 0x0D = some q) :=
  ⟨inv_reset, ⟨rfl, by decide, rfl, by decide⟩, ⟨rfl, by decide, rfl, by decide⟩, _, rfl⟩

theorem witness_ProcessChunkReturns :
    StateInv State.reset ∧ ChunkCallLegal State.reset 0 s4Text 13 0 ∧ ChunkCallLegal State.reset 0 s4Text 13 13 :=
  ⟨inv_reset, ⟨rfl, by decide, rfl, by decide⟩, ⟨rfl, by decide, rfl, by decide⟩⟩

theorem witness_ChunkBoundariesDoNotMatter :
    StateInv State.reset ∧ State.reset.parserBusy 0 = false ∧ fitsChunk State.reset.cfg (1 + 1) = true ∧
    ∃ s1, exec (.processChunk 0 [0x67] 1 0) State.reset = .next s1 ∧ s1.result = .chunk false 1 ∧
      ∃ s2, exec (.processChunk 0 [0x2E] 1 0) s1 = .next s2 ∧ s2.result = .chunk true 1 :=
  ⟨inv_reset, rfl, rfl, _, rfl, rfl, _, rfl, rfl⟩

theorem witness_LoopBack :
    StateInv State.reset ∧ configLegal State.reset.cfg = true ∧ State.reset.parserBusy 0 = false ∧
    (State.reset.parser 0).phase = .idle ∧ 1 ≤ s4Bytes.length ∧ s4Bytes.length ≤ State.reset.cfg.cap ∧
    fitsChunk State.reset.cfg (salFrameText State.reset.cfg s4Bytes none).length = true ∧
    fitsChunk State.reset.cfg (salFrameText State.reset.cfg s4Bytes (some 0x67)).length = true ∧
    hexval std 0x67 = none ∧ 0x67#8 ≠ chCr ∧ std.chStx ≠ chCr ∧ fitsChunk std 3 = true ∧ std.chDirect ≠ std.chStx ∧
    hexval std std.chDirect = none ∧ outcomeOf std 0x41 = none :=
  ⟨inv_reset, by decide⟩

/-- The three forms of the inbound grammar, at their shortest. -/
theorem delivers_forms :
    Delivers std [0x46, 0x46, 0x0D] { phase := .complete, buf := [0xFF], prev := 0x0D, ack := none, cls := .salReceived } ∧
    Delivers std [0x5C, 0x46, 0x46, 0x0D, 0x0A]
      { phase := .complete, buf := [0xFF], prev := 0x0A, ack := none, cls := .monitoredSalReceived } ∧
    Delivers std [0x0D, 0x2E] { phase := .complete, buf := [], prev := 0x2E, ack := some 0x0D, cls := .ack } ∧
    Delivers std [0x67, 0x23] { phase := .complete, buf := [], prev := 0x23, ack := none, cls := .nak } :=
  ⟨.inl ⟨[0xFF], ⟨by decide, [0x46, 0x46], by decide, .inl rfl⟩, rfl⟩,
   .inr (.inl ⟨[0x5C, 0x46, 0x46, 0x0D], [0xFF], ⟨by decide, [0x46, 0x46], by decide, .inr rfl⟩, rfl, rfl⟩),
   .inr (.inr ⟨0x0D, 0x2E, .ack, rfl, by decide, by decide, by decide, rfl⟩),
   .inr (.inr ⟨0x67, 0x23, .nak, rfl, by decide, by decide, by decide, rfl⟩)⟩

theorem witness_GrammarIsDelivered :
    StateInv State.reset ∧ configLegal State.reset.cfg = true ∧ ChunkCallLegal State.reset 0 [0x46, 0x46, 0x0D] 3 0 ∧
    (State.reset.parser 0).phase = .idle ∧
    (∃ q, Delivers std [0x46, 0x46, 0x0D] q ∧ q.buf.length ≤ std.cap) :=
  ⟨inv_reset, by decide, ⟨rfl, by decide, rfl, by decide⟩, by decide, _, delivers_forms.1, by decide⟩

theorem witness_OnlyGrammarIsDelivered :
    StateInv (holding s4Parser) ∧ ((holding s4Parser).parser 0).phase = .complete ∧
    ∃ t, exec (.processChunk 0 [0x67, 0x2E] 2 0) (holding s4Parser) = .next t ∧ t.result = .chunk true 2 :=
  ⟨inv_s4, by decide, _, rfl, rfl⟩

theorem witness_LateTerminatorIsLost :
    StateInv (holding (candidate .expectHighNibble [0x05] 0x35)) ∧
    (holding (candidate .expectHighNibble [0x05] 0x35)).parserBusy 0 = false ∧ fitsChunk std 2 = true ∧
    fitsChunk std 1 = true ∧ std.chStx ≠ chLf ∧
    ((holding (candidate .expectHighNibble [0x05] 0x35)).parser 0).phase = .expectHighNibble :=
  ⟨stateInv_of_listed _ (by decide) (by decide) (by decide) (by decide) trivial trivial (by decide), by decide⟩

theorem witness_PsResetResetsOne :
    (StateInv (holding s4Parser) ∧ (holding s4Parser).parserBusy 0 = false) ∧
    (∃ t, exec .resetEncode (holding s4Parser) = .next t ∧ mayWriteParser std .resetEncode = false) ∧
    (∃ t, exec (.psReset 1) (holding s4Parser) = .next t ∧ ((holding s4Parser).parser 0).cls ≠ .none) :=
  ⟨⟨inv_s4, rfl⟩, ⟨_, rfl, rfl⟩, ⟨_, rfl, by decide⟩⟩

theorem witness_ChecksumResult : 3 ≤ [0x01#8, 0x02, 0x03].length ∧ 0 ≤ [0x01#8].length ∧ [0x01#8, 0x02].Perm [0x02, 0x01] := by
  decide

/-- Each header row and the byte that `HDR_DECODE` has before it. -/
theorem witness_HeaderRowsDecode :
    configLegal std = true ∧ (State.reset.continueAt (.decodingHeader 0x45)).unit = .decodingHeader 0x45 ∧
    headerByteOf std (.hdrNoaddr 1 0) = some 0x45 ∧ headerByteOf std (.hdrTwobyte 0 0) = some 0x03 ∧
    headerByteOf std (.hdrOnebyte 0 0) = some 0x06 ∧ headerByteOf std (.hdrUnrecognised0 0 0) = some 0x00 ∧
    headerByteOf std (.hdrUnrecognised1 0 0) = some 0x01 ∧ headerByteOf std (.hdrUnrecognised2 0 0) = some 0x02 ∧
    headerByteOf std (.hdrUnrecognised4 0 0) = some 0x04 ∧ headerByteOf std (.hdrUnrecognised7 3 7) = some 0xFF := by decide

theorem witness_HeaderRowsLocate :
    configLegal std = true ∧ (State.reset.continueAt (.locating [0x05, 0x00] 2)).unit = .locating [0x05, 0x00] 2 ∧
    [0x05#8, 0x00][0]? = some 0x05 ∧ headerByteOf std (.hdrNoaddr 0 0) = some 0x05 := by decide

theorem witness_HeaderRowsParse :
    configLegal std = true ∧ (mapped.continueAt (.parsing s4Bytes 6)).unit = .parsing s4Bytes 6 ∧
    mapped.mapFault = false ∧ 2 ≤ 6 ∧ s4Bytes[0]? = some 0x05 ∧ headerByteOf std (.hdrNoaddr 0 0) = some 0x05 := by decide

/-- The boundary lengths of the three layouts (3 and 4, 6 and 7 bytes): too short, and just long enough. -/
theorem witness_LocateLocalFrames :
    3 ≤ [0x05#8, 0x38, 0xC2].length ∧ 4 ≤ [0x05#8, 0x38, 0x00, 0xC3].length ∧
    6 ≤ [0x03#8, 0x11, 0x09, 0x22, 0x38, 0x00].length ∧ 7 ≤ [0x03#8, 0x11, 0x09, 0x22, 0x38, 0x00, 0x00].length ∧
    0 ≤ ([] : List Byte).length ∧ 2 ≤ [0x06#8, 0x11].length := by decide

/-- The boundary lengths of the monitored layouts (4 and 5 bytes, 2 and 3 bytes). -/
theorem witness_LocateMonitoredReplies :
    4 ≤ [0x05#8, 0x64, 0x38, 0x00].length ∧ 5 ≤ [0x05#8, 0x64, 0x38, 0x00, 0x00].length ∧
    2 ≤ [0x38#8, 0x00].length ∧ 3 ≤ [0x38#8, 0x00, 0x00].length := by decide

/-- Each id of Lighting at the last place of a region, and with room for its word. -/
theorem witness_LightingWords :
    (wordsAt .lighting [0x79, 0x88, 0x00] 2 0).unit = .words .lighting [0x79, 0x88, 0x00] 2 0 [] ∧
    (wordsAt .lighting [0x79, 0x00] 1 0).unit = .words .lighting [0x79, 0x00] 1 0 [] ∧ configLegal std = true ∧
    0 < 1 ∧ 1 < [0x79#8, 0x00].length ∧ [0x79#8, 0x00][0]? = some 0x79 ∧ [0x01#8, 0x00][0]? = some std.lightOff ∧
    [0x09#8, 0x00][0]? = some std.lightTerminate ∧ [0x0A#8, 0x00][0]? = some 0x0A ∧ 0x0A#8 ∈ std.rampIds := by decide

/-- Each id of Trigger at the last place of a region, and with room for its word. -/
theorem witness_TriggerWords :
    (wordsAt .trigger [0x02, 0x25, 0x01, 0x00] 3 0).unit = .words .trigger [0x02, 0x25, 0x01, 0x00] 3 0 [] ∧
    (wordsAt .trigger [0x02, 0x00] 1 0).unit = .words .trigger [0x02, 0x00] 1 0 [] ∧ configLegal std = true ∧
    0 < 1 ∧ 1 < [0x02#8, 0x00].length ∧ [0x02#8, 0x00][0]? = some 0x02 ∧ [0x01#8, 0x00][0]? = some std.trigMin ∧
    [0x79#8, 0x00][0]? = some std.trigMax ∧ [0x09#8, 0x00][0]? = some std.trigKill := by decide

/-- LONG words with `n = 0` and `n = 31`. -/
theorem witness_LongWordIsSkipped :
    (wordsAt .trigger [0x80, 0x9F, 0x00] 2 0).unit = .words .trigger [0x80, 0x9F, 0x00] 2 0 [] ∧ configLegal std = true ∧
    0 < 2 ∧ 2 < [0x80#8, 0x9F, 0x00].length ∧ [0x80#8, 0x9F, 0x00][0]? = some 0x80 ∧ 128 ≤ (0x80#8).toNat ∧
    [0x80#8, 0x9F, 0x00][1]? = some 0x9F ∧ (0x9F#8).toNat % 32 = 31 := by decide

theorem witness_UnknownIdsFailTheDecode :
    (wordsAt .lighting [0x03, 0x88, 0x00] 2 0).unit = .words .lighting [0x03, 0x88, 0x00] 2 0 [] ∧
    (wordsAt .trigger [0x7F, 0x00] 1 0).unit = .words .trigger [0x7F, 0x00] 1 0 [] ∧ configLegal std = true ∧
    0 < 1 ∧ 1 < [0x7F#8, 0x00].length ∧ [0x7F#8, 0x00][0]? = some 0x7F ∧ (0x7F#8).toNat < 128 ∧
    shortForm std .trigger 0x7F = none ∧ shortForm std .lighting 0x03 = none := by decide

/-- T23: a LONG word and ON; and T11: the empty region. -/
theorem witness_RegionIsASequenceOfWords :
    configLegal std = true ∧ mapped.mapFault = false ∧
    locateApp std [0x05, 0x38, 0x00, 0xA2, 0x11, 0x22, 0x79, 0x88, 0x00] 9 false false = .ok (0x38, 3) ∧
    locateApp std [0x05, 0x38, 0x00, 0xC3] 4 false false = .ok (0x38, 3) ∧ mapped.domainAt 0x38 = some .lighting ∧
    (∀ i ∈ [Instr.long 1 2 [0x11, 0x22], Instr.on 0x88],
      i.wf std = true ∧ i.inSpace (.word .lighting) = true ∧ isUnknownIdRow i = false) ∧
    (([0x05#8, 0x38, 0x00, 0xA2, 0x11, 0x22, 0x79, 0x88, 0x00].take 8).drop 3 =
      [Instr.long 1 2 [0x11, 0x22], Instr.on 0x88].flatMap (fun i => (encode std i).getD [])) ∧
    answers (exec (.tryParse [0x05, 0x38, 0x00, 0xC3] 4 false false) mapped)
      (fun t => t.result == .sal { domain := .lighting, subs := [], ackChar := none }) = true := by decide

theorem witness_TryParseResult : mapped.mapFault = false ∧ 6 ≤ s4Bytes.length ∧ 0 ≤ s4Bytes.length := by decide

theorem witness_ResetMapDecodesNothing :
    (∀ a, (State.reset.bindAddress 0xCA .trigger).domainAt a ≠ some .lighting) ∧
    (∃ t, exec (.tryParse [0x05, 0xCA, 0x00, 0x31] 4 false false) (State.reset.bindAddress 0xCA .trigger) = .next t ∧
      t.result = .sal { domain := .trigger, subs := [], ackChar := none }) ∧
    (∀ a, State.reset.domainAt a = none) ∧ State.reset.mapFault = false ∧ 6 ≤ s4Bytes.length :=
  ⟨by decide, ⟨_, rfl, by decide⟩, fun _ => rfl, rfl, by decide⟩

theorem witness_ChecksumByteIsNotExamined :
    (∃ t, exec (.decodeFrame 0 false) (mapped.setParser 0 { s4Parser with buf := [0x05, 0x38, 0x00] ++ [0xC3] }) = .next t) ∧
    (∃ u, exec (.decodeFrame 0 false) (mapped.setParser 0 { s4Parser with buf := [0x05, 0x38, 0x00] ++ [0x00] }) = .next u) :=
  ⟨⟨_, rfl⟩, ⟨_, rfl⟩⟩

theorem witness_DecodeFrameIsTryParse :
    mapped.mapFault = false ∧ (mapped.setParser 0 s4Parser).parserBusy 0 = false ∧
    ((mapped.setParser 0 s4Parser).parser 0).cls = .salReceived ∧
    ((mapped.setParser 0 { s4Parser with cls := .monitoredSalReceived }).parser 0).cls = .monitoredSalReceived ∧
    (mapped.parser 0).cls ≠ .salReceived ∧ (mapped.parser 0).cls ≠ .monitoredSalReceived := by decide

theorem witness_AddMappingResult :
    StateInv mapped ∧ StateInv { mapped with mapFault := true } ∧ mapped.mapFault = false ∧ mapped.mapShared = false ∧
    mapped.routerBusy = false ∧ mapped.domainAt 0x00 = none ∧ mapped.domainAt 0xFF = none ∧
    mapped.domainAt 0x38 = some .lighting ∧ Domain.lighting ≠ .trigger :=
  ⟨inv_mapped, stateInv_of_listed _ (by decide) (by decide) (by decide) (by decide) trivial trivial (by decide), by decide⟩

theorem witness_MapFaultHaltsTheMap :
    (∃ t, exec .hwReset mapped = .next t) ∧
    (mapped.mapFault = false ∧ mapped.mapShared = false ∧ mapped.routerBusy = false ∧
      mapped.domainAt 0x38 = some .lighting) ∧
    (∃ t, exec (.psReset 0) { mapped with mapFault := true } = .next t) ∧
    (headerByteOf std (.checksum [] 0) = none ∧ ∃ t, exec (.checksum [] 0) mapped = .next t) :=
  ⟨⟨_, rfl⟩, by decide, ⟨_, rfl⟩, rfl, ⟨_, rfl⟩⟩

theorem witness_NoMappingAfterALookup :
    (∃ t, exec (.tryParse s4Bytes 6 false false) mapped = .next t) ∧
    (∃ t, exec (.decodeFrame 0 false) (mapped.setParser 0 s4Parser) = .next t) ∧
    (∃ t, exec (.psReset 0) mapped.shareMap = .next t ∧ mapped.shareMap.mapShared = true) ∧
    (mapped.shareMap.mapFault = false ∧ mapped.shareMap.routerBusy = false ∧ mapped.shareMap.mapShared = true) :=
  ⟨⟨_, rfl⟩, ⟨_, rfl⟩, ⟨_, rfl, rfl⟩, rfl, rfl, rfl⟩

theorem witness_BindingsPersist :
    StateInv mapped ∧ (∃ t, exec (.addMapping .lighting 0x39) mapped = .next t) ∧ mapped.domainAt 0x38 = some .lighting ∧
    (∃ t, exec (.psReset 0) mapped = .next t) :=
  ⟨inv_mapped, ⟨_, rfl⟩, by decide, ⟨_, rfl⟩⟩

/-- A well-formed ON, an ill-formed ON, and an output at and above `TX_MAX`. -/
theorem witness_SalEncodeResult :
    ((0x79#8).toNat < 128 ∧ shortForm std .lighting 0x79 = some 1 ∧ (none : Option Byte).isSome = false) ∧
    (shortForm std .lighting 0x03 = none) ∧
    ({ std with txMax := some 6 } : Config).txMax = some 6 ∧ [0x05#8, 0x38, 0x00, 0x79, 0x88].length + 1 ≤ 6 ∧
    ({ std with txMax := some 5 } : Config).txMax = some 5 ∧ 5 < [0x05#8, 0x38, 0x00, 0x79, 0x88].length + 1 := by decide

theorem witness_SalRoundTrip :
    (∃ t, exec (.salEncode .lighting 0 0x38 [{ id := 0x79, group := 0x88, param := none }]) mapped = .next t ∧
      t.result = .bytes) ∧ mapped.mapFault = false ∧ mapped.domainAt 0x38 = some .lighting :=
  ⟨⟨_, rfl, rfl⟩, by decide⟩

theorem witness_OnlyTheFramerWritesParserStates :
    (∃ t, exec (.tryParse s4Bytes 6 false false) mapped = .next t) ∧
    mayWriteParser std (.tryParse s4Bytes 6 false false) = false :=
  ⟨⟨_, rfl⟩, rfl⟩

theorem witness_ConversationsAreIndependent :
    StateInv State.reset ∧ (0 : Nat) ≠ 1 ∧
    (∃ s1, exec (.processChunk 0 [0x67] 1 0) State.reset = .next s1 ∧ ∃ s2, exec (.processChunk 1 [0x5C] 1 0) s1 = .next s2) ∧
    (∃ u1, exec (.processChunk 1 [0x5C] 1 0) State.reset = .next u1 ∧ ∃ u2, exec (.processChunk 0 [0x67] 1 0) u1 = .next u2) :=
  ⟨inv_reset, by decide, ⟨_, rfl, _, rfl⟩, ⟨_, rfl, _, rfl⟩⟩

theorem witness_ParametersNeverChange :
    (∃ t, exec (.psReset 0) mapped = .next t) ∧ ∃ t, step (framingAt ParserState.reset [0x5C] 0) = .next t :=
  ⟨⟨_, rfl⟩, ⟨_, rfl⟩⟩

theorem witness_IllegalConfigIsRefused : ¬ConfigConstraints { State.reset with cfg := noCapacity }.cfg := by
  intro h
  obtain ⟨-, -, -, -, -, -, -, -, -, -, -, -, -, -, h, -⟩ := h
  exact absurd h (by decide)

theorem witness_CallsOutsideTheDomainAreRefused :
    [0x30#8].length < 2 ∧ State.reset.mapFault = false ∧ State.reset.parserBusy 0 = false ∧
    (2 ≤ [0x30#8, 0x31].length ∧ 2 ≤ 2 ∧ ({ std with chunkMax := some 1 } : Config).chunkMax = some 1 ∧ 1 < 2) ∧
    (1 ≤ [0x30#8].length ∧ 1 < 2) ∧ fitsTx (bounded 0) 1 = false ∧
    fitsTx (bounded 3) (calEncode { parameterId := 0x30, parameterValue := 0x79, includeChecksum := false }).length = false ∧
    fitsTx (bounded 1) (2 * [0x30#8].length) = false ∧
    fitsTx (bounded 4) (2 * [0x30#8].length + (some 0x67#8).toList.length + 2) = false ∧
    fitsTx (bounded 9) (2 * (calEncode { parameterId := 0x30, parameterValue := 0x79, includeChecksum := false }).length + 2) =
      false := by decide

/-- Outputs that just fit `TX_MAX`. -/
theorem witness_encoders_fit :
    fitsTx (bounded 1) 1 = true ∧ fitsTx (bounded 4) 4 = true ∧ fitsTx (bounded 5) 5 = true ∧
    fitsTx (bounded 2) (2 * [0x30#8].length) = true ∧ fitsTx (bounded 4) (2 * [0x30#8].length + 2) = true ∧
    fitsTx (bounded 5) (2 * [0x30#8].length + 3) = true ∧
    fitsTx (bounded 10) (2 * (calEncode { parameterId := 0x30, parameterValue := 0x79, includeChecksum := false }).length + 2) =
      true := by decide

theorem witness_OverlappingCallsAreRefused :
    ((framingAt ParserState.reset [0x5C] 0).unit = .framing 0 [0x5C] 0 ∧
      (framingAt ParserState.reset [0x5C] 0).mapFault = false) ∧
    ((mapped.continueAt (.parsing s4Bytes 6)).mapFault = false ∧
      ∃ bytes length, (mapped.continueAt (.parsing s4Bytes 6)).unit = .parsing bytes length) ∧
    ((wordsAt .lighting [0x79, 0x88, 0x00] 2 0).mapFault = false ∧
      ∃ d bytes stop dpos subs, (wordsAt .lighting [0x79, 0x88, 0x00] 2 0).unit = .words d bytes stop dpos subs) ∧
    (invokedDecode.unit = .idle ∧ step invokedDecode = .next begunDecode) ∧
    (StateInv begunDecode ∧ begunDecode.decoding = some 0 ∧ begunDecode.mapFault = false ∧
      ∃ t, step begunDecode = .next t ∧ t.decoding = some 0 ∧ t.unit ≠ .idle) :=
  ⟨by decide, ⟨rfl, _, _, rfl⟩, ⟨rfl, _, _, _, _, _, rfl⟩, ⟨rfl, rfl⟩,
    stateInv_of_listed _ (by decide) (by decide) (by decide) (by decide) (by decide : 6 ≤ 6) trivial (by decide), rfl, rfl,
    _, rfl, by decide⟩

theorem witness_RowsOutsideTheirSpaceAreRefused :
    ((charOf std .stx).isSome = true ∧ ∀ ps chars cursor, State.reset.unit ≠ .framing ps chars cursor) ∧
    ((headerByteOf std (.hdrNoaddr 0 0)).isSome = true ∧ (∀ b, State.reset.unit ≠ .decodingHeader b) ∧
      (∀ bytes length, State.reset.unit ≠ .locating bytes length) ∧
      (∀ bytes length, State.reset.unit ≠ .parsing bytes length)) ∧
    ((wordBytesOf std (.on 0)).isSome = true ∧ ∀ d bytes stop dpos subs, (Instr.on 0).inSpace (.word d) = true →
      (wordsAt .trigger [0x79, 0x88, 0x00] 2 0).unit ≠ .words d bytes stop dpos subs) := by
  refine ⟨⟨rfl, fun _ _ _ => nofun⟩, ⟨rfl, fun _ => nofun, fun _ _ => nofun, fun _ _ => nofun⟩, rfl, ?_⟩
  intro d bytes stop dpos subs h e
  cases e
  exact absurd h (by decide)

/-- No run reaches this ParserState: `prev` holds no high nibble. -/
theorem witness_LostHighNibbleFaults :
    charOf std .hex0 = some 0x30 ∧
    (framingAt (candidate .expectLowNibble [] 0x67) [0x30] 0).unit = .framing 0 [0x30] 0 ∧
    ((framingAt (candidate .expectLowNibble [] 0x67) [0x30] 0).parser 0).phase = .expectLowNibble ∧
    hexval std ((framingAt (candidate .expectLowNibble [] 0x67) [0x30] 0).parser 0).prev = none ∧
    (hexval std 0x30).isSome = true ∧
    ((framingAt (candidate .expectLowNibble [] 0x67) [0x30] 0).parser 0).buf.length < std.cap := by decide

theorem witness_IdleBlockHoldsItsState :
    configLegal mapped.cfg = true ∧ mapped.unit = .idle ∧ mapped.pending = [] := by decide

/-- One state for each unit that reads an instruction, and one with an invoked operation. -/
theorem witness_StepRunsTheDecodedInstruction :
    configLegal std = true ∧
    ((framingAt ParserState.reset [0x30, 0x5C] 1).unit = .framing 0 [0x30, 0x5C] 1 ∧
      decodeIn std .character ([0x30#8, 0x5C].drop 1) = .ok .stx) ∧
    decodeIn std .header [0x05] = .ok (.hdrNoaddr 0 0) ∧
    decodeIn std .header (s4Bytes.take (6 - 1)) = .ok (.hdrNoaddr 0 0) ∧ mapped.mapFault = false ∧
    ((wordsAt .lighting s4Bytes 5 3).unit = .words .lighting s4Bytes 5 3 [] ∧ 3 < 5 ∧
      decodeIn std (.word .lighting) ((s4Bytes.take 5).drop 3) = .ok (.on 0x88)) ∧
    (({ mapped with pending := [{ op := .psReset 0, stepped := false }] } : State).unit = .idle) := by decide

theorem witness_SteppedOperationsAgree :
    StateInv { mapped with pending := [{ op := .tryParse s4Bytes 6 false false, stepped := true }] } ∧
    configLegal mapped.cfg = true ∧ mapped.unit = .idle ∧
    ∃ t, exec (.tryParse s4Bytes 6 false false)
      { ({ mapped with pending := [{ op := .tryParse s4Bytes 6 false false, stepped := true }] } : State) with
        pending := [] } = .next t :=
  ⟨stateInv_of_listed _ (by decide) (by decide) (by decide) (by decide) trivial trivial (by decide), by decide, rfl, _, rfl⟩

theorem witness_StepKeepsTheInvariant :
    StateInv (framingAt s4Parser [0x67] 0) ∧ ∃ t, step (framingAt s4Parser [0x67] 0) = .next t :=
  ⟨stateInv_of_listed _ (by decide) (by decide) (by decide) (by decide) (Nat.zero_le _) trivial (by decide), _, rfl⟩

theorem witness_NoStepFaults : StateInv (framingAt (candidate .expectLowNibble [] 0x43) [0x41] 0) :=
  stateInv_of_listed _ (by decide) (by decide) (by decide) (by decide) (Nat.zero_le _) trivial (by decide)

theorem witness_DecodeReadsBackEncode :
    configLegal std = true ∧ (Instr.long 3 0 []).wf std = true ∧ (Instr.long 3 0 []).inSpace (.word .trigger) = true ∧
    encode std (.long 3 0 []) = some [0xE0] ∧ (Instr.hdrUnrecognised7 3 7).wf std = true ∧
    (Instr.hdrUnrecognised7 3 7).inSpace .header = true ∧ encode std (.hdrUnrecognised7 3 7) = some [0xFF] := by decide

/-- SteppedOperationsAgree at work: T1 stepped takes four steps, one to begin, the header byte, the word, and no more. -/
theorem test_stepped_try_parse :
    answers (stepTimes 3 { mapped with pending := [{ op := .tryParse s4Bytes 6 false false, stepped := true }] })
      (fun t => t.unit == .idle && t.result == .sal { domain := .lighting, ackChar := none, subs :=
        [{ id := 0x79, group := 0x88, param := none }] }) = true := by decide

/-- R44, R95: a row that no unit reads is refused by name. -/
theorem test_refusals :
    refuses (exec .hex0 State.reset) .noUnitReadsThisSpace = true ∧
    refuses (exec (.decodeFrame 0 false) State.reset) .noSalFrame = true ∧
    refuses (exec (.addMapping .lighting 0x38) mapped.shareMap) .mappingAfterLookup = true ∧
    refuses (exec (.tryParse [] 0 false false) { mapped with mapFault := true }) .mapHalted = true := by decide

end Sys2Proof.Tests
end

section
/-! PROOFS. R11 as the test and as the constraints (O48), and the calls that fall outside the domain (O49). -/

namespace Sys2Proof.Machine

/-! ### The legality of a `Config` (R11) -/

/-- R11 (b): `CH_STX` and `CH_CR` have no hex value. -/
theorem framingCharsLegal_iff (cfg : Config) :
    framingCharsLegal cfg = true ↔ hexval cfg cfg.chStx = none ∧ hexval cfg chCr = none := by
  simp [framingCharsLegal, hexValid]

/-- R11 (c): the three address-type codes differ. -/
theorem addrCodesLegal_iff (cfg : Config) :
    addrCodesLegal cfg = true ↔ cfg.atOne ≠ 5#3 ∧ cfg.atTwo ≠ 5#3 ∧ cfg.atOne ≠ cfg.atTwo := by
  simp only [addrCodesLegal, decide_eq_true_eq, List.nodup_cons, List.mem_cons, List.not_mem_nil, or_false, not_or,
    not_false_eq_true, List.nodup_nil, and_true, and_assoc, ne_comm (b := 5#3)]
  exact Iff.rfl

/-- R85: an id whose bit 7 is clear is below 128. -/
theorem not_isLongForm_iff (id : Byte) : isLongForm id = false ↔ id.toNat < 128 := by
  rw [BitVec.msb_eq_false_iff_two_mul_lt]
  omega

/-- R11 (d), Lighting: no plain id is a ramp id, said of the ramp ids one by one. -/
theorem lightingIdsLegal_iff (cfg : Config) :
    lightingIdsLegal cfg = true ↔
      [0x79#8, cfg.lightOff, cfg.lightTerminate].Pairwise (fun x y => x ≠ y) ∧
      (∀ id ∈ cfg.rampIds, id ≠ 0x79#8 ∧ id ≠ cfg.lightOff ∧ id ≠ cfg.lightTerminate ∧ id.toNat < 128) ∧
      cfg.lightOff.toNat < 128 ∧ cfg.lightTerminate.toNat < 128 := by
  simp only [lightingIdsLegal, Bool.and_eq_true, decide_eq_true_eq, List.all_cons, List.all_nil, List.all_eq_true,
    Bool.not_eq_true', Bool.and_true, not_isLongForm_iff, List.contains_eq_mem, decide_eq_false_iff_not]
  constructor
  · rintro ⟨⟨hd, hon, hoff, hterm⟩, -, loff, lterm, lramp⟩
    exact ⟨hd, fun id hid => ⟨ne_of_mem_of_not_mem hid hon, ne_of_mem_of_not_mem hid hoff,
      ne_of_mem_of_not_mem hid hterm, lramp id hid⟩, loff, lterm⟩
  · rintro ⟨hd, hramp, loff, lterm⟩
    have hon : lightOn ∉ cfg.rampIds := fun h => let ⟨hne, _⟩ := hramp _ h; hne rfl
    have hoff : cfg.lightOff ∉ cfg.rampIds := fun h => let ⟨_, hne, _⟩ := hramp _ h; hne rfl
    have hterm : cfg.lightTerminate ∉ cfg.rampIds := fun h => let ⟨_, _, hne, _⟩ := hramp _ h; hne rfl
    exact ⟨⟨hd, hon, hoff, hterm⟩, by decide, loff, lterm, fun id hid => let ⟨_, _, _, hlt⟩ := hramp id hid; hlt⟩

/-- R11 (d), Trigger. -/
theorem triggerIdsLegal_iff (cfg : Config) :
    triggerIdsLegal cfg = true ↔
      [0x02#8, cfg.trigMin, cfg.trigMax, cfg.trigKill].Pairwise (fun x y => x ≠ y) ∧
      cfg.trigMin.toNat < 128 ∧ cfg.trigMax.toNat < 128 ∧ cfg.trigKill.toNat < 128 := by
  have hevent : trigEvent.toNat < 128 := by decide
  simp only [triggerIdsLegal, Bool.and_eq_true, decide_eq_true_eq, List.all_cons, List.all_nil, Bool.not_eq_true',
    Bool.and_true, not_isLongForm_iff, hevent, true_and]
  exact Iff.rfl

/-- R11: the test of a `Config` is its constraints. -/
theorem configLegal_iff (cfg : Config) : configLegal cfg = true ↔ ConfigConstraints cfg := by
  simp only [configLegal, Bool.and_eq_true, outcomeCodesLegal, sizesLegal, decide_eq_true_eq, framingCharsLegal_iff,
    addrCodesLegal_iff, lightingIdsLegal_iff, triggerIdsLegal_iff, and_assoc]
  exact Iff.rfl

/-- R11: a `Config` that breaks a constraint has every step refused, whatever the fetch finds. -/
theorem step_of_illegal (s : State) (h : configLegal s.cfg = false) : step s = .refused .illegalConfig := by
  unfold step fetch
  cases fetchNext s <;> simp [underLegal, h]

/-- Settles O48: the test is the constraints by `configLegal_iff`, and a step under any other `Config` is refused. -/
theorem illegalConfigIsRefused : Obligations.IllegalConfigIsRefused := by
  refine ⟨configLegal_iff, fun s h => step_of_illegal s ?_, (configLegal_iff _).mp (by decide)⟩
  rwa [← configLegal_iff, Bool.not_eq_true] at h

/-! ### Calls outside their domain (R51, R113, R140, R166) and outputs above `TX_MAX` (R50) -/

/-- R51: `PROCESS_CHUNK` answers its refusal. -/
theorem execProcessChunk_of_refused {ps : Nat} {chars : List Byte} {length cursor : Nat} {s : State} {r : Refusal}
    (h : chunkRefusal ps chars length cursor s = some r) :
    execProcessChunk ps chars length cursor s = .refused r := by
  simp [execProcessChunk, h]

/-- R51, R140, R166: the four operations that take a length refuse one above the bytes they are given. -/
theorem lengthPastBytes_refused (s : State) (bytes : List Byte) (length : Nat) (h : bytes.length < length) :
    exec (.checksum bytes length) s = .refused .lengthPastBytes ∧
    (∀ m f, exec (.locateApp bytes length m f) s = .refused .lengthPastBytes) ∧
    (∀ m f, s.mapFault = false → exec (.tryParse bytes length m f) s = .refused .lengthPastBytes) ∧
    (∀ ps k, s.parserBusy ps = false → exec (.processChunk ps bytes length k) s = .refused .lengthPastBytes) := by
  refine ⟨if_pos h, fun _ _ => if_pos h, fun m f hm => ?_, fun ps k hb => execProcessChunk_of_refused ?_⟩
  · show execTryParse bytes length m f s = _
    simp [execTryParse, parseRefusal, hm, h]
  · simp [chunkRefusal, hb, h]

/-- R50: the one-element outputs that do not fit `TX_MAX`. -/
theorem singleOutput_absent (s : State) (h : fitsTx s.cfg 1 = false) :
    ∀ i ∈ [Instr.resetEncode, .calPrefix, .reservedZero, .direct, .reset, .stxOut, .crOut],
      exec i s = .next (s.ret .absent) := by
  have hb (b : Byte) : answerBytes [b] s = .next (s.ret .absent) := answerBytes_of_not_fits h
  have ht (c : Byte) : answerText [c] s = .next (s.ret .absent) := answerText_of_not_fits h
  simp only [List.forall_mem_cons]
  exact ⟨ht _, hb _, hb _, ht _, ht _, ht _, ht _, List.forall_mem_nil _⟩

/-- R226: a SAL frame text has two characters a byte, its acknowledgement character and its two framing characters. -/
theorem salFrameText_length (cfg : Config) (bytes : List Byte) (a : Option Byte) :
    (salFrameText cfg bytes a).length = 2 * bytes.length + a.toList.length + 2 := by
  simp only [salFrameText, List.length_append, hexEncode_length, List.length_singleton]
  omega

/-- R228: a CAL frame text has two characters a byte and its two framing characters. -/
theorem calFrameText_length (cfg : Config) (cal : CalCommand) :
    (calFrameText cfg cal).length = 2 * (calEncode cal).length + 2 := by
  simp only [calFrameText, List.length_append, hexEncode_length, List.length_singleton]
  omega

/-- Settles O49: the refusals by the order of their tests, and the outputs by their lengths. -/
theorem callsOutsideTheDomainAreRefused : Obligations.CallsOutsideTheDomainAreRefused := by
  intro s bytes length
  refine ⟨lengthPastBytes_refused s bytes length, fun ps k hb hl hk => execProcessChunk_of_refused ?_,
    fun ps k m hb hl hk hm hlm => execProcessChunk_of_refused ?_, singleOutput_absent s,
    fun cal h => answerBytes_of_not_fits h, fun h => answerText_of_not_fits ?_,
    fun a h => answerText_of_not_fits ?_, fun cal h => answerText_of_not_fits ?_⟩
  · simp [chunkRefusal, hb, Nat.not_lt.mpr hl, hk]
  · simp [chunkRefusal, hb, Nat.not_lt.mpr hl, Nat.not_lt.mpr hk, fitsChunk, hm, hlm]
  · rwa [hexEncode_length]
  · rwa [salFrameText_length]
  · rwa [calFrameText_length]

end Sys2Proof.Machine
end

section
/-! PROOFS. What a step fetches where each unit stands, and the instruction it therefore runs (O54). -/

namespace Sys2Proof.Machine

/-! ### What a step fetches, unit by unit (R8, R24, R25, R44) -/

section Fetch

variable {s : State} {i : Instr}

/-- R24: the framer runs the character row decoded at its cursor. -/
theorem fetchNext_framing {ps : Nat} {chars : List Byte} {cursor : Nat} (hu : s.unit = .framing ps chars cursor)
    (hi : decodeIn s.cfg .character (chars.drop cursor) = .ok i) : fetchNext s = .run i s := by
  simp [fetchNext, hu, hi]

/-- R151: `HDR_DECODE` runs the header row of its byte. -/
theorem fetchNext_decodingHeader {b : Byte} (hu : s.unit = .decodingHeader b)
    (hi : decodeIn s.cfg .header [b] = .ok i) : fetchNext s = .run i s := by
  simp [fetchNext, hu, hi]

/-- R161 to R163: the header row decoded at the front of the bytes before the checksum byte is run. -/
theorem fetchHeader_run {bytes : List Byte} {length : Nat} (failed : State)
    (hi : decodeIn s.cfg .header (bytes.take (length - 1)) = .ok i) : fetchHeader bytes length s failed = .run i s := by
  simp [fetchHeader, regionAt, hi]

/-- R160: the locator runs the header row of its bytes. -/
theorem fetchNext_locating {bytes : List Byte} {length : Nat} (hu : s.unit = .locating bytes length)
    (hi : decodeIn s.cfg .header (bytes.take (length - 1)) = .ok i) : fetchNext s = .run i s := by
  simp [fetchNext, hu, fetchHeader_run _ hi]

/-- R204: the router, in a map that is not halted, runs the header row of its bytes. -/
theorem fetchNext_parsing {bytes : List Byte} {length : Nat} (hu : s.unit = .parsing bytes length)
    (hm : s.mapFault = false) (hi : decodeIn s.cfg .header (bytes.take (length - 1)) = .ok i) :
    fetchNext s = .run i s := by
  simp [fetchNext, hu, hm, fetchHeader_run _ hi]

/-- R25: the decoder runs the command word decoded at `dpos`, before the end of its region. -/
theorem fetchNext_words {d : Domain} {bytes : List Byte} {stop dpos : Nat} {subs : List SubCmd}
    (hu : s.unit = .words d bytes stop dpos subs) (hd : dpos < stop)
    (hi : decodeIn s.cfg (.word d) ((bytes.take stop).drop dpos) = .ok i) : fetchNext s = .run i s := by
  simp [fetchNext, hu, regionAt, hi, Nat.not_le.mpr hd]

/-- R12, R44: an idle block takes the oldest invocation, to run whole. -/
theorem fetchNext_whole {rest : List Invocation} (hu : s.unit = .idle)
    (hp : s.pending = { op := i, stepped := false } :: rest) : fetchNext s = .run i { s with pending := rest } := by
  simp [fetchNext, hu, hp]

/-- R8, R44: an idle block begins the oldest invocation, if the host asks for it to be stepped. -/
theorem fetchNext_stepped {rest : List Invocation} (hu : s.unit = .idle)
    (hp : s.pending = { op := i, stepped := true } :: rest) :
    fetchNext s = beginStepped i { s with pending := rest } := by
  simp [fetchNext, hu, hp]

end Fetch

/-- Settles O54: under a legal `Config` a step is what it fetches, and each unit fetches the instruction decoded where it
stands. -/
theorem stepRunsTheDecodedInstruction : Obligations.StepRunsTheDecodedInstruction := by
  intro s i hc
  have run {u : State} (h : fetchNext s = .run i u) : step s = exec i u := step_of_fetch_run s u i hc h
  exact ⟨fun _ _ _ hu hi => run (fetchNext_framing hu hi), fun _ hu hi => run (fetchNext_decodingHeader hu hi),
    fun _ _ hu hi => run (fetchNext_locating hu hi), fun _ _ hu hm hi => run (fetchNext_parsing hu hm hi),
    fun _ _ _ _ _ hu hd hi => run (fetchNext_words hu hd hi), fun _ hu hp => run (fetchNext_whole hu hp)⟩

end Sys2Proof.Machine
end

section
/-! PROOFS. Runs of steps, and the framer: its steps take the turns of the chunk loop. -/

namespace Sys2Proof.Machine

/-! ### Runs of steps -/

/-- Some number of steps leads from `s` to `t`. -/
def RunsTo (s t : State) : Prop := ∃ n, stepTimes n s = .next t

/-- A run of no steps leads from a state to itself. -/
theorem RunsTo.refl (s : State) : RunsTo s s := ⟨0, rfl⟩

/-- A step and a run behind it are a run of a positive number of steps. -/
theorem stepTimes_of_step_runsTo {s u t : State} (h : step s = .next u) (hr : RunsTo u t) :
    ∃ n, 0 < n ∧ stepTimes n s = .next t := by
  obtain ⟨n, hn⟩ := hr
  exact ⟨n + 1, n.succ_pos, by simp [stepTimes, h, hn]⟩

/-- A step before a run is a run. -/
theorem RunsTo.head {s u t : State} (h : step s = .next u) (hr : RunsTo u t) : RunsTo s t :=
  let ⟨n, _, hn⟩ := stepTimes_of_step_runsTo h hr
  ⟨n, hn⟩

/-! ### The framer, stepped (R8, R113) -/

/-- R8: the framer, stepped, consumes the character at its cursor. -/
theorem step_framing {s : State} {ps : Nat} {chars : List Byte} {cursor : Nat} (hc : configLegal s.cfg = true)
    (hu : s.unit = .framing ps chars cursor) (h : cursor < chars.length) : step s = feedChar chars[cursor] s := by
  have hd : decodeIn s.cfg .character (chars.drop cursor) = .ok (decodeChar s.cfg chars[cursor]) := by
    rw [List.drop_eq_getElem_cons h]; rfl
  rw [step_of_fetch_run _ _ _ hc (fetchNext_framing hu hd), exec_decodeChar]

/-- R113: a turn of the chunk loop that returns, as the framer takes it. -/
theorem feedChar_of_done {s : State} {c : Byte} {ps : Nat} {chars : List Byte} {cursor k : Nat} {q : ParserState}
    (hu : s.unit = .framing ps chars cursor)
    (h : consumeChar s.cfg chars cursor (s.parser ps) c = some (q, k, true)) :
    feedChar c s = .next (s.framerReturned ps q k) := by
  simp [feedChar, hu, h, State.framerReturned]

/-- R113: a turn of the chunk loop that goes on, as the framer takes it. -/
theorem feedChar_of_going_on {s : State} {c : Byte} {ps : Nat} {chars : List Byte} {cursor k : Nat} {q : ParserState}
    (hu : s.unit = .framing ps chars cursor)
    (h : consumeChar s.cfg chars cursor (s.parser ps) c = some (q, k, false)) :
    feedChar c s = .next (s.framerMoved ps q chars k) := by
  by_cases hk : chars.length ≤ k <;> simp [feedChar, hu, h, State.framerMoved, hk]

/-- The framer's last write to its ParserState stands, where it returns. -/
theorem framerReturned_setParser {s : State} (ps : Nat) (p q : ParserState) (u : Activity) (k : Nat)
    (h : Memory.wf ParserState.reset s.parsers) :
    ((s.setParser ps p).continueAt u).framerReturned ps q k = s.framerReturned ps q k := by
  rw [State.framerReturned, State.framerReturned, ← State.setParser_setParser s ps p q h]; rfl

/-- The framer's last write to its ParserState stands, where it goes on. -/
theorem framerMoved_setParser {s : State} (ps : Nat) (p q : ParserState) (u : Activity) (chars : List Byte) (k : Nat)
    (h : Memory.wf ParserState.reset s.parsers) :
    ((s.setParser ps p).continueAt u).framerMoved ps q chars k = s.framerMoved ps q chars k := by
  rw [State.framerMoved, State.framerMoved, ← State.setParser_setParser s ps p q h]; rfl

/-- R113: a turn of the chunk loop goes on behind its character. -/
theorem consumeChar_going_on {cfg : Config} {chars : List Byte} {cursor k : Nat} {p q : ParserState} {c : Byte}
    (h : consumeChar cfg chars cursor p c = some (q, k, false)) : k = cursor + 1 := by
  rcases consumeChar_cases _ _ _ _ _ _ _ _ h with ⟨-, hk, -, -⟩ | ⟨-, -, hd, -⟩ | ⟨_, -, -, -, -, -, hd⟩
  · exact hk
  · cases hd
  · cases hd

/-- R8, R113: the framer, stepped from `cursor`, returns what the chunk loop returns, by induction on the characters that
are left. -/
theorem framerMoved_runsTo {s : State} {ps : Nat} {chars : List Byte} {d : Bool} {k : Nat} {r : ParserState}
    (hc : configLegal s.cfg = true) (hw : Memory.wf ParserState.reset s.parsers) (cursor : Nat) (p : ParserState)
    (hr : processChunk s.cfg chars cursor p = some (d, k, r)) :
    RunsTo (s.framerMoved ps p chars cursor) ((s.setParser ps r).finish (.chunk d k)) := by
  by_cases hend : chars.length ≤ cursor
  · rw [processChunk_end _ _ _ _ hend] at hr
    cases hr
    rw [State.framerMoved, if_pos hend]
    exact .refl _
  · have hlt : cursor < chars.length := by omega
    rw [processChunk_turn _ _ _ _ hlt] at hr
    rw [State.framerMoved, if_neg hend]
    have hstep := step_framing (s := (s.setParser ps p).continueAt (.framing ps chars cursor)) hc rfl hlt
    cases hq : consumeChar s.cfg chars cursor p chars[cursor] with
    | none => simp [hq] at hr
    | some turn =>
      obtain ⟨q, j, done⟩ := turn
      rw [hq] at hr
      rw [← State.parser_setParser s ps p] at hq
      cases done with
      | true =>
        cases hr
        have hreturns := hstep.trans (feedChar_of_done rfl hq)
        rw [framerReturned_setParser _ _ _ _ _ hw] at hreturns
        exact .head hreturns (.refl _)
      | false =>
        have hj := consumeChar_going_on hq
        have hmoves := hstep.trans (feedChar_of_going_on rfl hq)
        rw [framerMoved_setParser _ _ _ _ _ _ hw] at hmoves
        exact .head hmoves (framerMoved_runsTo hc hw j q hr)
termination_by chars.length - cursor
decreasing_by omega

end Sys2Proof.Machine
end

section
/-! PROOFS. The decoder and the router: their steps take the turns of the decode loop; and with them every operation, begun
stepped, reaches the state that it reaches whole (O55). -/

namespace Sys2Proof.Machine

/-! ### Bounded reads and the bytes the decoder has before it (R166) -/

/-- R166: a bounded read reads the bytes that are left before the end of the region, and fails past them. -/
theorem rd_eq_regionAt (bytes : List Byte) (stop dpos i : Nat) :
    rd bytes stop (dpos + i) = (regionAt bytes stop dpos)[i]?.elim (.error .fTrunc) .ok := by
  rw [rd, regionAt, List.getElem?_drop, List.getElem?_take]
  split
  · cases bytes[dpos + i]? <;> rfl
  · rfl

/-- R166: a byte that stands before the end of the region is read. -/
theorem rd_of_regionAt {bytes : List Byte} {stop dpos i : Nat} {b : Byte}
    (h : (regionAt bytes stop dpos)[i]? = some b) : rd bytes stop (dpos + i) = .ok b := by
  rw [rd_eq_regionAt, h]; rfl

/-! ### The header byte, stepped (R160 to R163, R204) -/

/-- R160: a locally-originated frame is located from its header byte, if it has one. -/
theorem locateApp_local (cfg : Config) (bytes : List Byte) (length : Nat) (f : Bool) :
    locateApp cfg bytes length false f =
      (rd bytes (length - 1) 0 >>= fun h => locateLocal cfg (headerDecode cfg h).addrType bytes (length - 1)) := by
  unfold locateApp
  by_cases h : length = 0
  · subst h; rfl
  · simp [h]

/-- R160: without a byte before the checksum byte there is no location. -/
theorem locateApp_of_no_header {cfg : Config} {bytes : List Byte} {length : Nat} (f : Bool)
    (h : bytes.take (length - 1) = []) : locateApp cfg bytes length false f = .error .fTrunc := by
  rw [locateApp_local, ← Nat.zero_add 0, rd_eq_regionAt, regionAt, h]
  rfl

/-- R160 to R163: the header byte is the first of the bytes before the checksum byte. -/
theorem locateApp_of_header {cfg : Config} {bytes tail : List Byte} {length : Nat} {h : Byte} (f : Bool)
    (hh : bytes.take (length - 1) = h :: tail) :
    locateApp cfg bytes length false f = locateLocal cfg (headerDecode cfg h).addrType bytes (length - 1) := by
  rw [locateApp_local, rd_of_regionAt (dpos := 0) (i := 0) (b := h) (by simp [regionAt, hh])]
  rfl

/-- R151: the header decoder, stepped, returns what `HDR_DECODE` answers. -/
theorem step_decodingHeader {s : State} {b : Byte} (hc : configLegal s.cfg = true) (hu : s.unit = .decodingHeader b) :
    step s = .next (s.finish (.header (headerDecode s.cfg b))) := by
  rw [step_of_fetch_run _ _ _ hc (fetchNext_decodingHeader hu rfl), exec_decodeHeaderByte]
  simp only [headerStep, hu]
  rfl

/-- R160: the locator, stepped, returns what `LOCATE_APP` answers. -/
theorem step_locating {s : State} {bytes : List Byte} {length : Nat} (f : Bool) (hc : configLegal s.cfg = true)
    (hu : s.unit = .locating bytes length) :
    step s = .next (s.finish (locatedResult (locateApp s.cfg bytes length false f))) := by
  cases hb : bytes.take (length - 1) with
  | nil =>
    have hf : fetchNext s = .settle (s.failDecode .fTrunc) := by
      simp [fetchNext, hu, fetchHeader, regionAt, hb, decodeIn]
    rw [step_of_fetch_settle _ _ hc hf, locateApp_of_no_header f hb]
    rfl
  | cons h tail =>
    have hi : decodeIn s.cfg .header (bytes.take (length - 1)) = .ok (decodeHeaderByte s.cfg h) := by rw [hb]; rfl
    rw [step_of_fetch_run _ _ _ hc (fetchNext_locating hu hi), exec_decodeHeaderByte, locateApp_of_header f hb]
    simp only [headerStep, hu]
    rfl

/-- R204: what a lookup leaves behind a location: the failed decode, or the decoder before the first command word. -/
def State.afterLocation (s : State) (bytes : List Byte) (stop : Nat) : Except DecodeCause (Byte × Nat) → State
  | .error e => s.shareMap.failDecode e
  | .ok loc => routeTo bytes stop loc s.shareMap

/-- R204: the router, stepped, goes on behind the location that `LOCATE_APP` answers. -/
theorem step_parsing {s : State} {bytes : List Byte} {length : Nat} (f : Bool) (hc : configLegal s.cfg = true)
    (hu : s.unit = .parsing bytes length) (hm : s.mapFault = false) :
    step s = .next (s.afterLocation bytes (length - 1) (locateApp s.cfg bytes length false f)) := by
  cases hb : bytes.take (length - 1) with
  | nil =>
    have hf : fetchNext s = .settle (s.shareMap.failDecode .fTrunc) := by
      simp [fetchNext, hu, hm, fetchHeader, regionAt, hb, decodeIn]
    rw [step_of_fetch_settle _ _ hc hf, locateApp_of_no_header f hb]
    rfl
  | cons h tail =>
    have hi : decodeIn s.cfg .header (bytes.take (length - 1)) = .ok (decodeHeaderByte s.cfg h) := by rw [hb]; rfl
    rw [step_of_fetch_run _ _ _ hc (fetchNext_parsing hu hm hi), exec_decodeHeaderByte, locateApp_of_header f hb]
    simp only [headerStep, hu, hm, headerDecode]
    cases locateLocal s.cfg (addrTypeOf s.cfg (headerCode h)) bytes (length - 1) <;> rfl

/-! ### A command word, whole and stepped (R167 to R179) -/

section CommandWord

variable {cfg : Config} {d : Domain} {bytes : List Byte} {stop dpos k : Nat} {id g x : Byte}

/-- R171: a LONG word lies before the end of the region, or the decode fails. -/
theorem wordAt_long (hr : rd bytes stop dpos = .ok id) (hl : isLongForm id = true) :
    wordAt cfg d bytes stop dpos =
      if dpos + 1 + longLength id ≤ stop then .ok (none, 1 + longLength id) else .error .fTrunc := by
  simp only [wordAt, hr, hl, bind, Except.bind, if_true]

/-- R170: an unrecognised id fails the decode. -/
theorem wordAt_unknown (hr : rd bytes stop dpos = .ok id) (hl : isLongForm id = false)
    (hs : shortForm cfg d id = none) : wordAt cfg d bytes stop dpos = .error .fUnknownId := by
  simp [wordAt, hr, hl, hs, bind, Except.bind]

/-- R168: a short-form word that passes the end of the region fails the decode. -/
theorem wordAt_truncated (hr : rd bytes stop dpos = .ok id) (hl : isLongForm id = false)
    (hs : shortForm cfg d id = some k) (h : stop < dpos + 1 + k) : wordAt cfg d bytes stop dpos = .error .fTrunc := by
  simp [wordAt, hr, hl, hs, bind, Except.bind, Nat.not_le.mpr h]

/-- R169: a short-form word with one trailing byte. -/
theorem wordAt_one (hr : rd bytes stop dpos = .ok id) (hl : isLongForm id = false)
    (hs : shortForm cfg d id = some 1) (hg : rd bytes stop (dpos + 1) = .ok g) :
    wordAt cfg d bytes stop dpos = .ok (some { id, group := g, param := none }, 2) := by
  have hfit := ((rd_eq_ok _ _ _ _).mp hg).1
  simp [wordAt, hr, hl, hs, hg, bind, Except.bind, Nat.succ_le_of_lt hfit]

/-- R169: a short-form word with two trailing bytes. -/
theorem wordAt_two (hr : rd bytes stop dpos = .ok id) (hl : isLongForm id = false)
    (hs : shortForm cfg d id = some 2) (hg : rd bytes stop (dpos + 1) = .ok g)
    (hx : rd bytes stop (dpos + 2) = .ok x) :
    wordAt cfg d bytes stop dpos = .ok (some { id, group := g, param := some x }, 3) := by
  have hfit := ((rd_eq_ok _ _ _ _).mp hx).1
  simp [wordAt, hr, hl, hs, hg, hx, bind, Except.bind, Nat.succ_le_of_lt hfit]

end CommandWord

/-- R85, R87: under a legal `Config` the id EVENT is none of the ids with one trailing byte. -/
theorem shortForm_trigEvent {cfg : Config} (hc : configLegal cfg = true) :
    shortForm cfg .trigger trigEvent = some 2 := by
  obtain ⟨-, -, -, -, -, -, -, -, -, -, hids, -⟩ := (configLegal_iff cfg).mp hc
  obtain ⟨hne, -⟩ := List.pairwise_cons.mp hids
  simp [shortForm, hne cfg.trigMin, hne cfg.trigMax, hne cfg.trigKill]

/-- R167: the state behind a command word: the decoder behind it, or the failed decode. -/
def State.afterWord (s : State) (d : Domain) (bytes : List Byte) (stop dpos : Nat) (subs : List SubCmd) :
    Except DecodeCause (Option SubCmd × Nat) → State
  | .ok (sc, len) => enterWords d bytes stop (dpos + len) (subs ++ sc.toList) s
  | .error e => s.failDecode e

/-- R25, R168: what the decoder, stepped, does with the command word it has read. -/
def State.runWord (s : State) : Except DecodeError Instr → Answer
  | .ok i => exec i s
  | .error _ => .next (s.failDecode .fTrunc)

/-- R168: a word that is cut off fails the decode, whole and stepped. -/
theorem State.runWord_truncated {s : State} {d : Domain} {bytes : List Byte} {stop dpos : Nat}
    {subs : List SubCmd} {e : DecodeCause} {x : DecodeError}
    (hw : wordAt s.cfg d bytes stop dpos = .error e) :
    s.runWord (.error x) = .next (s.afterWord d bytes stop dpos subs (wordAt s.cfg d bytes stop dpos)) := by
  rw [hw]; rfl

/-- The decoder stands before a command word: the bytes of its region from `dpos` on are `id` and `rest`. -/
structure AtWord (s : State) (d : Domain) (bytes : List Byte) (stop dpos : Nat) (subs : List SubCmd) (id : Byte)
    (rest : List Byte) : Prop where
  unit : s.unit = .words d bytes stop dpos subs
  region : regionAt bytes stop dpos = id :: rest
  inside : stop ≤ bytes.length

/-- Before the end of its region the decoder stands before a command word. -/
theorem atWord_of_lt {s : State} {d : Domain} {bytes : List Byte} {stop dpos : Nat} {subs : List SubCmd}
    (hu : s.unit = .words d bytes stop dpos subs) (hs : stop ≤ bytes.length) (hd : dpos < stop) :
    ∃ id rest, AtWord s d bytes stop dpos subs id rest := by
  have hlen : dpos < (bytes.take stop).length := by rw [List.length_take]; omega
  exact ⟨_, _, hu, List.drop_eq_getElem_cons hlen, hs⟩

namespace AtWord

variable {s : State} {d : Domain} {bytes rest : List Byte} {stop dpos : Nat} {subs : List SubCmd} {id : Byte}

/-- The region has the id and the bytes behind it. -/
theorem stop_eq (h : AtWord s d bytes stop dpos subs id rest) : stop = dpos + 1 + rest.length := by
  have hlen := congrArg List.length h.region
  have hs := h.inside
  rw [regionAt, List.length_drop, List.length_take, List.length_cons] at hlen
  omega

theorem rd_id (h : AtWord s d bytes stop dpos subs id rest) : rd bytes stop dpos = .ok id :=
  rd_of_regionAt (i := 0) (by rw [h.region]; rfl)

theorem rd_first {g : Byte} {tail : List Byte} (h : AtWord s d bytes stop dpos subs id (g :: tail)) :
    rd bytes stop (dpos + 1) = .ok g :=
  rd_of_regionAt (by rw [h.region]; rfl)

theorem rd_second {g x : Byte} {tail : List Byte} (h : AtWord s d bytes stop dpos subs id (g :: x :: tail)) :
    rd bytes stop (dpos + 2) = .ok x :=
  rd_of_regionAt (by rw [h.region]; rfl)

/-- R171 to R179: a word of the decoder's domain advances the decoder, where `wordAt` reads it. -/
theorem wordStep_eq (h : AtWord s d bytes stop dpos subs id rest) {inDomain : Domain → Bool} {len : Nat}
    {sc : Option SubCmd} (hd : inDomain d = true) (hw : wordAt s.cfg d bytes stop dpos = .ok (sc, len)) :
    wordStep inDomain len sc s = .next (s.afterWord d bytes stop dpos subs (wordAt s.cfg d bytes stop dpos)) := by
  have hfit := (wordAt_fits _ _ _ _ _ _ _ hw).2
  simp [wordStep, h.unit, hd, hfit, hw, State.afterWord]

/-- R171: a LONG word, whole and stepped. -/
theorem runWord_decodeLong (h : AtWord s d bytes stop dpos subs id rest) (hl : isLongForm id = true) :
    s.runWord (decodeLong id rest) =
      .next (s.afterWord d bytes stop dpos subs (wordAt s.cfg d bytes stop dpos)) := by
  have hstop := h.stop_eq
  have hw := wordAt_long (cfg := s.cfg) (d := d) h.rd_id hl
  unfold decodeLong
  split
  · rw [if_pos (by omega)] at hw
    exact h.wordStep_eq rfl hw
  · rw [if_neg (by omega)] at hw
    exact State.runWord_truncated hw

/-- R172 to R174, R177 to R179: a word with one trailing byte, whole and stepped. -/
theorem runWord_decodeS1 (h : AtWord s d bytes stop dpos subs id rest) {mk : Byte → Instr} {inDomain : Domain → Bool}
    (hmk : ∀ g, exec (mk g) s = wordStep inDomain 2 (some { id, group := g, param := none }) s)
    (hd : inDomain d = true) (hl : isLongForm id = false) (hs : shortForm s.cfg d id = some 1) :
    s.runWord (decodeS1 mk rest) =
      .next (s.afterWord d bytes stop dpos subs (wordAt s.cfg d bytes stop dpos)) := by
  match rest with
  | [] => exact State.runWord_truncated (wordAt_truncated h.rd_id hl hs (by simp [h.stop_eq]))
  | g :: tail => exact (hmk g).trans (h.wordStep_eq hd (wordAt_one h.rd_id hl hs h.rd_first))

/-- R175, R176: a word with two trailing bytes, whole and stepped. -/
theorem runWord_decodeS2 (h : AtWord s d bytes stop dpos subs id rest) {mk : Byte → Byte → Instr}
    {inDomain : Domain → Bool}
    (hmk : ∀ g x, exec (mk g x) s = wordStep inDomain 3 (some { id, group := g, param := some x }) s)
    (hd : inDomain d = true) (hl : isLongForm id = false) (hs : shortForm s.cfg d id = some 2) :
    s.runWord (decodeS2 mk rest) =
      .next (s.afterWord d bytes stop dpos subs (wordAt s.cfg d bytes stop dpos)) := by
  match rest with
  | [] => exact State.runWord_truncated (wordAt_truncated h.rd_id hl hs (by simp [h.stop_eq]))
  | [_] => exact State.runWord_truncated (wordAt_truncated h.rd_id hl hs (by simp [h.stop_eq]))
  | g :: x :: tail => exact (hmk g x).trans (h.wordStep_eq hd (wordAt_two h.rd_id hl hs h.rd_first h.rd_second))

/-- R170: an unrecognised id, whole and stepped. -/
theorem runWord_unknown (h : AtWord s d bytes stop dpos subs id rest) {i : Instr}
    (hi : exec i s = unknownIdStep d s) (hl : isLongForm id = false) (hs : shortForm s.cfg d id = none) :
    s.runWord (.ok i) = .next (s.afterWord d bytes stop dpos subs (wordAt s.cfg d bytes stop dpos)) := by
  rw [wordAt_unknown h.rd_id hl hs, State.runWord, hi]
  simp [unknownIdStep, h.unit, State.afterWord]

/-- R167, R171 to R179: the decoder, stepped, does with every command word what the decode loop does, by the rows of its
domain's table. -/
theorem runWord_decodeWord (h : AtWord s d bytes stop dpos subs id rest) (hc : configLegal s.cfg = true) :
    s.runWord (decodeWord s.cfg d id rest) =
      .next (s.afterWord d bytes stop dpos subs (wordAt s.cfg d bytes stop dpos)) := by
  unfold decodeWord
  split
  · exact h.runWord_decodeLong ‹_›
  · rename_i hlong
    have hl : isLongForm id = false := by simpa using hlong
    match d with
    | .lighting =>
      dsimp only
      split_ifs with hon hoff hterm hramp
      · subst hon
        exact h.runWord_decodeS1 (fun _ => rfl) rfl hl (by simp [shortForm])
      · subst hoff
        exact h.runWord_decodeS1 (fun _ => rfl) rfl hl (by simp [shortForm])
      · subst hterm
        exact h.runWord_decodeS1 (fun _ => rfl) rfl hl (by simp [shortForm])
      · exact h.runWord_decodeS2 (fun _ _ => rfl) rfl hl (by simp only [shortForm, hon, hoff, hterm, hramp]; rfl)
      · exact h.runWord_unknown rfl hl (by simp only [shortForm, hon, hoff, hterm, hramp]; rfl)
    | .trigger =>
      dsimp only
      split_ifs with hevent hmin hmax hkill
      · subst hevent
        exact h.runWord_decodeS2 (fun _ _ => rfl) rfl hl (shortForm_trigEvent hc)
      · subst hmin
        exact h.runWord_decodeS1 (fun _ => rfl) rfl hl (by simp [shortForm])
      · subst hmax
        exact h.runWord_decodeS1 (fun _ => rfl) rfl hl (by simp [shortForm])
      · subst hkill
        exact h.runWord_decodeS1 (fun _ => rfl) rfl hl (by simp [shortForm])
      · exact h.runWord_unknown rfl hl (by simp only [shortForm, hevent, hmin, hmax, hkill]; rfl)

/-- R25, R167: a step of the decoder takes one turn of the decode loop. -/
theorem step_eq (h : AtWord s d bytes stop dpos subs id rest) (hc : configLegal s.cfg = true) :
    step s = .next (s.afterWord d bytes stop dpos subs (wordAt s.cfg d bytes stop dpos)) := by
  have hstop := h.stop_eq
  have hd : dpos < stop := by omega
  have hi : decodeIn s.cfg (.word d) (regionAt bytes stop dpos) = decodeWord s.cfg d id rest := by rw [h.region]; rfl
  rw [← h.runWord_decodeWord hc]
  cases hw : decodeWord s.cfg d id rest with
  | ok i => exact step_of_fetch_run _ _ _ hc (fetchNext_words h.unit hd (hi.trans hw))
  | error e =>
    refine step_of_fetch_settle _ _ hc ?_
    simp [fetchNext, h.unit, Nat.not_le.mpr hd, hi, hw]

end AtWord

/-- R167, R204: the result of a decode that stands behind the sub-commands `subs`. -/
def decodedBehind (d : Domain) (subs : List SubCmd) : Except DecodeCause (List SubCmd) → Result
  | .ok later => .sal { domain := d, subs := subs ++ later, ackChar := none }
  | .error _ => .absent

/-- R167: the sub-commands of a word, put before those of the words behind it. -/
theorem decodedBehind_append (d : Domain) (subs word : List SubCmd) (later : Except DecodeCause (List SubCmd)) :
    decodedBehind d subs (later.map (word ++ ·)) = decodedBehind d (subs ++ word) later := by
  cases later with
  | error e => rfl
  | ok later => simp [decodedBehind, Except.map]

/-- R167: the decode loop, before the end of its region, takes one command word and puts its sub-commands first. -/
theorem decodeSubs_of_wordAt {cfg : Config} {d : Domain} {bytes : List Byte} {stop dpos len : Nat} {sc : Option SubCmd}
    (hd : dpos < stop) (hw : wordAt cfg d bytes stop dpos = .ok (sc, len)) :
    decodeSubs cfg d bytes dpos stop = (decodeSubs cfg d bytes (dpos + len) stop).map (sc.toList ++ ·) := by
  rw [decodeSubs_word _ _ _ _ _ hd, hw]
  dsimp only
  cases decodeSubs cfg d bytes (dpos + len) stop <;> rfl

/-- R167: a word that fails fails the decode loop. -/
theorem decodeSubs_of_wordAt_error {cfg : Config} {d : Domain} {bytes : List Byte} {stop dpos : Nat} {e : DecodeCause}
    (hd : dpos < stop) (hw : wordAt cfg d bytes stop dpos = .error e) :
    decodeSubs cfg d bytes dpos stop = .error e := by
  rw [decodeSubs_word _ _ _ _ _ hd, hw]

/-- R8, R167: the decoder, stepped from `dpos`, returns what the decode loop returns, by induction on the bytes that are
left of the region. -/
theorem enterWords_runsTo {s : State} {d : Domain} {bytes : List Byte} {stop : Nat} (hc : configLegal s.cfg = true)
    (hs : stop ≤ bytes.length) (dpos : Nat) (subs : List SubCmd) :
    RunsTo (enterWords d bytes stop dpos subs s)
      (s.finish (decodedBehind d subs (decodeSubs s.cfg d bytes dpos stop))) := by
  by_cases hend : stop ≤ dpos
  · rw [enterWords, if_pos hend, decodeSubs_end _ _ _ _ _ hend, decodedBehind, List.append_nil]
    exact .refl _
  · have hlt : dpos < stop := by omega
    rw [enterWords, if_neg hend]
    obtain ⟨id, rest, hat⟩ := atWord_of_lt (s := s.continueAt (.words d bytes stop dpos subs)) rfl hs hlt
    refine .head (hat.step_eq hc) ?_
    rw [State.continueAt_cfg]
    cases hw : wordAt s.cfg d bytes stop dpos with
    | error e =>
      rw [decodeSubs_of_wordAt_error hlt hw]
      exact .refl _
    | ok word =>
      obtain ⟨sc, len⟩ := word
      have hfit := wordAt_fits _ _ _ _ _ _ _ hw
      rw [decodeSubs_of_wordAt hlt hw, decodedBehind_append]
      exact enterWords_runsTo hc hs (dpos + len) (subs ++ sc.toList)
termination_by stop - dpos
decreasing_by omega

/-! ### A lookup, stepped (R204) -/

/-- R204: the location `loc` is routed to its domain's decoder, whole and stepped. -/
theorem routeTo_runsTo {s : State} {bytes : List Byte} {stop : Nat} (hc : configLegal s.cfg = true)
    (hs : stop ≤ bytes.length) (loc : Byte × Nat) :
    RunsTo (routeTo bytes stop loc s) (s.finish (salResult (dispatchApp s bytes stop loc))) := by
  unfold routeTo dispatchApp
  cases s.domainAt loc.1 with
  | none => exact .refl _
  | some d =>
    have hrun := enterWords_runsTo (d := d) hc hs loc.2 []
    dsimp only
    cases hl : decodeSubs s.cfg d bytes loc.2 stop with
    | error e => rw [hl] at hrun; exact hrun
    | ok subs => rw [hl] at hrun; exact hrun

/-- R204: behind its location a lookup, stepped, returns what `TRY_PARSE` answers. -/
theorem afterLocation_runsTo {s : State} {bytes : List Byte} {length : Nat} (hc : configLegal s.cfg = true)
    (hl : length ≤ bytes.length) (m f : Bool) :
    RunsTo (s.afterLocation bytes (length - 1) (locateApp s.cfg bytes length m f))
      (s.shareMap.finish (salResult (tryParse s bytes length m f))) := by
  unfold tryParse
  cases locateApp s.cfg bytes length m f with
  | error e => exact .refl _
  | ok loc => exact routeTo_runsTo (s := s.shareMap) hc (by omega) loc

/-! ### Operations, begun stepped -/

/-- The operation `op`, begun stepped in `s`, leads to `t`: it begins, and its unit runs to `t`. -/
def BeginsTo (op : Instr) (s t : State) : Prop := ∃ u, beginStepped op s = .settle u ∧ RunsTo u t

/-- R41: with no unit in the middle of an operation, ending one and returning from one are the same. -/
theorem State.finish_eq_ret {s : State} (hu : s.unit = .idle) (hd : s.decoding = none) (r : Result) :
    s.finish r = s.ret r := by
  rw [State.finish, State.ret, ← hu, ← hd]

/-- R259: nothing holds a ParserState while no unit is in the middle of an operation. -/
theorem decoding_eq_none_of_idle {s : State} (h : StateInv s) (hu : s.unit = .idle) : s.decoding = none := by
  have hd := h.decodingInv
  simpa [State.routerBusy, hu] using hd

/-- R113: `PROCESS_CHUNK` with characters left to consume, stepped, leads where it leads whole. -/
theorem processChunk_beginsTo {s t : State} {ps : Nat} {chars : List Byte} {length cursor : Nat}
    (hc : configLegal s.cfg = true) (hw : Memory.wf ParserState.reset s.parsers) (hu : s.unit = .idle)
    (hd : s.decoding = none) (hlc : length ≠ cursor)
    (h : execProcessChunk ps chars length cursor s = .next t) :
    BeginsTo (.processChunk ps chars length cursor) s t := by
  obtain ⟨hcall, d, k, q, hq, rfl⟩ := execProcessChunk_next h
  have hr := not_refused_of_chunkCallLegal hcall
  obtain ⟨-, hlen, -, hcur⟩ := hcall
  have hmoved : s.continueAt (.framing ps (chars.take length) cursor) =
      s.framerMoved ps (s.parser ps) (chars.take length) cursor := by
    rw [State.framerMoved, if_neg (by rw [List.length_take]; omega), State.setParser_parser _ _ hw]
  have hbegin : beginStepped (.processChunk ps chars length cursor) s =
      .settle (s.continueAt (.framing ps (chars.take length) cursor)) := by
    simp [beginStepped, hr, hlc]
  rw [hmoved] at hbegin
  rw [← State.finish_eq_ret (s := s.setParser ps q) hu hd]
  exact ⟨_, hbegin, framerMoved_runsTo hc hw cursor _ hq⟩

/-- R151: `HDR_DECODE`, stepped, leads where it leads whole. -/
theorem hdrDecode_beginsTo {s : State} (b : Byte) (hc : configLegal s.cfg = true) (hu : s.unit = .idle)
    (hd : s.decoding = none) : BeginsTo (.hdrDecode b) s (s.ret (.header (headerDecode s.cfg b))) := by
  rw [← State.finish_eq_ret hu hd]
  exact ⟨_, rfl, .head (step_decodingHeader (s := s.continueAt (.decodingHeader b)) hc rfl) (.refl _)⟩

/-- R160: `LOCATE_APP` of a locally-originated frame, stepped, leads where it leads whole. -/
theorem locateApp_beginsTo {s t : State} {bytes : List Byte} {length : Nat} {f : Bool} (hc : configLegal s.cfg = true)
    (hu : s.unit = .idle) (hd : s.decoding = none) (h : execLocateApp bytes length false f s = .next t) :
    BeginsTo (.locateApp bytes length false f) s t := by
  unfold execLocateApp at h
  split at h
  · cases h
  · rename_i hl
    cases h
    refine ⟨_, if_neg hl, .head (step_locating f hc rfl) ?_⟩
    rw [← State.finish_eq_ret hu hd]
    exact .refl _

/-- R204: a lookup that begins stepped returns what `TRY_PARSE` answers: a monitored reply is located at once, a
locally-originated frame from its header byte. -/
theorem beginLookup_runsTo {s : State} {bytes : List Byte} {length : Nat} (m f : Bool) (hc : configLegal s.cfg = true)
    (hm : s.mapFault = false) (hl : length ≤ bytes.length) :
    ∃ u, beginLookup bytes length m f s = .settle u ∧
      RunsTo u (s.shareMap.finish (salResult (tryParse s bytes length m f))) := by
  have hrun := afterLocation_runsTo hc hl m f
  cases m with
  | false =>
    exact ⟨_, rfl, .head (step_parsing (s := s.shareMap.continueAt (.parsing bytes length)) f hc rfl hm) hrun⟩
  | true =>
    refine ⟨_, ?_, hrun⟩
    rw [beginLookup, if_pos rfl]
    cases locateApp s.cfg bytes length true f <;> rfl

/-- R204: `TRY_PARSE`, stepped, leads where it leads whole. -/
theorem tryParse_beginsTo {s t : State} {bytes : List Byte} {length : Nat} {m f : Bool} (hc : configLegal s.cfg = true)
    (hu : s.unit = .idle) (hd : s.decoding = none) (h : execTryParse bytes length m f s = .next t) :
    BeginsTo (.tryParse bytes length m f) s t := by
  obtain ⟨hm, hl, rfl⟩ := execTryParse_next h
  have hr : parseRefusal bytes length s = none := by simp [parseRefusal, hm, Nat.not_lt.mpr hl]
  rw [BeginsTo, beginStepped, hr, lookupBytes, ← State.finish_eq_ret (s := s.shareMap) hu hd]
  exact beginLookup_runsTo m f hc hm hl

/-- R206: `DECODE_FRAME`, stepped, leads where it leads whole; the hold on its ParserState ends with it. -/
theorem decodeFrame_beginsTo {s t : State} {ps : Nat} {f : Bool} (hc : configLegal s.cfg = true)
    (hu : s.unit = .idle) (hd : s.decoding = none) (h : execDecodeFrame ps f s = .next t) :
    BeginsTo (.decodeFrame ps f) s t := by
  obtain ⟨hm, hb, hf, rfl⟩ := execDecodeFrame_next h
  have hr : frameRefusal ps s = none := by simp [frameRefusal, hm, hb, hf]
  rw [BeginsTo, beginStepped, hr, lookupBytes, ← State.finish_eq_ret (s := s.shareMap) hu hd]
  exact beginLookup_runsTo (s := s.holdParser ps) _ f hc hm le_rfl

/-- R8, R12: an operation begun stepped either runs whole, or leads where it leads whole. -/
theorem beginStepped_agrees {s t : State} {op : Instr} (hc : configLegal s.cfg = true)
    (hw : Memory.wf ParserState.reset s.parsers) (hu : s.unit = .idle) (hd : s.decoding = none)
    (h : exec op s = .next t) : beginStepped op s = .run op s ∨ BeginsTo op s t := by
  cases op with
  | processChunk ps chars length cursor =>
    obtain rfl | hlc := eq_or_ne length cursor
    · have hcall := (execProcessChunk_next h).1
      have hr := not_refused_of_chunkCallLegal hcall
      exact .inl (by simp [beginStepped, hr])
    · exact .inr (processChunk_beginsTo hc hw hu hd hlc h)
  | hdrDecode b => cases h; exact .inr (hdrDecode_beginsTo b hc hu hd)
  | locateApp bytes length m f =>
    cases m with
    | false => exact .inr (locateApp_beginsTo hc hu hd h)
    | true => exact .inl rfl
  | tryParse => exact .inr (tryParse_beginsTo hc hu hd h)
  | decodeFrame => exact .inr (decodeFrame_beginsTo hc hu hd h)
  | _ => exact .inl rfl

/-- Settles O55: the step that takes the invocation begins the operation or runs it whole, and from its beginning
`beginStepped_agrees` leads to the state of the whole operation. -/
theorem steppedOperationsAgree : Obligations.SteppedOperationsAgree := by
  intro s t op rest hinv hc hu hp h
  have hf := fetchNext_stepped hu hp
  have hd := decoding_eq_none_of_idle hinv hu
  rcases beginStepped_agrees (s := { s with pending := rest }) hc hinv.parsersWf hu hd h with hrun | ⟨u, hbegin, hrun⟩
  · rw [← step_of_fetch_run _ _ _ hc (hf.trans hrun)] at h
    exact stepTimes_of_step_runsTo h (.refl t)
  · exact stepTimes_of_step_runsTo (step_of_fetch_settle _ _ hc (hf.trans hbegin)) hrun

end Sys2Proof.Machine
end

section
/-! PROOFS. What an instruction leaves alone: the parameters (O47), the ParserStates (O45), the map and `map_fault` (O36,
O38); and the rows that no unit reads (O51). -/

namespace Sys2Proof.Machine

/-! ### What `exec` leaves alone (R21, R31, R32, R33, R35) -/

/-- R170: an unrecognised id changes only the position and the result. -/
theorem unknownIdStep_frame {d : Domain} {s t : State} (h : unknownIdStep d s = .next t) :
    t.cfg = s.cfg ∧ t.parsers = s.parsers ∧ t.map = s.map ∧ t.mapFault = s.mapFault := by
  obtain ⟨-, rfl⟩ := unknownIdStep_next _ _ _ h
  simp

/-- R204: a lookup from bytes writes the map's lifecycle phase and the result. -/
theorem lookupBytes_frame (bytes : List Byte) (length : Nat) (m f : Bool) (s : State) :
    let t := lookupBytes bytes length m f s
    t.cfg = s.cfg ∧ t.parsers = s.parsers ∧ t.map = s.map ∧ t.mapFault = s.mapFault := by
  simp [lookupBytes]

/-- R201: `ADD_MAPPING` writes no ParserState and no parameter. -/
theorem execAddMapping_frame {d : Domain} {a : Byte} {s t : State} (h : execAddMapping d a s = .next t) :
    t.cfg = s.cfg ∧ t.parsers = s.parsers := by
  obtain ⟨-, -, -, ⟨-, rfl⟩ | ⟨-, rfl⟩ | ⟨_, -, -, rfl⟩⟩ := execAddMapping_next h <;> simp

/-- R31: a character row may write a ParserState. -/
theorem mayWriteParser_of_charOf {cfg : Config} {i : Instr} {c : Byte} (h : charOf cfg i = some c) :
    mayWriteParser cfg i = true := by
  unfold mayWriteParser
  split
  · rfl
  · rfl
  · rfl
  · rw [h]; rfl

/-- R31, R32, R33, R35: no instruction writes a parameter; only `HW_RESET` and `ADD_MAPPING` write the map and `map_fault`;
and only the instructions that R31 names write a ParserState. -/
theorem exec_frame {i : Instr} {s t : State} (h : exec i s = .next t) :
    t.cfg = s.cfg ∧
    (i ≠ .hwReset → (∀ d a, i ≠ .addMapping d a) → t.map = s.map ∧ t.mapFault = s.mapFault) ∧
    (mayWriteParser s.cfg i = false → t.parsers = s.parsers) := by
  cases exec_next i s t h with
  | character c hc h =>
    obtain ⟨hcfg, hmap, hfault, -⟩ := feedChar_frame h
    exact ⟨hcfg, fun _ _ => ⟨hmap, hfault⟩, fun hw => absurd (mayWriteParser_of_charOf hc) (by simp [hw])⟩
  | headerByte _ _ _ h =>
    obtain ⟨hcfg, hparsers, hmap, hfault, -⟩ := headerStep_frame h
    exact ⟨hcfg, fun _ _ => ⟨hmap, hfault⟩, fun _ => hparsers⟩
  | commandWord _ _ _ _ h =>
    obtain ⟨hcfg, hparsers, hmap, hfault, -⟩ := wordStep_frame h
    exact ⟨hcfg, fun _ _ => ⟨hmap, hfault⟩, fun _ => hparsers⟩
  | unknownId _ _ h =>
    obtain ⟨hcfg, hparsers, hmap, hfault⟩ := unknownIdStep_frame h
    exact ⟨hcfg, fun _ _ => ⟨hmap, hfault⟩, fun _ => hparsers⟩
  | hwReset h => cases h; exact ⟨rfl, fun hi => absurd rfl hi, fun hw => by cases hw⟩
  | psReset _ h =>
    obtain ⟨-, rfl⟩ := execPsReset_next h
    exact ⟨rfl, fun _ _ => ⟨rfl, rfl⟩, fun hw => by cases hw⟩
  | processChunk _ _ _ _ h =>
    obtain ⟨-, _, _, _, -, rfl⟩ := execProcessChunk_next h
    exact ⟨rfl, fun _ _ => ⟨rfl, rfl⟩, fun hw => by cases hw⟩
  | tryParse _ _ _ _ h =>
    obtain ⟨-, -, rfl⟩ := execTryParse_next h
    obtain ⟨hcfg, hparsers, hmap⟩ := lookupBytes_frame _ _ _ _ s
    exact ⟨hcfg, fun _ _ => hmap, fun _ => hparsers⟩
  | decodeFrame _ _ h =>
    obtain ⟨-, -, -, rfl⟩ := execDecodeFrame_next h
    obtain ⟨hcfg, hparsers, hmap⟩ := lookupBytes_frame _ _ _ _ s
    exact ⟨hcfg, fun _ _ => hmap, fun _ => hparsers⟩
  | addMapping d a h =>
    obtain ⟨hcfg, hparsers⟩ := execAddMapping_frame h
    exact ⟨hcfg, fun _ hi => absurd rfl (hi d a), fun _ => hparsers⟩
  | pureResult => simp
  | pureBytes => simp
  | pureText => simp

/-- Settles O45: the frame of `exec` names the instructions that write a ParserState. -/
theorem onlyTheFramerWritesParserStates : Obligations.OnlyTheFramerWritesParserStates := by
  intro s t i h
  obtain ⟨-, -, hparsers⟩ := exec_frame h
  exact hparsers

/-! ### What a step leaves alone (R32) -/

/-- What a step finds to do goes on from a state with the parameters `cfg`. -/
def Fetched.HasCfg (cfg : Config) : Fetched → Prop
  | .run _ t => t.cfg = cfg
  | .settle t => t.cfg = cfg
  | .refuse _ => True

/-- R204: routing a location changes no parameter. -/
theorem routeTo_cfg (bytes : List Byte) (stop : Nat) (loc : Byte × Nat) (s : State) :
    (routeTo bytes stop loc s).cfg = s.cfg := by
  unfold routeTo
  split
  · rfl
  · exact (enterWords_frame _ _ _ _ _ _).1

/-- R32: beginning a lookup changes no parameter. -/
theorem beginLookup_hasCfg (bytes : List Byte) (length : Nat) (m f : Bool) (s : State) :
    (beginLookup bytes length m f s).HasCfg s.cfg := by
  unfold beginLookup
  split
  · split
    · rfl
    · exact routeTo_cfg _ _ _ _
  · rfl

/-- R32: beginning an operation changes no parameter. -/
theorem beginStepped_hasCfg (op : Instr) (s : State) : (beginStepped op s).HasCfg s.cfg := by
  cases op with
  | processChunk =>
    dsimp only [beginStepped]
    split
    · trivial
    · split <;> rfl
  | locateApp _ _ m =>
    cases m with
    | false => dsimp only [beginStepped]; split <;> trivial
    | true => rfl
  | tryParse =>
    dsimp only [beginStepped]
    split
    · trivial
    · exact beginLookup_hasCfg _ _ _ _ _
  | decodeFrame =>
    dsimp only [beginStepped]
    split
    · trivial
    · exact beginLookup_hasCfg _ _ _ _ _
  | _ => rfl

/-- R32: fetching a header byte changes no parameter, if failing to changes none. -/
theorem fetchHeader_hasCfg (bytes : List Byte) (length : Nat) {s failed : State} (h : failed.cfg = s.cfg) :
    (fetchHeader bytes length s failed).HasCfg s.cfg := by
  unfold fetchHeader
  split
  · rfl
  · exact h

/-- R32: finding what to do changes no parameter, whichever unit is in the middle of an operation. -/
theorem fetchNext_hasCfg (s : State) : (fetchNext s).HasCfg s.cfg := by
  unfold fetchNext
  split
  · split
    · rfl
    · split
      · exact beginStepped_hasCfg _ _
      · rfl
  · split <;> rfl
  · split <;> rfl
  · exact fetchHeader_hasCfg _ _ rfl
  · split
    · trivial
    · exact fetchHeader_hasCfg _ _ rfl
  · split
    · exact (enterWords_frame _ _ _ _ _ _).1
    · split <;> rfl

/-- R32: a step changes no parameter: neither the fetch nor the instruction does. -/
theorem step_cfg {s t : State} (h : step s = .next t) : t.cfg = s.cfg := by
  have hf := fetchNext_hasCfg s
  rcases step_cases h with ⟨i, u, hrun, hexec⟩ | hsettle
  · rw [hrun] at hf
    exact (exec_frame hexec).1.trans hf
  · rw [hsettle] at hf
    exact hf

/-- Settles O47: no instruction changes a parameter by the frame of `exec`, and no step does by `step_cfg`. -/
theorem parametersNeverChange : Obligations.ParametersNeverChange :=
  ⟨fun _ _ _ h => (exec_frame h).1, fun _ _ h => step_cfg h⟩

/-! ### The address map (R33, R35, R201) -/

/-- R201: `ADD_MAPPING` ends no binding. -/
theorem execAddMapping_keeps_binding {d e : Domain} {a x : Byte} {s t : State} (hw : Memory.wf none s.map)
    (h : execAddMapping d a s = .next t) (hx : s.domainAt x = some e) : t.domainAt x = some e := by
  obtain ⟨-, -, -, ⟨hfree, rfl⟩ | ⟨-, rfl⟩ | ⟨_, -, -, rfl⟩⟩ := execAddMapping_next h
  · have hne : x ≠ a := by
      rintro rfl
      simp [hfree] at hx
    rw [State.ret_domainAt, State.domainAt_bindAddress_other _ _ _ _ hw hne, hx]
  · exact hx
  · exact hx

/-- Settles O38: `ADD_MAPPING` ends no binding, and every other instruction but `HW_RESET` leaves the map as it is. -/
theorem bindingsPersist : Obligations.BindingsPersist := by
  intro s t i hinv h hreset
  obtain ⟨-, hmap, -⟩ := exec_frame h
  refine ⟨fun x e hx => ?_, hmap hreset⟩
  by_cases hi : ∃ d a, i = .addMapping d a
  · obtain ⟨d, a, rfl⟩ := hi
    exact execAddMapping_keeps_binding hinv.mapWf h hx
  · obtain ⟨hsame, -⟩ := hmap hreset fun d a he => hi ⟨d, a, he⟩
    rw [State.domainAt, hsame]
    exact hx

/-- R33: `map_fault` is sticky: no instruction but `HW_RESET` clears it. -/
theorem exec_keeps_mapFault {i : Instr} {s t : State} (h : exec i s = .next t) (hi : i ≠ .hwReset)
    (hf : s.mapFault = true) : t.mapFault = true := by
  have hadd (d : Domain) (a : Byte) : i ≠ .addMapping d a := by
    rintro rfl
    obtain ⟨hclear, -⟩ := execAddMapping_next h
    simp [hf] at hclear
  obtain ⟨-, hmap, -⟩ := exec_frame h
  exact (hmap hi hadd).2.trans hf

/-- R33: the three operations on the map are refused while `map_fault` is 1. -/
theorem exec_map_operations_refused {s : State} (hf : s.mapFault = true) :
    (∀ d a, exec (.addMapping d a) s = .refused .mapHalted) ∧
    (∀ bytes length m f, exec (.tryParse bytes length m f) s = .refused .mapHalted) ∧
    (∀ ps f, exec (.decodeFrame ps f) s = .refused .mapHalted) :=
  ⟨fun _ _ => by simp [exec, execAddMapping, hf],
   fun _ _ _ _ => by simp [exec, execTryParse, parseRefusal, hf],
   fun _ _ => by simp [exec, execDecodeFrame, frameRefusal, hf]⟩

/-- R203: `ADD_MAPPING` of an address bound to the other domain sets `map_fault`. -/
theorem exec_addMapping_conflict {s : State} {d e : Domain} {a : Byte} (hf : s.mapFault = false)
    (hs : s.mapShared = false) (hb : s.routerBusy = false) (ha : s.domainAt a = some e) (hne : e ≠ d) :
    exec (.addMapping d a) s = .next s.raiseConfigFault := by
  simp [exec, execAddMapping, hf, hs, hb, ha, hne]

/-! ### Where `map_fault` is not read (R33) -/

/-- R33: a character is consumed with `map_fault` = 1 too. -/
theorem feedChar_completes_halted {c : Byte} {s t : State} (h : feedChar c s = .next t) :
    ∃ u, feedChar c { s with mapFault := true } = .next u := by
  obtain ⟨ps, chars, cursor, q, k, done, hu, hq, -⟩ := feedChar_next _ _ _ h
  cases done with
  | true => exact ⟨_, feedChar_of_done hu hq⟩
  | false => exact ⟨_, feedChar_of_going_on hu hq⟩

/-- R33: a command word is decoded with `map_fault` = 1 too. -/
theorem wordStep_completes_halted {f : Domain → Bool} {len : Nat} {sc : Option SubCmd} {s t : State}
    (h : wordStep f len sc s = .next t) : ∃ u, wordStep f len sc { s with mapFault := true } = .next u := by
  obtain ⟨d, bytes, stop, dpos, subs, hu, hd, -⟩ := wordStep_next _ _ _ _ _ h
  by_cases hfit : dpos + len ≤ stop <;> exact ⟨_, by simp [wordStep, hu, hd, hfit]; rfl⟩

/-- R33: an unrecognised id fails the decode with `map_fault` = 1 too. -/
theorem unknownIdStep_completes_halted {d : Domain} {s t : State} (h : unknownIdStep d s = .next t) :
    ∃ u, unknownIdStep d { s with mapFault := true } = .next u := by
  obtain ⟨⟨bytes, stop, dpos, subs, hu⟩, -⟩ := unknownIdStep_next _ _ _ h
  exact ⟨_, by simp [unknownIdStep, hu]; rfl⟩

/-- R33: `PROCESS_CHUNK` answers with `map_fault` = 1 too. -/
theorem execProcessChunk_completes_halted {ps : Nat} {chars : List Byte} {length cursor : Nat} {s t : State}
    (h : execProcessChunk ps chars length cursor s = .next t) :
    ∃ u, execProcessChunk ps chars length cursor { s with mapFault := true } = .next u := by
  obtain ⟨hcall, d, k, q, hq, -⟩ := execProcessChunk_next h
  have hr : chunkRefusal ps chars length cursor { s with mapFault := true } = none := not_refused_of_chunkCallLegal hcall
  have hq' : processChunk s.cfg (chars.take length) cursor (State.parser { s with mapFault := true } ps) = some (d, k, q) :=
    hq
  exact ⟨_, by simp [execProcessChunk, hr, hq']; rfl⟩

/-- An encoder of SAL commands always answers. -/
theorem execSalEncode_completes (d : Domain) (p : BitVec 2) (a : Byte) (subs : List SubCmd) (s : State) :
    ∃ t, execSalEncode d p a subs s = .next t := by
  unfold execSalEncode
  split
  · exact ⟨_, rfl⟩
  · exact answerBytes_completes _ _

/-- R33: every instruction that touches no map and answers does so with `map_fault` = 1 too. -/
theorem exec_completes_halted {i : Instr} {s t : State} (hadd : ∀ d a, i ≠ .addMapping d a)
    (hparse : ∀ bytes length m f, i ≠ .tryParse bytes length m f) (hframe : ∀ ps f, i ≠ .decodeFrame ps f)
    (hheader : headerByteOf s.cfg i = none) (h : exec i s = .next t) :
    ∃ u, exec i { s with mapFault := true } = .next u := by
  cases hc : charOf s.cfg i with
  | some c =>
    rw [exec_charOf i c s hc] at h
    rw [exec_charOf i c { s with mapFault := true } hc]
    exact feedChar_completes_halted h
  | none =>
    cases i with
    | hdrNoaddr | hdrTwobyte | hdrOnebyte | hdrUnrecognised0 | hdrUnrecognised1 | hdrUnrecognised2
    | hdrUnrecognised4 | hdrUnrecognised7 => cases hheader
    | long | on | off | terminate | ramp | event | min | max | kill => exact wordStep_completes_halted h
    | lightUnknown | trigUnknown => exact unknownIdStep_completes_halted h
    | calPrefix | reservedZero | calEncode => exact answerBytes_completes _ _
    | direct | reset | stxOut | crOut | resetEncode | hexEncode | salFrameText | calFrameText =>
      exact answerText_completes _ _
    | salEncode => exact execSalEncode_completes _ _ _ _ _
    | hwReset | hdrEncode | hdrDecode => exact ⟨_, rfl⟩
    | psReset ps =>
      have hb : State.parserBusy { s with mapFault := true } ps = false := (execPsReset_next h).1
      exact ⟨_, by simp [exec, execPsReset, hb]; rfl⟩
    | processChunk => exact execProcessChunk_completes_halted h
    | checksum bytes length =>
      have hl : ¬bytes.length < length := fun hl => by simp [exec, execChecksum, hl] at h
      exact ⟨_, by simp [exec, execChecksum, hl]; rfl⟩
    | locateApp bytes length =>
      have hl : ¬bytes.length < length := fun hl => by simp [exec, execLocateApp, hl] at h
      exact ⟨_, by simp [exec, execLocateApp, hl]; rfl⟩
    | tryParse => exact absurd rfl (hparse _ _ _ _)
    | decodeFrame => exact absurd rfl (hframe _ _)
    | addMapping => exact absurd rfl (hadd _ _)
    | _ => cases hc

/-- Settles O36: `HW_RESET` clears the flag and nothing else does, a conflict sets it, and only the operations that touch
the map read it. -/
theorem mapFaultHaltsTheMap : Obligations.MapFaultHaltsTheMap := by
  refine ⟨fun s t h => ?_, fun s d e a hf hs hb ha hne => ?_, fun s t i h => exec_keeps_mapFault h,
    fun s => exec_map_operations_refused, fun s t i hadd hparse hframe hheader =>
      exec_completes_halted hadd hparse hframe hheader⟩
  · cases h; rfl
  · exact ⟨_, exec_addMapping_conflict hf hs hb ha hne, rfl⟩

/-! ### Rows that no unit reads (R44, R95) -/

/-- A character is refused where the framer stands before none. -/
theorem feedChar_refused {s : State} (c : Byte) (h : ∀ ps chars cursor, s.unit ≠ .framing ps chars cursor) :
    feedChar c s = .refused .noUnitReadsThisSpace := by
  unfold feedChar
  split
  · exact absurd ‹_› (h _ _ _)
  · rfl

/-- A header byte is refused where none is next. -/
theorem headerStep_refused {s : State} (p : BitVec 2) (ty : AddrType) (hd : ∀ b, s.unit ≠ .decodingHeader b)
    (hl : ∀ bytes length, s.unit ≠ .locating bytes length) (hp : ∀ bytes length, s.unit ≠ .parsing bytes length) :
    headerStep p ty s = .refused .noUnitReadsThisSpace := by
  unfold headerStep
  split
  · exact absurd ‹_› (hd _)
  · exact absurd ‹_› (hl _ _)
  · exact absurd ‹_› (hp _ _)
  · rfl

/-- A command word is refused where no decoder of a domain that has the word stands. -/
theorem wordStep_refused {s : State} {f : Domain → Bool} (len : Nat) (sc : Option SubCmd)
    (h : ∀ d bytes stop dpos subs, f d = true → s.unit ≠ .words d bytes stop dpos subs) :
    wordStep f len sc s = .refused .noUnitReadsThisSpace := by
  unfold wordStep
  split
  · rename_i d _ _ _ _ hu
    cases hd : f d with
    | false => rfl
    | true => exact absurd hu (h _ _ _ _ _ hd)
  · rfl

/-- An unrecognised id is refused where its domain's decoder does not stand. -/
theorem unknownIdStep_refused {s : State} {d : Domain}
    (h : ∀ bytes stop dpos subs, s.unit ≠ .words d bytes stop dpos subs) :
    unknownIdStep d s = .refused .noUnitReadsThisSpace := by
  unfold unknownIdStep
  split
  · rename_i hu
    refine if_neg ?_
    rintro rfl
    exact h _ _ _ _ hu
  · rfl

/-- R84: every header row gives the decoder an address type. -/
theorem exec_headerByteOf {i : Instr} {s : State} (h : (headerByteOf s.cfg i).isSome = true) :
    ∃ p ty, exec i s = headerStep p ty s := by
  cases i with
  | hdrNoaddr | hdrTwobyte | hdrOnebyte | hdrUnrecognised0 | hdrUnrecognised1 | hdrUnrecognised2
  | hdrUnrecognised4 | hdrUnrecognised7 => exact ⟨_, _, rfl⟩
  | _ => cases h

/-- R86: Lighting is the domain of Lighting's words. -/
theorem eq_lighting_of_inLighting {d : Domain} (h : inLighting d = true) : d = .lighting := by
  simpa [inLighting] using h

/-- R87: Trigger is the domain of Trigger's words. -/
theorem eq_trigger_of_inTrigger {d : Domain} (h : inTrigger d = true) : d = .trigger := by
  simpa [inTrigger] using h

/-- R86, R87: every row of a word space is a word or an unrecognised id of the domains whose rows it belongs to. -/
theorem exec_wordBytesOf {i : Instr} {s : State} (h : (wordBytesOf s.cfg i).isSome = true) :
    (∃ f len sc, exec i s = wordStep f len sc s ∧ ∀ d, f d = true → i.inSpace (.word d) = true) ∨
    (∃ d, exec i s = unknownIdStep d s ∧ i.inSpace (.word d) = true) := by
  cases i with
  | long => exact .inl ⟨_, _, _, rfl, fun _ _ => rfl⟩
  | on | off | terminate | ramp => exact .inl ⟨inLighting, _, _, rfl, fun d hd => by rw [eq_lighting_of_inLighting hd]; rfl⟩
  | event | min | max | kill => exact .inl ⟨inTrigger, _, _, rfl, fun d hd => by rw [eq_trigger_of_inTrigger hd]; rfl⟩
  | lightUnknown | trigUnknown => exact .inr ⟨_, rfl, rfl⟩
  | _ => cases h

/-- Settles O51: each row is the step of its unit, and that step is refused where the unit does not stand. -/
theorem rowsOutsideTheirSpaceAreRefused : Obligations.RowsOutsideTheirSpaceAreRefused := by
  intro s i
  refine ⟨fun hrow hu => ?_, fun hrow hd hl hp => ?_, fun hrow hu => ?_⟩
  · obtain ⟨c, hc⟩ := Option.isSome_iff_exists.mp hrow
    rw [exec_charOf i c s hc, feedChar_refused c hu]
  · obtain ⟨p, ty, hexec⟩ := exec_headerByteOf hrow
    rw [hexec, headerStep_refused p ty hd hl hp]
  · rcases exec_wordBytesOf hrow with ⟨f, len, sc, hexec, hspace⟩ | ⟨d, hexec, hspace⟩
    · rw [hexec, wordStep_refused len sc fun d _ _ _ _ hd => hu d _ _ _ _ (hspace d hd)]
    · rw [hexec, unknownIdStep_refused fun _ _ _ _ => hu d _ _ _ _ hspace]

end Sys2Proof.Machine
end

section
/-! PROOFS. The framer: what a `Step` can do (R101 to R112), and with it the payload buffer (O7), R30 (R23, R31) and the
fault outside R30 (O52). -/

namespace Sys2Proof.Machine

/-! ### What a `Step` can do (R101 to R112) -/

/-- R101 to R112: the ParserStates that a `Step` on `c` can leave behind `p`, with the case each comes from. -/
inductive FramerNext (cfg : Config) (p : ParserState) (c : Byte) : ParserState → Prop where
  /-- R102, R103: a frame-start character restarts the ParserState. -/
  | restartStx (hp : p.phase = .idle ∨ p.phase = .complete) :
      FramerNext cfg p c { restart p with phase := .stxFound, prev := c }
  /-- R102, R103: a hex digit restarts the ParserState, and is the first high nibble. -/
  | restartHex (hp : p.phase = .idle ∨ p.phase = .complete) (hc : hexValid cfg c = true) :
      FramerNext cfg p c { restart p with phase := .expectLowNibble, prev := c }
  /-- R102, R103: any other character restarts the ParserState, and an outcome code is next. -/
  | restartOther (hp : p.phase = .idle ∨ p.phase = .complete) (hs : c ≠ cfg.chStx) (hc : hexValid cfg c = false) :
      FramerNext cfg p c { restart p with phase := .ackPending, prev := c }
  /-- R106, R108: a high nibble. -/
  | highNibble (hp : p.phase = .stxFound ∨ p.phase = .expectHighNibble) (hc : hexValid cfg c = true) :
      FramerNext cfg p c { p with phase := .expectLowNibble, prev := c }
  /-- R107: the outcome code of an acknowledgement. -/
  | acknowledged (hp : p.phase = .ackPending) :
      FramerNext cfg p c { p with phase := .complete, cls := .ack, ack := some p.prev, prev := c }
  /-- R107: an outcome code of a negative acknowledgement. -/
  | notAcknowledged (hp : p.phase = .ackPending) (k : Cls)
      (hk : k = .nak ∨ k = .nakCorrupted ∨ k = .nakNoClock ∨ k = .nakTooLong) :
      FramerNext cfg p c { p with phase := .complete, cls := k, prev := c }
  /-- R109, R110: the primary terminator. -/
  | terminated (hp : p.phase = .expectHighNibble) :
      FramerNext cfg p c { p with phase := .complete, cls := .salReceived, prev := c }
  /-- R111: a low nibble appends its byte. -/
  | appended (hp : p.phase = .expectLowNibble) (hroom : p.len < cfg.cap) (b : Byte) :
      FramerNext cfg p c { p with phase := .expectHighNibble, buf := p.buf ++ [b], prev := c }
  /-- R104: the candidate is discarded. -/
  | discarded : FramerNext cfg p c (discarded c)

/-- R101: the case that a `Step` comes from, by the phase rule that `phase` selects. -/
theorem framerStep_next {cfg : Config} {p q : ParserState} {c : Byte} (h : framerStep cfg p c = some q) :
    FramerNext cfg p c q := by
  unfold framerStep at h
  split at h
  case h_2 => cases h; exact .discarded
  case h_3 => cases h
  case h_1 r hr =>
    cases h
    have hidle (hp : p.phase = .idle ∨ p.phase = .complete) (hr : phaseIdle cfg p c = .go r) :
        FramerNext cfg p c { r with prev := c } := by
      rw [phaseIdle_eq] at hr
      cases hr
      split_ifs with hs hc
      · exact .restartStx hp
      · exact .restartHex hp hc
      · exact .restartOther hp hs (by simpa using hc)
    unfold phaseRule at hr
    split at hr
    · exact hidle (.inl ‹_›) hr
    · exact hidle (.inr ‹_›) hr
    · unfold phaseStxFound at hr
      split at hr <;> cases hr
      exact .highNibble (.inl ‹_›) ‹_›
    · rename_i hp
      unfold phaseAckPending at hr
      split_ifs at hr <;> cases hr
      · exact .acknowledged hp
      · exact .notAcknowledged hp .nak (by simp)
      · exact .notAcknowledged hp .nakCorrupted (by simp)
      · exact .notAcknowledged hp .nakNoClock (by simp)
      · exact .notAcknowledged hp .nakTooLong (by simp)
    · unfold phaseExpectHigh at hr
      split_ifs at hr <;> cases hr
      · exact .highNibble (.inr ‹_›) ‹_›
      · exact .terminated ‹_›
    · unfold phaseExpectLow at hr
      split at hr
      · cases hr
      · split_ifs at hr with hroom
        split at hr <;> cases hr
        exact .appended ‹_› hroom _

/-! ### The payload buffer (R21, R34, R52) -/

/-- R21, R52: a `Step` empties the buffer, leaves it, or appends one byte to it, the last below the capacity only. -/
theorem framerStep_buf {cfg : Config} {p q : ParserState} {c : Byte} (h : framerStep cfg p c = some q) :
    q.buf = [] ∨ q.buf = p.buf ∨ (p.phase = .expectLowNibble ∧ p.buf.length < cfg.cap ∧ ∃ b, q.buf = p.buf ++ [b]) := by
  cases framerStep_next h with
  | restartStx | restartHex | restartOther | discarded => exact .inl rfl
  | highNibble | acknowledged | notAcknowledged | terminated => exact .inr (.inl rfl)
  | appended hp hroom b => exact .inr (.inr ⟨hp, hroom, b, rfl⟩)

/-- R113, R115: a turn of the chunk loop leaves the buffer of its `Step`. -/
theorem consumeChar_buf {cfg : Config} {chars : List Byte} {cursor k : Nat} {p q : ParserState} {c : Byte} {done : Bool}
    (h : consumeChar cfg chars cursor p c = some (q, k, done)) :
    ∃ r, framerStep cfg p c = some r ∧ q.buf = r.buf := by
  rcases consumeChar_cases _ _ _ _ _ _ _ _ h with ⟨hq, -⟩ | ⟨hq, -⟩ | ⟨r, hr, -, -, rfl, -⟩
  · exact ⟨q, hq, rfl⟩
  · exact ⟨q, hq, rfl⟩
  · exact ⟨r, hr, rfl⟩

/-- Settles O7: a character row is a turn of the chunk loop on its ParserState, and that leaves the buffer of a `Step`. -/
theorem bufferIsAppendOnly : Obligations.BufferIsAppendOnly := by
  intro s t i c ps chars cursor hc hu h
  rw [exec_charOf i c s hc] at h
  obtain ⟨-, -, -, -, -, ps', chars', cursor', q, k, done, hu', hq, hparsers⟩ := feedChar_frame h
  cases hu.symm.trans hu'
  obtain ⟨r, hr, hbuf⟩ := consumeChar_buf hq
  have ht : t.parser ps = q := by
    rw [State.parser, hparsers]
    exact State.parser_setParser s ps q
  rw [ht, hbuf]
  exact framerStep_buf hr

/-! ### Outside R30 (R31, R101) -/

/-- R101: where `prev` holds no high nibble, a low nibble with room in the buffer has no `Step`. -/
theorem framerStep_of_lost_highNibble {cfg : Config} {p : ParserState} {c : Byte} (hp : p.phase = .expectLowNibble)
    (hprev : hexval cfg p.prev = none) (hc : (hexval cfg c).isSome = true) (hroom : p.buf.length < cfg.cap) :
    framerStep cfg p c = none := by
  obtain ⟨l, hl⟩ := Option.isSome_iff_exists.mp hc
  simp [framerStep, phaseRule, hp, phaseExpectLow, hl, hroom, hprev]

/-- Settles O52: a character row gives its character to the framer, and the `Step` has no answer. -/
theorem lostHighNibbleFaults : Obligations.LostHighNibbleFaults := by
  intro s i c ps chars cursor hc hu hp hprev hl hroom
  rw [exec_charOf i c s hc]
  simp [feedChar, hu, consumeChar, framerStep_of_lost_highNibble hp hprev hl hroom]

/-! ### The invariant of a ParserState (R23, R30, R31) -/

/-- R30, R42: a ParserState right after reset, whatever its last character was. -/
theorem parserInv_reset (cfg : Config) (b : Byte) : ParserInv cfg { ParserState.reset with prev := b } := by
  simp [ParserInv, ParserState.reset, ParserState.len, Cls.terminal, Cls.hasFrame]

/-- R30: a ParserState without an outcome, in the middle of a candidate or behind a discarded one. -/
theorem parserInv_pending {cfg : Config} {p : ParserState} (hcls : p.cls = .pending) (hack : p.ack = none)
    (hlen : p.len ≤ cfg.cap) (hc : p.phase ≠ .complete)
    (hempty : p.phase = .idle ∨ p.phase = .ackPending ∨ p.phase = .stxFound → p.len = 0)
    (hhigh : p.phase = .expectHighNibble → 1 ≤ p.len) (hlow : p.phase = .expectLowNibble → hexValid cfg p.prev = true)
    (hackp : p.phase = .ackPending → p.prev ≠ cfg.chStx ∧ hexValid cfg p.prev = false) : ParserInv cfg p := by
  refine ⟨hlen, ?_, ?_, hempty, hhigh, ?_, ?_, ?_, hlow, hackp⟩ <;> simp [hcls, hack, hc, Cls.terminal, Cls.hasFrame]

/-- R30: a candidate in progress has no outcome yet. -/
theorem ParserInv.candidate {cfg : Config} {p : ParserState} (h : ParserInv cfg p) (hi : p.phase ≠ .idle)
    (hc : p.phase ≠ .complete) : p.cls = .pending ∧ p.ack = none := by
  obtain ⟨-, hterm, hnone, -, -, hack, -, -, -, -⟩ := h
  have hk : p.cls = .pending := by
    cases hcls : p.cls
    case pending => rfl
    case none => exact absurd (hnone hcls).1 hi
    all_goals exact absurd (hterm.mpr (by rw [hcls]; rfl)) hc
  exact ⟨hk, by simpa [hk] using hack⟩

/-- R23, R30: a ParserState with an outcome. -/
theorem parserInv_complete {cfg : Config} {p : ParserState} (hp : p.phase = .complete) (hcls : p.cls.terminal = true)
    (hlen : p.len ≤ cfg.cap) (hack : p.ack.isSome = true ↔ p.cls = .ack) (hframe : p.cls.hasFrame = true → 1 ≤ p.len)
    (hempty : p.cls.hasFrame = false → p.len = 0) : ParserInv cfg p := by
  refine ⟨hlen, by simp [hp, hcls], fun h => ?_, by simp [hp], by simp [hp], hack, fun h => hempty ?_, hframe,
    by simp [hp], by simp [hp]⟩
  · rw [h] at hcls
    cases hcls
  · rcases h with h | h | h | h | h <;> rw [h] <;> rfl

/-- R30: before the first byte of a candidate the buffer is empty. -/
theorem ParserInv.len_eq_zero {cfg : Config} {p : ParserState} (h : ParserInv cfg p)
    (hp : p.phase = .idle ∨ p.phase = .ackPending ∨ p.phase = .stxFound) : p.len = 0 := by
  obtain ⟨-, -, -, hempty, -⟩ := h
  exact hempty hp

/-- R30: where a high nibble or the terminator is next, the buffer has a byte. -/
theorem ParserInv.one_le_len {cfg : Config} {p : ParserState} (h : ParserInv cfg p) (hp : p.phase = .expectHighNibble) :
    1 ≤ p.len := by
  obtain ⟨-, -, -, -, hhigh, -⟩ := h
  exact hhigh hp

/-- R31: a `Step` keeps R30. -/
theorem framerStep_keeps_parserInv {cfg : Config} {p q : ParserState} {c : Byte} (hp : ParserInv cfg p)
    (h : framerStep cfg p c = some q) : ParserInv cfg q := by
  have hlen : p.len ≤ cfg.cap := hp.1
  cases framerStep_next h with
  | restartStx | discarded =>
    exact parserInv_pending rfl rfl (Nat.zero_le _) (by simp [discarded]) (fun _ => rfl) (by simp [discarded])
      (by simp [discarded]) (by simp [discarded])
  | restartHex _ hc =>
    exact parserInv_pending rfl rfl (Nat.zero_le _) (by simp) (fun _ => rfl) (by simp) (fun _ => hc) (by simp)
  | restartOther _ hs hc =>
    exact parserInv_pending rfl rfl (Nat.zero_le _) (by simp) (fun _ => rfl) (by simp) (by simp) (fun _ => ⟨hs, hc⟩)
  | highNibble hph hc =>
    obtain ⟨hcls, hack⟩ : p.cls = .pending ∧ p.ack = none := by
      rcases hph with hph | hph <;> exact hp.candidate (by simp [hph]) (by simp [hph])
    exact parserInv_pending hcls hack hlen (by simp) (by simp) (by simp) (fun _ => hc) (by simp)
  | appended hph hroom b =>
    obtain ⟨hcls, hack⟩ := hp.candidate (by simp [hph]) (by simp [hph])
    exact parserInv_pending hcls hack (by simpa [ParserState.len] using hroom) (by simp) (by simp)
      (fun _ => by simp [ParserState.len]) (by simp) (by simp)
  | acknowledged hph =>
    exact parserInv_complete rfl rfl hlen (by simp) (by simp [Cls.hasFrame])
      (fun _ => hp.len_eq_zero (.inr (.inl hph)))
  | notAcknowledged hph k hk =>
    obtain ⟨-, hack⟩ := hp.candidate (by simp [hph]) (by simp [hph])
    have hempty := hp.len_eq_zero (.inr (.inl hph))
    rcases hk with rfl | rfl | rfl | rfl <;>
      exact parserInv_complete rfl rfl hlen (by simp [hack]) (by simp [Cls.hasFrame]) (fun _ => hempty)
  | terminated hph =>
    obtain ⟨-, hack⟩ := hp.candidate (by simp [hph]) (by simp [hph])
    exact parserInv_complete rfl rfl hlen (by simp [hack]) (fun _ => hp.one_le_len hph) (by simp [Cls.hasFrame])

/-- R115: the peek, which makes a received frame a monitored one, keeps R30. -/
theorem upgrade_keeps_parserInv {cfg : Config} {p : ParserState} (h : ParserInv cfg p) (hcls : p.cls = .salReceived) :
    ParserInv cfg { p with cls := .monitoredSalReceived, prev := chLf } := by
  obtain ⟨hlen, hterm, -, -, -, hack, -, hframe, -, -⟩ := h
  exact parserInv_complete (hterm.mpr (by rw [hcls]; rfl)) rfl hlen (by simpa [hcls] using hack)
    (fun _ => hframe (by rw [hcls]; rfl)) (by simp [Cls.hasFrame])

/-- R31: a turn of the chunk loop keeps R30. -/
theorem consumeChar_keeps_parserInv {cfg : Config} {chars : List Byte} {cursor k : Nat} {p q : ParserState} {c : Byte}
    {done : Bool} (hp : ParserInv cfg p) (h : consumeChar cfg chars cursor p c = some (q, k, done)) :
    ParserInv cfg q := by
  rcases consumeChar_cases _ _ _ _ _ _ _ _ h with ⟨hq, -⟩ | ⟨hq, -⟩ | ⟨r, hr, hcls, -, rfl, -⟩
  · exact framerStep_keeps_parserInv hp hq
  · exact framerStep_keeps_parserInv hp hq
  · exact upgrade_keeps_parserInv (framerStep_keeps_parserInv hp hr) hcls

/-- R31, R113: the chunk loop keeps R30, by induction on its turns. -/
theorem chunkLoop_keeps_parserInv {cfg : Config} {chars : List Byte} {done : Bool} {k : Nat} {q : ParserState} (fuel : Nat) :
    ∀ {cursor : Nat} {p : ParserState}, ParserInv cfg p → chunkLoop cfg chars fuel cursor p = some (done, k, q) →
      ParserInv cfg q := by
  induction fuel with
  | zero => intro cursor p hp h; cases h; exact hp
  | succ fuel ih =>
    intro cursor p hp h
    rw [chunkLoop] at h
    split at h
    · cases h; exact hp
    · split at h
      · cases h
      · cases h; exact consumeChar_keeps_parserInv hp ‹_›
      · exact ih (consumeChar_keeps_parserInv hp ‹_›) h

end Sys2Proof.Machine
end

section
/-! PROOFS. The invariant of the machine: it holds after reset (O57), and every step keeps it (O56). -/

namespace Sys2Proof.Machine

/-! ### Decoded sub-commands are well-formed (R169, R183) -/

/-- R169: a recognised short-form id has one or two trailing bytes. -/
theorem shortForm_eq_one_or_two {cfg : Config} {d : Domain} {id : Byte} {k : Nat} (h : shortForm cfg d id = some k) :
    k = 1 ∨ k = 2 := by
  unfold shortForm at h
  split at h <;> split_ifs at h <;> cases h <;> simp

/-- R183: no sub-commands are well-formed. -/
theorem subsWf_nil (cfg : Config) (d : Domain) : SubsWf cfg d [] := fun _ h => by cases h

/-- R183: one well-formed sub-command. -/
theorem subsWf_singleton {cfg : Config} {d : Domain} {sc : SubCmd} (h : subCmdWellFormed cfg d sc = true) :
    SubsWf cfg d [sc] := by
  intro x hx
  rwa [List.mem_singleton.mp hx]

/-- R183: well-formed sub-commands, one list behind the other. -/
theorem subsWf_append {cfg : Config} {d : Domain} {xs ys : List SubCmd} (hx : SubsWf cfg d xs) (hy : SubsWf cfg d ys) :
    SubsWf cfg d (xs ++ ys) := fun sc h => (List.mem_append.mp h).elim (hx sc) (hy sc)

/-- R169, R183: the sub-command that a command word yields, a short-form word, is well-formed. -/
theorem wordAt_wellFormed {cfg : Config} {d : Domain} {bytes : List Byte} {stop dpos len : Nat} {sc : Option SubCmd}
    (h : wordAt cfg d bytes stop dpos = .ok (sc, len)) : SubsWf cfg d sc.toList := by
  cases hid : rd bytes stop dpos with
  | error e => simp [wordAt, hid, bind, Except.bind] at h
  | ok id =>
    cases hl : isLongForm id with
    | true =>
      rw [wordAt_long hid hl] at h
      split at h <;> cases h
      exact subsWf_nil cfg d
    | false =>
      cases hs : shortForm cfg d id with
      | none => rw [wordAt_unknown hid hl hs] at h; cases h
      | some k =>
        cases hg : rd bytes stop (dpos + 1) with
        | error e =>
          simp only [wordAt, hid, hl, hs, hg, bind, Except.bind, Bool.false_eq_true, if_false] at h
          split at h <;> cases h
        | ok g =>
          rcases shortForm_eq_one_or_two hs with rfl | rfl
          · rw [wordAt_one hid hl hs hg] at h
            cases h
            exact subsWf_singleton (by simp [subCmdWellFormed, hl, hs])
          · cases hx : rd bytes stop (dpos + 2) with
            | error e =>
              simp only [wordAt, hid, hl, hs, hg, hx, bind, Except.bind, Bool.false_eq_true, if_false, if_true] at h
              split at h <;> cases h
            | ok x =>
              rw [wordAt_two hid hl hs hg hx] at h
              cases h
              exact subsWf_singleton (by simp [subCmdWellFormed, hl, hs])

/-- R167, R183: the decode loop yields well-formed sub-commands, by induction on its turns. -/
theorem decodeSubsLoop_wellFormed {cfg : Config} {d : Domain} {bytes : List Byte} {stop : Nat} (fuel : Nat) :
    ∀ {dpos : Nat} {subs : List SubCmd}, decodeSubsLoop cfg d bytes stop fuel dpos = .ok subs → SubsWf cfg d subs := by
  induction fuel with
  | zero =>
    intro dpos subs h
    rw [decodeSubsLoop] at h
    split at h <;> cases h
    exact subsWf_nil cfg d
  | succ fuel ih =>
    intro dpos subs h
    rw [decodeSubsLoop] at h
    split at h
    · cases h
      exact subsWf_nil cfg d
    · split at h
      · cases h
      · split at h <;> cases h
        exact subsWf_append (wordAt_wellFormed ‹_›) (ih ‹_›)

/-- R39, R204: what `TRY_PARSE` answers is a SAL command without an acknowledgement character, well-formed. -/
theorem tryParse_resultInv (s : State) (bytes : List Byte) (length : Nat) (m f : Bool) :
    ResultInv s.cfg (salResult (tryParse s bytes length m f)) := by
  unfold tryParse dispatchApp
  cases locateApp s.cfg bytes length m f with
  | error e => trivial
  | ok loc =>
    cases hd : s.domainAt loc.1 with
    | none => simp [hd, bind, Except.bind, salResult, ResultInv]
    | some d =>
      cases hsubs : decodeSubs s.cfg d bytes loc.2 (length - 1) with
      | error e => simp [hd, hsubs, bind, Except.bind, salResult, ResultInv]
      | ok subs =>
        have hwf : SubsWf s.cfg d subs := decodeSubsLoop_wellFormed _ hsubs
        simpa [hd, hsubs, bind, Except.bind, salResult, ResultInv] using hwf

/-- R160: a location is no SAL command. -/
theorem locatedResult_resultInv (cfg : Config) (x : Except DecodeCause (Byte × Nat)) : ResultInv cfg (locatedResult x) := by
  cases x <;> trivial

/-! ### The two stores (R30, R35) -/

/-- The part of the machine's invariant that is about the stores: it does not depend on the operation in progress. -/
structure StoresInv (s : State) : Prop where
  parsersWf : Memory.wf ParserState.reset s.parsers
  parsersInv : ∀ ps, ParserInv s.cfg (s.parser ps)
  mapWf : Memory.wf none s.map
  mapBound : ∀ e ∈ s.map, e.1 < 256

/-- The invariant of the machine holds of its stores. -/
theorem StateInv.stores {s : State} (h : StateInv s) : StoresInv s :=
  ⟨h.parsersWf, h.parsersInv, h.mapWf, h.mapBound⟩

/-- The stores of a machine after reset. -/
theorem storesInv_of_empty {s : State} (hp : s.parsers = []) (hm : s.map = []) : StoresInv s where
  parsersWf := by rw [hp]; exact ⟨.nil, fun _ h => by cases h⟩
  parsersInv ps := by
    rw [State.parser, hp]
    exact parserInv_reset s.cfg 0
  mapWf := by rw [hm]; exact ⟨.nil, fun _ h => by cases h⟩
  mapBound := by simp [hm]

namespace StoresInv

variable {s t : State}

/-- What leaves the parameters and the stores alone keeps their invariant. -/
theorem frame (h : StoresInv s) (hcfg : t.cfg = s.cfg) (hparsers : t.parsers = s.parsers) (hmap : t.map = s.map) :
    StoresInv t where
  parsersWf := hparsers ▸ h.parsersWf
  parsersInv ps := by
    rw [State.parser, hcfg, hparsers]
    exact h.parsersInv ps
  mapWf := hmap ▸ h.mapWf
  mapBound := hmap ▸ h.mapBound

/-- R31: a ParserState that satisfies R30 may be written. -/
theorem setParser (h : StoresInv s) (ps : Nat) {p : ParserState} (hp : ParserInv s.cfg p) :
    StoresInv (s.setParser ps p) where
  parsersWf := memSet_wf _ _ _ _ h.parsersWf
  parsersInv q := by
    by_cases hq : q = ps
    · rw [hq, State.parser_setParser]
      exact hp
    · rw [State.parser_setParser_other _ _ _ _ h.parsersWf hq]
      exact h.parsersInv q
  mapWf := h.mapWf
  mapBound := h.mapBound

/-- R35: an address, which is a byte, may be bound. -/
theorem bindAddress (h : StoresInv s) (a : Byte) (d : Domain) : StoresInv (s.bindAddress a d) where
  parsersWf := h.parsersWf
  parsersInv := h.parsersInv
  mapWf := memSet_wf _ _ _ _ h.mapWf
  mapBound e he := by
    rcases mem_memSet _ _ _ _ e he with hm | ⟨rfl, -⟩
    · exact h.mapBound e hm
    · exact a.isLt

/-- The invariant of the machine is that of its stores, of the operation in progress and of the result. -/
theorem stateInv (h : StoresInv s) (hu : UnitInv s.cfg s.unit) (hr : ResultInv s.cfg s.result)
    (hd : s.decoding.isSome = true → s.routerBusy = true) : StateInv s :=
  ⟨h.parsersWf, h.parsersInv, h.mapWf, h.mapBound, hu, hr, hd⟩

/-- R41: with no operation in progress, the invariant is that of the stores and of the result. -/
theorem stateInv_of_idle (h : StoresInv s) (hu : s.unit = .idle) (hd : s.decoding = none)
    (hr : ResultInv s.cfg s.result) : StateInv s :=
  h.stateInv (by rw [hu]; trivial) hr (by simp [hd])

/-- R41: where an operation ends, the stores and the result keep the invariant. -/
theorem finish (h : StoresInv s) {r : Result} (hr : ResultInv s.cfg r) : StateInv (s.finish r) :=
  stateInv_of_idle (s := s.finish r) (h.frame rfl rfl rfl) rfl rfl hr

/-- R8: where an operation goes on inside its bounds, and holds a ParserState only for a lookup, the invariant holds. -/
theorem continueAt (h : StoresInv s) (hr : ResultInv s.cfg s.result) {u : Activity} (hu : UnitInv s.cfg u)
    (hd : s.decoding.isSome = true → (s.continueAt u).routerBusy = true) : StateInv (s.continueAt u) :=
  stateInv (s := s.continueAt u) (h.frame rfl rfl rfl) hu hr hd

/-- R167: the decoder, which stands before a command word or ends, keeps the invariant. -/
theorem enterWords (h : StoresInv s) (hr : ResultInv s.cfg s.result) {d : Domain} {bytes : List Byte} {stop : Nat}
    (dpos : Nat) {subs : List SubCmd} (hs : dpos < stop → stop < bytes.length) (hw : SubsWf s.cfg d subs) :
    StateInv (enterWords d bytes stop dpos subs s) := by
  unfold Machine.enterWords
  split
  · exact h.finish ⟨rfl, hw⟩
  · have hlt : dpos < stop := by omega
    exact h.continueAt hr ⟨hlt.le, hs hlt, hw⟩ (fun _ => rfl)

/-- R204: a lookup behind its location keeps the invariant, whether it holds a ParserState or none. -/
theorem afterLocation (h : StoresInv s) (hr : ResultInv s.cfg s.result) {bytes : List Byte} {length : Nat}
    (hl : length ≤ bytes.length) (x : Except DecodeCause (Byte × Nat)) :
    StateInv (s.afterLocation bytes (length - 1) x) := by
  have hshared : StoresInv s.shareMap := h.frame rfl rfl rfl
  cases x with
  | error e => exact hshared.finish trivial
  | ok loc =>
    rw [State.afterLocation, routeTo]
    split
    · exact hshared.finish trivial
    · exact hshared.enterWords hr loc.2 (by omega) (subsWf_nil _ _)

end StoresInv

/-! ### Operations that run whole (R12) -/

namespace StateInv

variable {s t : State}

/-- What leaves the parameters, the stores and the operation in progress alone, and answers a well-formed command if any,
keeps the invariant. -/
theorem frame (h : StateInv s) (hstores : StoresInv t) (hcfg : t.cfg = s.cfg) (hunit : t.unit = s.unit)
    (hdecoding : t.decoding = s.decoding) (hr : ResultInv s.cfg t.result) : StateInv t := by
  refine hstores.stateInv ?_ (hcfg ▸ hr) ?_
  · rw [hcfg, hunit]
    exact h.unitInv
  · rw [State.routerBusy, hdecoding, hunit]
    exact h.decodingInv

/-- R259: outside a lookup no ParserState is held. -/
theorem decoding_eq_none (h : StateInv s) (hb : s.routerBusy = false) : s.decoding = none := by
  simpa [hb] using h.decodingInv

/-- R12: an operation that ran whole returns. -/
theorem ret (h : StateInv s) {r : Result} (hr : ResultInv s.cfg r) : StateInv (s.ret r) :=
  h.frame (h.stores.frame rfl rfl rfl) rfl rfl rfl hr

/-- R31: an operation that ran whole wrote a ParserState. -/
theorem setParser_ret (h : StateInv s) (ps : Nat) {p : ParserState} (hp : ParserInv s.cfg p) {r : Result}
    (hr : ResultInv s.cfg r) : StateInv ((s.setParser ps p).ret r) :=
  h.frame ((h.stores.setParser ps hp).frame rfl rfl rfl) rfl rfl rfl hr

/-- R44: the host's invocations are not in the invariant. -/
theorem setPending (h : StateInv s) (rest : List Invocation) : StateInv { s with pending := rest } :=
  h.frame (h.stores.frame rfl rfl rfl) rfl rfl rfl h.resultInv

/-- R204: a lookup that ran whole. -/
theorem lookupBytes (h : StateInv s) (bytes : List Byte) (length : Nat) (m f : Bool) :
    StateInv (lookupBytes bytes length m f s) :=
  h.frame (h.stores.frame rfl rfl rfl) rfl rfl rfl (tryParse_resultInv s bytes length m f)

end StateInv

/-- R201 to R203: `ADD_MAPPING` keeps the invariant. -/
theorem execAddMapping_keeps_stateInv {d : Domain} {a : Byte} {s t : State} (hs : StateInv s)
    (h : execAddMapping d a s = .next t) : StateInv t := by
  obtain ⟨-, -, -, ⟨-, rfl⟩ | ⟨-, rfl⟩ | ⟨_, -, -, rfl⟩⟩ := execAddMapping_next h
  · exact hs.frame ((hs.stores.bindAddress a d).frame rfl rfl rfl) rfl rfl rfl trivial
  · exact hs.ret trivial
  · exact hs.frame (hs.stores.frame rfl rfl rfl) rfl rfl rfl trivial

/-- R30, R43: `PS_RESET` of any ParserState leaves one that satisfies R30. -/
theorem resetParser_parserInv (cfg : Config) (p : ParserState) : ParserInv cfg (resetParser p) :=
  parserInv_reset cfg p.prev

/-- R12: with no operation in progress, every operation that runs whole keeps the invariant. -/
theorem exec_keeps_stateInv {i : Instr} {s t : State} (hs : StateInv s) (hu : s.unit = .idle) (h : exec i s = .next t) :
    StateInv t := by
  cases exec_next i s t h with
  | character c _ h => obtain ⟨_, _, _, _, _, _, hbusy, -⟩ := feedChar_next _ _ _ h; simp [hu] at hbusy
  | headerByte _ _ _ h =>
    rcases headerStep_next _ _ _ _ h with ⟨_, hbusy, -⟩ | ⟨_, _, hbusy, -⟩ | ⟨_, _, hbusy, -⟩ <;> simp [hu] at hbusy
  | commandWord _ _ _ _ h => obtain ⟨_, _, _, _, _, hbusy, -⟩ := wordStep_next _ _ _ _ _ h; simp [hu] at hbusy
  | unknownId _ _ h => obtain ⟨⟨_, _, _, _, hbusy⟩, -⟩ := unknownIdStep_next _ _ _ h; simp [hu] at hbusy
  | hwReset h => cases h; exact (storesInv_of_empty rfl rfl).stateInv_of_idle rfl rfl trivial
  | psReset ps h =>
    obtain ⟨-, rfl⟩ := execPsReset_next h
    exact hs.setParser_ret ps (resetParser_parserInv _ _) trivial
  | processChunk ps _ _ _ h =>
    obtain ⟨-, d, k, q, hq, rfl⟩ := execProcessChunk_next h
    exact hs.setParser_ret ps (chunkLoop_keeps_parserInv _ (hs.parsersInv ps) hq) trivial
  | tryParse _ _ _ _ h => obtain ⟨-, -, rfl⟩ := execTryParse_next h; exact hs.lookupBytes _ _ _ _
  | decodeFrame _ _ h => obtain ⟨-, -, -, rfl⟩ := execDecodeFrame_next h; exact hs.lookupBytes _ _ _ _
  | addMapping _ _ h => exact execAddMapping_keeps_stateInv hs h
  | pureResult r _ hr =>
    cases r
    case sal c => exact absurd rfl (hr c)
    all_goals exact hs.ret trivial
  | pureBytes => exact hs.frame (hs.stores.frame rfl rfl rfl) rfl rfl rfl trivial
  | pureText => exact hs.frame (hs.stores.frame rfl rfl rfl) rfl rfl rfl trivial

/-! ### Operations that begin stepped (R8) -/

/-- R204: a lookup begins with its location, or stands before the header byte that locates it. -/
theorem beginLookup_eq (bytes : List Byte) (length : Nat) (m f : Bool) (s : State) :
    beginLookup bytes length m f s =
      .settle (if m then s.afterLocation bytes (length - 1) (locateApp s.cfg bytes length m f)
               else s.shareMap.continueAt (.parsing bytes length)) := by
  cases m with
  | false => rfl
  | true =>
    rw [beginLookup, if_pos rfl, if_pos rfl]
    cases locateApp s.cfg bytes length true f <;> rfl

/-- R204, R206: a lookup that begins, for a ParserState or from bytes, keeps the invariant. -/
theorem beginLookup_keeps_stateInv {bytes : List Byte} {length : Nat} (m f : Bool) {s : State} (hs : StoresInv s)
    (hr : ResultInv s.cfg s.result) (hl : length ≤ bytes.length) :
    ∃ t, beginLookup bytes length m f s = .settle t ∧ StateInv t := by
  refine ⟨_, beginLookup_eq bytes length m f s, ?_⟩
  cases m with
  | false => exact StoresInv.continueAt (s := s.shareMap) (hs.frame rfl rfl rfl) hr hl (fun _ => rfl)
  | true => exact hs.afterLocation hr hl _

/-- R8: what an idle block does with an operation that the host asks it to step: it refuses it, it runs it whole, or it
begins it, and the invariant is kept. -/
theorem beginStepped_cases {s : State} (op : Instr) (hs : StateInv s) (hu : s.unit = .idle) :
    (∃ r, beginStepped op s = .refuse r) ∨ beginStepped op s = .run op s ∨
    (∃ t, beginStepped op s = .settle t ∧ StateInv t) := by
  have hd := decoding_eq_none_of_idle hs hu
  have begins {u : Activity} (hi : UnitInv s.cfg u) : StateInv (s.continueAt u) :=
    hs.stores.continueAt hs.resultInv hi (by simp [hd])
  cases op with
  | processChunk ps chars length cursor =>
    dsimp only [beginStepped]
    split
    · exact .inl ⟨_, rfl⟩
    · rename_i hr
      obtain ⟨-, hl, -, hk⟩ := chunkCallLegal_of_not_refused hr
      split
      · exact .inr (.inl rfl)
      · exact .inr (.inr ⟨_, rfl, begins (by simp [UnitInv]; omega)⟩)
  | hdrDecode b => exact .inr (.inr ⟨_, rfl, begins trivial⟩)
  | locateApp bytes length m f =>
    cases m with
    | false =>
      dsimp only [beginStepped]
      split
      · exact .inl ⟨_, rfl⟩
      · exact .inr (.inr ⟨_, rfl, begins (by simp [UnitInv]; omega)⟩)
    | true => exact .inr (.inl rfl)
  | tryParse bytes length m f =>
    dsimp only [beginStepped]
    split
    · exact .inl ⟨_, rfl⟩
    · rename_i hr
      have hl : length ≤ bytes.length := by
        unfold parseRefusal at hr
        split_ifs at hr
        omega
      exact .inr (.inr (beginLookup_keeps_stateInv m f hs.stores hs.resultInv hl))
  | decodeFrame ps f =>
    dsimp only [beginStepped]
    split
    · exact .inl ⟨_, rfl⟩
    · exact .inr (.inr (beginLookup_keeps_stateInv (s := s.holdParser ps) _ f (hs.stores.frame rfl rfl rfl)
        hs.resultInv le_rfl))
  | _ => exact .inr (.inl rfl)

/-! ### A step (O56) -/

/-- R12, R44: an idle block keeps the invariant, whether it has nothing to do, or runs or begins an operation. -/
theorem step_idle_keeps_stateInv {s t : State} (hs : StateInv s) (hu : s.unit = .idle) (h : step s = .next t) :
    StateInv t := by
  have hc := configLegal_of_step _ _ h
  cases hp : s.pending with
  | nil =>
    rw [step_of_fetch_settle s s hc (by simp [fetchNext, hu, hp])] at h
    cases h
    exact hs
  | cons inv rest =>
    obtain ⟨op, stepped⟩ := inv
    have hrest : StateInv { s with pending := rest } := hs.setPending rest
    cases stepped with
    | false =>
      rw [step_of_fetch_run _ _ _ hc (fetchNext_whole hu hp)] at h
      exact exec_keeps_stateInv hrest hu h
    | true =>
      have hf := fetchNext_stepped hu hp
      rcases beginStepped_cases op hrest hu with ⟨r, hr⟩ | hrun | ⟨u, hsettle, hinv⟩
      · simp [step, fetch, hf, hr, underLegal, hc] at h
      · rw [step_of_fetch_run _ _ _ hc (hf.trans hrun)] at h
        exact exec_keeps_stateInv hrest hu h
      · rw [step_of_fetch_settle _ _ hc (hf.trans hsettle)] at h
        cases h
        exact hinv

/-- R113: a character of the framer keeps the invariant. -/
theorem feedChar_keeps_stateInv {c : Byte} {s t : State} (hs : StateInv s) (h : feedChar c s = .next t) : StateInv t := by
  obtain ⟨ps, chars, cursor, q, k, done, hu, hq, rfl⟩ := feedChar_next _ _ _ h
  have hq' := hs.stores.setParser ps (consumeChar_keeps_parserInv (hs.parsersInv ps) hq)
  have hd : s.decoding = none := hs.decoding_eq_none (by simp [State.routerBusy, hu])
  split
  · exact hq'.finish trivial
  · exact hq'.continueAt hs.resultInv (by simp [UnitInv]; omega) (by simp [hd])

/-- R8, R113: the framer, stepped, keeps the invariant. -/
theorem step_framing_keeps_stateInv {s t : State} {ps : Nat} {chars : List Byte} {cursor : Nat} (hs : StateInv s)
    (hu : s.unit = .framing ps chars cursor) (h : step s = .next t) : StateInv t := by
  have hc := configLegal_of_step _ _ h
  by_cases hk : cursor < chars.length
  · rw [step_framing hc hu hk] at h
    exact feedChar_keeps_stateInv hs h
  · have hf : fetchNext s = .settle (s.finish (.chunk false cursor)) := by
      simp [fetchNext, hu, List.drop_eq_nil_of_le (Nat.not_lt.mp hk), decodeIn]
    rw [step_of_fetch_settle _ _ hc hf] at h
    cases h
    exact hs.stores.finish trivial

/-- R167, R183: the decoder behind a command word, or behind a failed decode, keeps the invariant. -/
theorem StateInv.afterWord {s : State} {d : Domain} {bytes : List Byte} {stop dpos : Nat} {subs : List SubCmd}
    (h : StateInv s) (hs : stop < bytes.length) (hw : SubsWf s.cfg d subs) :
    StateInv (s.afterWord d bytes stop dpos subs (wordAt s.cfg d bytes stop dpos)) := by
  cases hword : wordAt s.cfg d bytes stop dpos with
  | error e => exact h.stores.finish trivial
  | ok word =>
    obtain ⟨sc, len⟩ := word
    exact h.stores.enterWords h.resultInv _ (fun _ => hs) (subsWf_append hw (wordAt_wellFormed hword))

/-- R25, R167: the decoder, stepped, keeps the invariant. -/
theorem step_words_keeps_stateInv {s t : State} {d : Domain} {bytes : List Byte} {stop dpos : Nat} {subs : List SubCmd}
    (hs : StateInv s) (hu : s.unit = .words d bytes stop dpos subs) (h : step s = .next t) : StateInv t := by
  have hc := configLegal_of_step _ _ h
  have hunit := hs.unitInv
  rw [hu] at hunit
  obtain ⟨-, hstop, hsubs⟩ := hunit
  by_cases hd : dpos < stop
  · obtain ⟨id, rest, hat⟩ := atWord_of_lt hu hstop.le hd
    rw [hat.step_eq hc] at h
    cases h
    exact hs.afterWord hstop hsubs
  · have hf : fetchNext s = .settle (enterWords d bytes stop dpos subs s) := by
      simp [fetchNext, hu, Nat.not_lt.mp hd]
    rw [step_of_fetch_settle _ _ hc hf] at h
    cases h
    exact hs.stores.enterWords hs.resultInv dpos (fun _ => hstop) hsubs

/-- R204: the router, stepped, keeps the invariant. -/
theorem step_parsing_keeps_stateInv {s t : State} {bytes : List Byte} {length : Nat} (hs : StateInv s)
    (hu : s.unit = .parsing bytes length) (h : step s = .next t) : StateInv t := by
  have hc := configLegal_of_step _ _ h
  have hl : length ≤ bytes.length := by simpa [hu, UnitInv] using hs.unitInv
  cases hm : s.mapFault with
  | true => simp [step, fetch, fetchNext, hu, hm, underLegal, hc] at h
  | false =>
    rw [step_parsing false hc hu hm] at h
    cases h
    exact hs.stores.afterLocation hs.resultInv hl _

/-- Settles O56, by the unit that is in the middle of an operation. -/
theorem stepKeepsTheInvariant : Obligations.StepKeepsTheInvariant := by
  intro s t hs h
  have hc := configLegal_of_step _ _ h
  cases hu : s.unit with
  | idle => exact step_idle_keeps_stateInv hs hu h
  | framing => exact step_framing_keeps_stateInv hs hu h
  | decodingHeader =>
    rw [step_decodingHeader hc hu] at h
    cases h
    exact hs.stores.finish trivial
  | locating =>
    rw [step_locating false hc hu] at h
    cases h
    exact hs.stores.finish (locatedResult_resultInv _ _)
  | parsing => exact step_parsing_keeps_stateInv hs hu h
  | words => exact step_words_keeps_stateInv hs hu h

/-- Settles O57: right after reset the stores are empty and no operation is in progress. -/
theorem resetMeetsTheInvariant : Obligations.ResetMeetsTheInvariant :=
  (storesInv_of_empty rfl rfl).stateInv_of_idle rfl rfl trivial

end Sys2Proof.Machine
end

section
/-! PROOFS. The life of the map (O37), calls on different ParserStates (O46), calls in the middle of an operation (O50), and
the outbound rows (O44). -/

namespace Sys2Proof.Machine

/-! ### The outbound rows (R53, R92) -/

/-- Settles O44: each row answers one byte or one character, which fits. -/
theorem outboundRowsEmit : Obligations.OutboundRowsEmit := by
  intro s h
  have hb (b : Byte) : answerBytes [b] s = .next (s.produceBytes [b]) := answerBytes_of_fits h
  have ht (c : Byte) : answerText [c] s = .next (s.produceText [c]) := answerText_of_fits h
  exact ⟨hb _, hb _, ht _, ht _, ht _, ht _⟩

/-! ### The Shared phase of the map (R65, R256) -/

/-- R256: a lookup from bytes begins the Shared phase. -/
@[simp] theorem lookupBytes_mapShared (bytes : List Byte) (length : Nat) (m f : Bool) (s : State) :
    (lookupBytes bytes length m f s).mapShared = true := rfl

/-- R256: no instruction but `HW_RESET` ends the Shared phase. -/
theorem exec_keeps_mapShared {i : Instr} {s t : State} (h : exec i s = .next t) (hs : s.mapShared = true)
    (hi : i ≠ .hwReset) : t.mapShared = true := by
  cases exec_next i s t h with
  | character _ _ h =>
    obtain ⟨-, -, -, hshared, -⟩ := feedChar_frame h
    exact hshared.trans hs
  | headerByte _ _ _ h =>
    obtain ⟨-, -, -, -, hshared, -⟩ := headerStep_frame h
    exact hshared hs
  | commandWord _ _ _ _ h =>
    obtain ⟨-, -, -, -, hshared, -⟩ := wordStep_frame h
    exact hshared.trans hs
  | unknownId _ _ h => obtain ⟨-, rfl⟩ := unknownIdStep_next _ _ _ h; exact hs
  | hwReset => exact absurd rfl hi
  | psReset _ h => obtain ⟨-, rfl⟩ := execPsReset_next h; exact hs
  | processChunk _ _ _ _ h => obtain ⟨-, _, _, _, -, rfl⟩ := execProcessChunk_next h; exact hs
  | tryParse _ _ _ _ h => obtain ⟨-, -, rfl⟩ := execTryParse_next h; simp
  | decodeFrame _ _ h => obtain ⟨-, -, -, rfl⟩ := execDecodeFrame_next h; simp
  | addMapping _ _ h =>
    obtain ⟨-, -, hsetup, -⟩ := execAddMapping_next h
    simp [hs] at hsetup
  | pureResult | pureBytes | pureText => exact hs

/-- Settles O37: both lookups are `lookupBytes`, which begins the Shared phase, and `exec_keeps_mapShared` has only `HW_RESET`
end it. -/
theorem noMappingAfterALookup : Obligations.NoMappingAfterALookup := by
  refine ⟨fun s t bytes length m f h => ?_, fun s t ps f h => ?_, fun s t i => exec_keeps_mapShared,
    fun s d a hf hb hs => ?_, fun s => ⟨_, rfl, rfl, rfl, rfl, rfl, rfl, rfl, rfl⟩⟩
  · obtain ⟨-, -, rfl⟩ := execTryParse_next h
    simp
  · obtain ⟨-, -, -, rfl⟩ := execDecodeFrame_next h
    simp
  · simp [exec, execAddMapping, hf, hb, hs]

/-! ### Calls on different ParserStates (R64) -/

/-- R64: `PROCESS_CHUNK` leaves the parameters and every other ParserState alone. -/
theorem execProcessChunk_elsewhere {p q : Nat} {xs : List Byte} {m j : Nat} {s t : State}
    (hw : Memory.wf ParserState.reset s.parsers) (hq : q ≠ p) (h : execProcessChunk p xs m j s = .next t) :
    t.cfg = s.cfg ∧ t.parser q = s.parser q := by
  obtain ⟨-, d, k, r, -, rfl⟩ := execProcessChunk_next h
  exact ⟨rfl, s.parser_setParser_other p q r hw hq⟩

/-- R64: what `PROCESS_CHUNK` answers and writes depends on the parameters and on its own ParserState only. -/
theorem execProcessChunk_agree {p : Nat} {xs : List Byte} {m j : Nat} {s s' t t' : State} (hcfg : s'.cfg = s.cfg)
    (hp : s'.parser p = s.parser p) (h : execProcessChunk p xs m j s = .next t)
    (h' : execProcessChunk p xs m j s' = .next t') :
    ∃ r res, t = (s.setParser p r).ret res ∧ t' = (s'.setParser p r).ret res := by
  obtain ⟨-, d, k, r, hr, rfl⟩ := execProcessChunk_next h
  obtain ⟨-, d', k', r', hr', rfl⟩ := execProcessChunk_next h'
  rw [hcfg, hp, hr] at hr'
  cases hr'
  exact ⟨r, _, rfl, rfl⟩

/-- Settles O46: each call finds its ParserState as it was, so it answers the same in either order, and writes to different
ParserStates commute. -/
theorem conversationsAreIndependent : Obligations.ConversationsAreIndependent := by
  intro s s1 s2 u1 u2 p q xs ys m n j k hinv hpq hp hqp hq hpq'
  obtain ⟨hcfg1, hq1⟩ := execProcessChunk_elsewhere hinv.parsersWf hpq.symm hp
  obtain ⟨hcfg2, hp1⟩ := execProcessChunk_elsewhere hinv.parsersWf hpq hq
  obtain ⟨a, x, rfl, rfl⟩ := execProcessChunk_agree hcfg2 hp1 hp hpq'
  obtain ⟨b, y, rfl, rfl⟩ := execProcessChunk_agree hcfg1 hq1 hq hqp
  exact ⟨memSet_comm _ _ _ _ _ _ hinv.parsersWf hpq, rfl, rfl, hq1, hp1⟩

/-! ### Calls in the middle of an operation (R60, R206, R259) -/

/-- R259: in the middle of an operation on a ParserState, the three host operations on it are refused. -/
theorem exec_of_parserBusy {s : State} {ps : Nat} (hb : s.parserBusy ps = true) :
    exec (.psReset ps) s = .refused .overlappingOperation ∧
    (∀ xs n k, exec (.processChunk ps xs n k) s = .refused .overlappingOperation) ∧
    (∀ f, s.mapFault = false → exec (.decodeFrame ps f) s = .refused .overlappingOperation) :=
  ⟨if_pos hb, fun _ _ _ => execProcessChunk_of_refused (if_pos hb),
    fun f hm => by simp [exec, execDecodeFrame, frameRefusal, hm, hb]⟩

/-- R60: the router is in the middle of a lookup before its header byte and before each command word. -/
theorem State.routerBusy_eq_true (s : State) :
    s.routerBusy = true ↔ (∃ bytes length, s.unit = .parsing bytes length) ∨
      (∃ d bytes stop dpos subs, s.unit = .words d bytes stop dpos subs) := by
  unfold State.routerBusy
  cases s.unit <;> simp

/-- R259: `t` holds the ParserState that `s` holds, or the operation has ended. -/
def KeepsHoldOrEnds (s t : State) : Prop := t.decoding = s.decoding ∨ t.unit = .idle

/-- R259: where the decoder goes on the hold is kept. -/
theorem enterWords_keepsHoldOrEnds (d : Domain) (bytes : List Byte) (stop dpos : Nat) (subs : List SubCmd) (s : State) :
    KeepsHoldOrEnds s (enterWords d bytes stop dpos subs s) := by
  unfold enterWords
  split
  · exact .inr rfl
  · exact .inl rfl

/-- R259: behind its location a lookup has failed, or the hold is kept. -/
theorem afterLocation_keepsHoldOrEnds (s : State) (bytes : List Byte) (stop : Nat)
    (x : Except DecodeCause (Byte × Nat)) : KeepsHoldOrEnds s (s.afterLocation bytes stop x) := by
  cases x with
  | error e => exact .inr rfl
  | ok loc =>
    rw [State.afterLocation, routeTo]
    split
    · exact .inr rfl
    · exact enterWords_keepsHoldOrEnds _ _ _ _ _ s.shareMap

/-- R259: behind a command word the decode has failed, or the hold is kept. -/
theorem afterWord_keepsHoldOrEnds (s : State) (d : Domain) (bytes : List Byte) (stop dpos : Nat) (subs : List SubCmd)
    (x : Except DecodeCause (Option SubCmd × Nat)) :
    KeepsHoldOrEnds s (s.afterWord d bytes stop dpos subs x) := by
  cases x with
  | error e => exact .inr rfl
  | ok word => exact enterWords_keepsHoldOrEnds _ _ _ _ _ s

/-- R206, R259: a stepped `DECODE_FRAME` is refused, or it begins: then it holds its ParserState, or it has already ended. -/
theorem beginStepped_decodeFrame_cases (ps : Nat) (f : Bool) (s : State) :
    (∃ r, beginStepped (.decodeFrame ps f) s = .refuse r) ∨
    ∃ t, beginStepped (.decodeFrame ps f) s = .settle t ∧ KeepsHoldOrEnds (s.holdParser ps) t := by
  dsimp only [beginStepped]
  split
  · exact .inl ⟨_, rfl⟩
  · refine .inr ⟨_, beginLookup_eq _ _ _ _ _, ?_⟩
    split
    · exact afterLocation_keepsHoldOrEnds _ _ _ _
    · exact .inl rfl

/-- R206, R259: the step that begins a stepped `DECODE_FRAME` holds its ParserState, or ends the operation. -/
theorem step_decodeFrame_holds {s t : State} {ps : Nat} {f : Bool} {rest : List Invocation} (hu : s.unit = .idle)
    (hp : s.pending = { op := .decodeFrame ps f, stepped := true } :: rest) (h : step s = .next t) :
    t.decoding = some ps ∨ t.unit = .idle := by
  have hc := configLegal_of_step _ _ h
  have hf := fetchNext_stepped hu hp
  rcases beginStepped_decodeFrame_cases ps f { s with pending := rest } with ⟨r, hr⟩ | ⟨u, hsettle, hholds⟩
  · simp [step, fetch, hf, hr, underLegal, hc] at h
  · rw [step_of_fetch_settle _ _ hc (hf.trans hsettle)] at h
    cases h
    exact hholds

/-- R204, R259: the router, stepped, keeps the hold or ends the operation. -/
theorem step_parsing_keepsHoldOrEnds {s t : State} {bytes : List Byte} {length : Nat}
    (hu : s.unit = .parsing bytes length) (h : step s = .next t) : KeepsHoldOrEnds s t := by
  have hc := configLegal_of_step _ _ h
  cases hm : s.mapFault with
  | true => simp [step, fetch, fetchNext, hu, hm, underLegal, hc] at h
  | false =>
    rw [step_parsing false hc hu hm] at h
    cases h
    exact afterLocation_keepsHoldOrEnds _ _ _ _

/-- R167, R259: the decoder, stepped, keeps the hold or ends the operation. -/
theorem step_words_keepsHoldOrEnds {s t : State} {d : Domain} {bytes : List Byte} {stop dpos : Nat} {subs : List SubCmd}
    (hu : s.unit = .words d bytes stop dpos subs) (hs : stop ≤ bytes.length) (h : step s = .next t) :
    KeepsHoldOrEnds s t := by
  have hc := configLegal_of_step _ _ h
  by_cases hd : dpos < stop
  · obtain ⟨id, rest, hat⟩ := atWord_of_lt hu hs hd
    rw [hat.step_eq hc] at h
    cases h
    exact afterWord_keepsHoldOrEnds _ _ _ _ _ _ _
  · have hf : fetchNext s = .settle (enterWords d bytes stop dpos subs s) := by
      simp [fetchNext, hu, Nat.not_lt.mp hd]
    rw [step_of_fetch_settle _ _ hc hf] at h
    cases h
    exact enterWords_keepsHoldOrEnds _ _ _ _ _ _

/-- R206, R259: a ParserState is held in the middle of a lookup only, and every step of a lookup keeps the hold or ends it. -/
theorem step_keeps_decoding {s t : State} {ps : Nat} (hinv : StateInv s) (hd : s.decoding = some ps)
    (h : step s = .next t) : t.decoding = some ps ∨ t.unit = .idle := by
  rw [← hd]
  rcases s.routerBusy_eq_true.mp (hinv.decodingInv (by simp [hd])) with ⟨bytes, length, hu⟩ | ⟨d, bytes, stop, dpos, subs, hu⟩
  · exact step_parsing_keepsHoldOrEnds hu h
  · have hunit := hinv.unitInv
    rw [hu] at hunit
    obtain ⟨-, hstop, -⟩ := hunit
    exact step_words_keepsHoldOrEnds hu hstop.le h

/-- Settles O50: the refusals by `parserBusy` and `routerBusy`, and the hold of a stepped `DECODE_FRAME` by its first step and
by every later one. -/
theorem overlappingCallsAreRefused : Obligations.OverlappingCallsAreRefused := by
  refine ⟨fun s ps hb => exec_of_parserBusy ((s.parserBusy_eq_true ps).mpr hb), fun s a x hm hb => ?_,
    fun s t ps f rest hu hp h => step_decodeFrame_holds hu hp h, fun s t ps hinv hd h => step_keeps_decoding hinv hd h⟩
  have hbusy := s.routerBusy_eq_true.mpr hb
  simp [exec, execAddMapping, hm, hbusy]

end Sys2Proof.Machine
end

section
/-! PROOFS. The operand forms in arithmetic: hex digits (O1), nibble pairs, header bytes and the id byte of a LONG word. -/

namespace Sys2Proof.Machine

/-- Settles O1: the three ranges of the test are the three digits, upper-case and lower-case forms of `v`. -/
theorem hexDigitValues : Obligations.HexDigitValues := by
  intro cfg c v
  have hc := c.isLt
  unfold hexval
  split_ifs with hdigit hupper hlower <;>
    simp only [BitVec.le_def, BitVec.toNat_ofNat, Option.some.injEq, ← BitVec.toNat_inj, BitVec.toNat_setWidth,
      BitVec.toNat_sub, false_iff] at *
  · omega
  · omega
  · obtain ⟨haccept, hge, hle⟩ := hlower
    simp only [haccept, true_and]
    omega
  · by_cases haccept : cfg.acceptLowerHex = true
    · simp only [haccept, true_and] at hlower ⊢
      omega
    · simp only [haccept, Bool.false_eq_true, false_and, or_false]
      omega

/-- R75: the byte of two nibbles, in arithmetic. -/
theorem joinNibbles_eq_ofNat (h l : Nibble) : joinNibbles h l = BitVec.ofNat 8 (16 * h.toNat + l.toNat) := by
  revert h l
  decide

/-- R84: the byte of three header fields, in arithmetic. -/
theorem toNat_packHeader (p : BitVec 2) (g k : BitVec 3) :
    (packHeader p g k).toNat = 64 * p.toNat + 8 * g.toNat + k.toNat := by
  revert p g k
  decide

/-- R78: bits 7:6 of a header byte give back its priority. -/
@[simp] theorem headerPriority_packHeader (p : BitVec 2) (g k : BitVec 3) : headerPriority (packHeader p g k) = p := by
  apply BitVec.eq_of_toNat_eq
  have hg := g.isLt
  have hk := k.isLt
  rw [headerPriority, BitVec.extractLsb'_toNat, toNat_packHeader, Nat.shiftRight_eq_div_pow]
  omega

/-- R78: bits 5:3 of a header byte give back its ignored bits. -/
@[simp] theorem headerIgnored_packHeader (p : BitVec 2) (g k : BitVec 3) : headerIgnored (packHeader p g k) = g := by
  apply BitVec.eq_of_toNat_eq
  have hk := k.isLt
  rw [headerIgnored, BitVec.extractLsb'_toNat, toNat_packHeader, Nat.shiftRight_eq_div_pow]
  omega

/-- R78: bits 2:0 of a header byte give back its address-type code. -/
@[simp] theorem headerCode_packHeader (p : BitVec 2) (g k : BitVec 3) : headerCode (packHeader p g k) = k := by
  apply BitVec.eq_of_toNat_eq
  rw [headerCode, BitVec.extractLsb'_toNat, toNat_packHeader, Nat.shiftRight_zero]
  omega

/-- R76, R85: the id byte of a LONG word, in arithmetic. -/
theorem toNat_packLong (x : BitVec 2) (n : BitVec 5) : (packLong x n).toNat = 128 + 32 * x.toNat + n.toNat := by
  revert x n
  decide

/-- R85: an id whose bit 7 is set is 128 or above. -/
theorem isLongForm_iff (id : Byte) : isLongForm id = true ↔ 128 ≤ id.toNat := by
  rw [← not_iff_not, Bool.not_eq_true, not_isLongForm_iff, Nat.not_le]

/-- R76: the length operand of a long-form id, in arithmetic. -/
theorem longLength_eq_mod (id : Byte) : longLength id = id.toNat % 32 := by
  rw [longLength, BitVec.extractLsb'_toNat, Nat.shiftRight_zero]

/-- R85: the id byte of a LONG word has bit 7 set. -/
theorem isLongForm_packLong (x : BitVec 2) (n : BitVec 5) : isLongForm (packLong x n) = true := by
  rw [isLongForm_iff, toNat_packLong]
  omega

/-- R85: bits 6:5 of the id byte of a LONG word. -/
theorem extractLsb'_packLong_ignored (x : BitVec 2) (n : BitVec 5) : (packLong x n).extractLsb' 5 2 = x := by
  apply BitVec.eq_of_toNat_eq
  have hn := n.isLt
  rw [BitVec.extractLsb'_toNat, toNat_packLong, Nat.shiftRight_eq_div_pow]
  omega

/-- R76: bits 4:0 of the id byte of a LONG word. -/
theorem extractLsb'_packLong_length (x : BitVec 2) (n : BitVec 5) : (packLong x n).extractLsb' 0 5 = n := by
  apply BitVec.eq_of_toNat_eq
  rw [BitVec.extractLsb'_toNat, toNat_packLong, Nat.shiftRight_zero]
  omega

/-- R76: the length operand of the id byte of a LONG word. -/
theorem longLength_packLong (x : BitVec 2) (n : BitVec 5) : longLength (packLong x n) = n.toNat := by
  rw [longLength, extractLsb'_packLong_length]

end Sys2Proof.Machine
end

section
/-! PROOFS. The LONG word in the decoder (O28). -/

namespace Sys2Proof.Machine

/-- R171: the row LONG, where the decoder stands at `dpos`. -/
theorem exec_long {s : State} {d : Domain} {bytes : List Byte} {stop dpos : Nat} {subs : List SubCmd}
    (hu : s.unit = .words d bytes stop dpos subs) (x : BitVec 2) (n : BitVec 5) (content : List Byte) :
    exec (.long x n content) s = .next
      (if dpos + 1 + n.toNat ≤ stop then s.wordsAt d bytes stop (dpos + 1 + n.toNat) subs else s.finish .absent) := by
  show wordStep inBoth (1 + n.toNat) none s = _
  simp only [wordStep, hu, inBoth, Option.toList_none, List.append_nil, ← Nat.add_assoc, Bool.not_true,
    Bool.false_eq_true, if_false]
  split_ifs
  · rfl
  · rfl

/-- Settles O28: the row by its meaning, and the step at an id with bit 7 set by the word that `wordAt` reads there. -/
theorem longWordIsSkipped : Obligations.LongWordIsSkipped := by
  intro s d bytes stop dpos subs hu
  refine ⟨exec_long hu, fun id hc hd hs hid hlong => ?_⟩
  obtain ⟨_, _, hat⟩ := atWord_of_lt hu hs.le hd
  have hrd : rd bytes stop dpos = .ok id := (rd_eq_ok _ _ _ _).mpr ⟨hd, hid⟩
  rw [hat.step_eq hc, wordAt_long hrd ((isLongForm_iff id).mpr hlong), longLength_eq_mod]
  split_ifs
  · simp [State.afterWord, State.wordsAt, enterWords, Nat.add_assoc]
  · rfl

end Sys2Proof.Machine
end

section
/-! PROOFS. The decoder reads back what the encoder writes, space by space (O59); the header rows, where `HDR_DECODE` is
stepped (O21); words written out from the tables (O60). -/

namespace Sys2Proof.Machine

/-! ### Header bytes (R84, R89, R95) -/

/-- R84, R11: a legal `Config` leaves five codes unrecognised. -/
theorem unrecognisedCodes_length {cfg : Config} (hc : configLegal cfg = true) : (unrecognisedCodes cfg).length = 5 := by
  have count : ∀ one two : BitVec 3, one ≠ 5#3 → two ≠ 5#3 → one ≠ two →
      (([0, 1, 2, 3, 4, 5, 6, 7] : List (BitVec 3)).filter fun k => k ≠ atNone ∧ k ≠ two ∧ k ≠ one).length = 5 := by
    decide
  obtain ⟨-, -, -, hone, htwo, hne, -⟩ := (configLegal_iff cfg).mp hc
  exact count _ _ hone htwo hne

/-- R84: the unrecognised codes rise, so none is listed twice. -/
theorem unrecognisedCodes_nodup (cfg : Config) : (unrecognisedCodes cfg).Nodup :=
  List.Nodup.filter _ (by decide)

/-- R89: an unrecognised code is the code of no other row, and it stands in its place in the list. -/
theorem unrecognisedCode_spec {cfg : Config} (hc : configLegal cfg = true) {k : Nat} (hk : k < 5) :
    (unrecognisedCode cfg k ≠ 5#3 ∧ unrecognisedCode cfg k ≠ cfg.atTwo ∧ unrecognisedCode cfg k ≠ cfg.atOne) ∧
    (unrecognisedCodes cfg).idxOf (unrecognisedCode cfg k) = k := by
  have hlen : k < (unrecognisedCodes cfg).length := by rwa [unrecognisedCodes_length hc]
  have hcode : unrecognisedCode cfg k = (unrecognisedCodes cfg)[k] := List.getD_eq_getElem _ _ hlen
  have hmem : unrecognisedCode cfg k ∈ unrecognisedCodes cfg := hcode ▸ List.getElem_mem hlen
  refine ⟨of_decide_eq_true (List.mem_filter.mp hmem).2, ?_⟩
  rw [hcode]
  exact (unrecognisedCodes_nodup cfg).idxOf_getElem k hlen

/-- R84, R89, R95: a header byte decodes to the row it was encoded from. -/
theorem decodeHeaderByte_headerByteOf {cfg : Config} (hc : configLegal cfg = true) {i : Instr} {h : Byte}
    (hi : headerByteOf cfg i = some h) : decodeHeaderByte cfg h = i := by
  obtain ⟨-, -, -, hone, htwo, hne, -⟩ := (configLegal_iff cfg).mp hc
  cases i <;> cases hi
  case hdrNoaddr => simp [decodeHeaderByte]
  case hdrTwobyte => simp [decodeHeaderByte, htwo]
  case hdrOnebyte => simp [decodeHeaderByte, hone, hne]
  case hdrUnrecognised0 => simp [decodeHeaderByte, unrecognisedCode_spec hc]
  case hdrUnrecognised1 => simp [decodeHeaderByte, unrecognisedCode_spec hc]
  case hdrUnrecognised2 => simp [decodeHeaderByte, unrecognisedCode_spec hc]
  case hdrUnrecognised4 => simp [decodeHeaderByte, unrecognisedCode_spec hc]
  case hdrUnrecognised7 => simp [decodeHeaderByte, unrecognisedCode_spec hc]

/-- Settles O21: the row is the one decoded from its byte, and that row selects the address type of the byte. -/
theorem headerRowsDecode : Obligations.HeaderRowsDecode := by
  intro s i b h hc hu hi
  rw [← decodeHeaderByte_headerByteOf hc hi, exec_decodeHeaderByte]
  simp only [headerStep, hu]
  rfl

/-! ### Characters (R71, R72, R95) -/

/-- R71, R95: the characters that the upper-case hex rows are met by. -/
theorem upperHexRow_range {c : Byte} {i : Instr} (h : upperHexRow c = some i) :
    (0x30#8 ≤ c ∧ c ≤ 0x39#8) ∨ (0x41#8 ≤ c ∧ c ≤ 0x46#8) := by
  unfold upperHexRow at h
  iterate 16
    refine row_cases (p := fun _ => (0x30#8 ≤ c ∧ c ≤ 0x39#8) ∨ (0x41#8 ≤ c ∧ c ≤ 0x46#8)) h
      (fun e => by subst e; decide) (fun h' => ?_)
    clear h
    rename' h' => h
  cases h

/-- R71, R95: the characters that the lower-case hex rows are met by. -/
theorem lowerHexRow_range {c : Byte} {i : Instr} (h : lowerHexRow c = some i) : 0x61#8 ≤ c ∧ c ≤ 0x66#8 := by
  unfold lowerHexRow at h
  iterate 6
    refine row_cases (p := fun _ => 0x61#8 ≤ c ∧ c ≤ 0x66#8) h (fun e => by subst e; decide) (fun h' => ?_)
    clear h
    rename' h' => h
  cases h

/-- R71, R95: an upper-case hex row is met by hex digits only. -/
theorem upperHexRow_eq_none {cfg : Config} {c : Byte} (h : hexval cfg c = none) : upperHexRow c = none := by
  refine Option.eq_none_iff_forall_ne_some.mpr fun i hi => ?_
  unfold hexval at h
  split_ifs at h with hdigit hupper
  rcases upperHexRow_range hi with hr | hr
  · exact hdigit hr
  · exact hupper hr

/-- R71, R95: under `ACCEPT_LOWER_HEX` a lower-case hex row is met by hex digits only. -/
theorem lowerHexRow_eq_none {cfg : Config} {c : Byte} (ha : cfg.acceptLowerHex = true) (h : hexval cfg c = none) :
    lowerHexRow c = none := by
  refine Option.eq_none_iff_forall_ne_some.mpr fun i hi => ?_
  unfold hexval at h
  split_ifs at h with hdigit hupper hlower
  exact hlower ⟨ha, lowerHexRow_range hi⟩

/-- R72, R95: what the well-formedness of a special row asks of its character. -/
theorem specialRowFree_iff (cfg : Config) (k : Nat) (c : Byte) :
    specialRowFree cfg k c = true ↔ hexval cfg c = none ∧ c ∉ (specialChars cfg).take k := by
  simp [specialRowFree]

/-- R72, R95: a special row is met by the special characters only. -/
theorem specialRow_eq_none {cfg : Config} {c : Byte} (h : c ∉ specialChars cfg) : specialRow cfg c = none := by
  simp only [specialChars, List.mem_cons, List.not_mem_nil, or_false, not_or] at h
  obtain ⟨h0, h1, h2, h3, h4, h5, h6, h7⟩ := h
  simp only [specialRow, if_neg h0, if_neg h1, if_neg h2, if_neg h3, if_neg h4, if_neg h5, if_neg h6, if_neg h7]

/-- R72, R95: behind the hex rows the special rows are tried, and behind them the lower-case rows. -/
theorem decodeChar_of_not_hex {cfg : Config} {c : Byte} (h : hexval cfg c = none) :
    decodeChar cfg c = ((specialRow cfg c).or (lowerHexRow c)).getD (.other c) := by
  have hlower : (if cfg.acceptLowerHex then lowerHexRow c else none) = none := by
    split_ifs with ha
    · exact lowerHexRow_eq_none ha h
    · rfl
  simp only [decodeChar, upperHexRow_eq_none h, hlower]
  cases specialRow cfg c <;> rfl

/-- R72, R95: the row of a special character that no earlier row claims. -/
theorem decodeChar_of_free {cfg : Config} {k : Nat} {c : Byte} {i : Instr} (hw : specialRowFree cfg k c = true)
    (hi : c ∉ (specialChars cfg).take k → specialRow cfg c = some i) : decodeChar cfg c = i := by
  obtain ⟨hx, hfree⟩ := (specialRowFree_iff cfg k c).mp hw
  rw [decodeChar_of_not_hex hx, hi hfree]
  rfl

/-- R72: the row OTHER is met by a character that no other row claims. -/
theorem decodeChar_other {cfg : Config} {c : Byte} (hw : (Instr.other c).wf cfg = true) : decodeChar cfg c = .other c := by
  simp only [Instr.wf, Bool.and_eq_true, specialRowFree_iff, Bool.not_eq_true', Bool.and_eq_false_iff,
    decide_eq_false_iff_not] at hw
  obtain ⟨⟨hx, hfree⟩, hrange⟩ := hw
  have hlower : lowerHexRow c = none := by
    refine Option.eq_none_iff_forall_ne_some.mpr fun i hi => ?_
    obtain ⟨hlow, hhigh⟩ := lowerHexRow_range hi
    exact hrange.elim (fun h => h hlow) fun h => h hhigh
  rw [decodeChar_of_not_hex hx, specialRow_eq_none hfree, hlower]
  rfl

/-- R71, R95: the row of a lower-case hex letter, before the special rows or behind them (log entry 12). -/
theorem decodeChar_of_lowerHexRow {cfg : Config} {c : Byte} {i : Instr} (hu : upperHexRow c = none)
    (hi : lowerHexRow c = some i) (hw : lowerRowFree cfg c = true) : decodeChar cfg c = i := by
  cases ha : cfg.acceptLowerHex with
  | true => simp only [decodeChar, hu, ha, hi, if_true]
  | false =>
    have hs : specialRow cfg c = none := specialRow_eq_none (by simpa [lowerRowFree, ha] using hw)
    simp [decodeChar, hu, ha, hs, hi]

/-- R71, R72, R95: a character decodes to the row it was encoded from. -/
theorem decodeChar_charOf {cfg : Config} {i : Instr} {c : Byte} (hw : i.wf cfg = true) (hi : charOf cfg i = some c) :
    decodeChar cfg c = i := by
  cases i <;> cases hi
  case hexLowerA => exact decodeChar_of_lowerHexRow rfl rfl hw
  case hexLowerB => exact decodeChar_of_lowerHexRow rfl rfl hw
  case hexLowerC => exact decodeChar_of_lowerHexRow rfl rfl hw
  case hexLowerD => exact decodeChar_of_lowerHexRow rfl rfl hw
  case hexLowerE => exact decodeChar_of_lowerHexRow rfl rfl hw
  case hexLowerF => exact decodeChar_of_lowerHexRow rfl rfl hw
  case stx => exact decodeChar_of_free hw fun _ => by simp [specialRow]
  case cr => exact decodeChar_of_free hw fun h => by simp_all [specialRow, specialChars]
  case lf => exact decodeChar_of_free hw fun h => by simp_all [specialRow, specialChars]
  case ack => exact decodeChar_of_free hw fun h => by simp_all [specialRow, specialChars]
  case nak => exact decodeChar_of_free hw fun h => by simp_all [specialRow, specialChars]
  case nakCorrupt => exact decodeChar_of_free hw fun h => by simp_all [specialRow, specialChars]
  case nakNoclock => exact decodeChar_of_free hw fun h => by simp_all [specialRow, specialChars]
  case nakToolong => exact decodeChar_of_free hw fun h => by simp_all [specialRow, specialChars]
  case other => exact decodeChar_other hw
  all_goals rfl

/-! ### Command words (R85 to R87, R95) -/

/-- R76, R85: a LONG word, in either domain, with anything behind it. -/
theorem decodeWord_packLong {cfg : Config} (d : Domain) {x : BitVec 2} {n : BitVec 5} {content : List Byte}
    (rest : List Byte) (h : content.length = n.toNat) :
    decodeWord cfg d (packLong x n) (content ++ rest) = .ok (.long x n content) := by
  simp only [decodeWord, isLongForm_packLong, if_true]
  rw [decodeLong, longLength_packLong, extractLsb'_packLong_ignored, extractLsb'_packLong_length, ← h,
    List.take_left, if_pos (by simp)]

/-- R86: a short-form word of Lighting, by its id. -/
theorem decodeWord_lighting {cfg : Config} {id : Byte} (h : id.toNat < 128) (rest : List Byte) :
    decodeWord cfg .lighting id rest =
      if id = lightOn then decodeS1 .on rest
      else if id = cfg.lightOff then decodeS1 .off rest
      else if id = cfg.lightTerminate then decodeS1 .terminate rest
      else if isLightRamp cfg id then decodeS2 (.ramp id) rest
      else .ok (.lightUnknown id) := by
  simp only [decodeWord, (not_isLongForm_iff id).mpr h, Bool.false_eq_true, if_false]

/-- R87: a short-form word of Trigger, by its id. -/
theorem decodeWord_trigger {cfg : Config} {id : Byte} (h : id.toNat < 128) (rest : List Byte) :
    decodeWord cfg .trigger id rest =
      if id = trigEvent then decodeS2 .event rest
      else if id = cfg.trigMin then decodeS1 .min rest
      else if id = cfg.trigMax then decodeS1 .max rest
      else if id = cfg.trigKill then decodeS1 .kill rest
      else .ok (.trigUnknown id) := by
  simp only [decodeWord, (not_isLongForm_iff id).mpr h, Bool.false_eq_true, if_false]

/-- R85, R90: what the well-formedness of a row of unrecognised ids asks of its id. -/
theorem unknownId_iff (cfg : Config) (d : Domain) (id : Byte) :
    unknownId cfg d id = true ↔ id.toNat < 128 ∧ shortForm cfg d id = none := by
  rw [unknownId, Bool.and_eq_true, Bool.not_eq_true', not_isLongForm_iff, Option.isNone_iff_eq_none]

/-- R86, R90, R95: a command word of Lighting decodes to the row it was encoded from. -/
theorem decodeIn_lighting {cfg : Config} (hc : configLegal cfg = true) {i : Instr} {bytes : List Byte} (rest : List Byte)
    (hw : i.wf cfg = true) (hs : i.inSpace (.word .lighting) = true) (hi : wordBytesOf cfg i = some bytes) :
    decodeIn cfg (.word .lighting) (bytes ++ rest) = .ok i := by
  obtain ⟨-, -, -, -, -, -, hids, hramp, hoff, hterm, -⟩ := (configLegal_iff cfg).mp hc
  simp only [List.pairwise_cons, List.forall_mem_cons] at hids
  obtain ⟨⟨hon_off, hon_term, -⟩, ⟨hoff_term, -⟩, -⟩ := hids
  cases i <;> cases hs <;> cases hi
  case long => exact decodeWord_packLong .lighting rest (eq_of_beq hw)
  case on => exact decodeWord_lighting (by decide) _
  case off =>
    refine (decodeWord_lighting hoff _).trans ?_
    simp [hon_off.symm, decodeS1]
  case terminate =>
    refine (decodeWord_lighting hterm _).trans ?_
    simp [hon_term.symm, hoff_term.symm, decodeS1]
  case ramp id _ _ =>
    have hramp_id : isLightRamp cfg id = true := hw
    obtain ⟨(hne_on : id ≠ lightOn), hne_off, hne_term, hlt⟩ := hramp id (List.contains_iff_mem.mp hw)
    refine (decodeWord_lighting hlt _).trans ?_
    simp only [if_neg hne_on, if_neg hne_off, if_neg hne_term, if_pos hramp_id]
    rfl
  case lightUnknown id =>
    obtain ⟨hlt, hnone⟩ := (unknownId_iff cfg .lighting id).mp hw
    refine (decodeWord_lighting hlt _).trans ?_
    simp only [shortForm] at hnone
    split_ifs at hnone with hplain hr
    simp only [not_or] at hplain
    obtain ⟨hne_on, hne_off, hne_term⟩ := hplain
    simp only [if_neg hne_on, if_neg hne_off, if_neg hne_term, if_neg hr]

/-- R87, R90, R95: a command word of Trigger decodes to the row it was encoded from. -/
theorem decodeIn_trigger {cfg : Config} (hc : configLegal cfg = true) {i : Instr} {bytes : List Byte} (rest : List Byte)
    (hw : i.wf cfg = true) (hs : i.inSpace (.word .trigger) = true) (hi : wordBytesOf cfg i = some bytes) :
    decodeIn cfg (.word .trigger) (bytes ++ rest) = .ok i := by
  obtain ⟨-, -, -, -, -, -, -, -, -, -, hids, hmin, hmax, hkill, -⟩ := (configLegal_iff cfg).mp hc
  simp only [List.pairwise_cons, List.forall_mem_cons] at hids
  obtain ⟨⟨hev_min, hev_max, hev_kill, -⟩, ⟨hmin_max, hmin_kill, -⟩, ⟨hmax_kill, -⟩, -⟩ := hids
  cases i <;> cases hs <;> cases hi
  case long => exact decodeWord_packLong .trigger rest (eq_of_beq hw)
  case event => exact decodeWord_trigger (by decide) _
  case min =>
    refine (decodeWord_trigger hmin _).trans ?_
    simp [hev_min.symm, decodeS1]
  case max =>
    refine (decodeWord_trigger hmax _).trans ?_
    simp [hev_max.symm, hmin_max.symm, decodeS1]
  case kill =>
    refine (decodeWord_trigger hkill _).trans ?_
    simp [hev_kill.symm, hmin_kill.symm, hmax_kill.symm, decodeS1]
  case trigUnknown id =>
    obtain ⟨hlt, hnone⟩ := (unknownId_iff cfg .trigger id).mp hw
    refine (decodeWord_trigger hlt _).trans ?_
    simp only [shortForm] at hnone
    split_ifs at hnone with hplain hevent
    simp only [not_or] at hplain
    obtain ⟨hne_min, hne_max, hne_kill⟩ := hplain
    simp only [if_neg hevent, if_neg hne_min, if_neg hne_max, if_neg hne_kill]

/-! ### Outbound constants (R92, R95) -/

/-- R92, R95: an outbound byte decodes to the row it was encoded from. -/
theorem decodeOutByte_outboundOf {cfg : Config} {i : Instr} {b : Byte} (hs : i.inSpace .outByte = true)
    (hi : outboundOf cfg i = some b) : decodeOutByte b = .ok i := by
  cases i <;> cases hs <;> cases hi
  case calPrefix => rfl
  case reservedZero => rfl

/-- R92, R95: an outbound character decodes to the row it was encoded from. -/
theorem decodeOutChar_outboundOf {cfg : Config} {i : Instr} {b : Byte} (hw : i.wf cfg = true)
    (hs : i.inSpace .outChar = true) (hi : outboundOf cfg i = some b) : decodeOutChar cfg b = .ok i := by
  cases i <;> cases hs <;> cases hi
  case direct => exact if_pos rfl
  case reset =>
    have hdirect : cfg.chReset ≠ cfg.chDirect := by simpa [Instr.wf] using hw
    simp only [decodeOutChar, if_neg hdirect, if_true]
  case stxOut =>
    obtain ⟨hdirect, hreset⟩ : cfg.chStx ≠ cfg.chDirect ∧ cfg.chStx ≠ cfg.chReset := by simpa [Instr.wf] using hw
    simp only [decodeOutChar, if_neg hdirect, if_neg hreset, if_true]
  case crOut =>
    obtain ⟨hdirect, hreset, hstx⟩ : chCr ≠ cfg.chDirect ∧ chCr ≠ cfg.chReset ∧ chCr ≠ cfg.chStx := by
      simpa [Instr.wf] using hw
    simp only [decodeOutChar, if_neg hdirect, if_neg hreset, if_neg hstx, if_true]

/-! ### The encoding of a row, by its space (R95) -/

/-- R70: a row of the character space is encoded as its character. -/
theorem encode_character {cfg : Config} {i : Instr} {bytes : List Byte} (hs : i.inSpace .character = true)
    (he : encode cfg i = some bytes) : ∃ c, charOf cfg i = some c ∧ bytes = [c] := by
  cases i <;> cases hs <;> cases he <;> exact ⟨_, rfl, rfl⟩

/-- R84: a row of the header space is encoded as its header byte. -/
theorem encode_header {cfg : Config} {i : Instr} {bytes : List Byte} (hs : i.inSpace .header = true)
    (he : encode cfg i = some bytes) : ∃ h, headerByteOf cfg i = some h ∧ bytes = [h] := by
  cases i <;> cases hs <;> cases he <;> exact ⟨_, rfl, rfl⟩

/-- R85: a row of a domain's word space is encoded as its command word. -/
theorem encode_word {cfg : Config} {d : Domain} {i : Instr} {bytes : List Byte} (hs : i.inSpace (.word d) = true)
    (he : encode cfg i = some bytes) : wordBytesOf cfg i = some bytes := by
  cases i <;> cases d <;> cases hs <;> exact he

/-- R92: a row of an outbound space is encoded as its constant. -/
theorem encode_outbound {cfg : Config} {i : Instr} {bytes : List Byte}
    (hs : i.inSpace .outByte = true ∨ i.inSpace .outChar = true) (he : encode cfg i = some bytes) :
    ∃ b, outboundOf cfg i = some b ∧ bytes = [b] := by
  cases i <;> rcases hs with hs | hs <;> cases hs <;> cases he <;> exact ⟨_, rfl, rfl⟩

/-- Settles O59, space by space. -/
theorem decodeReadsBackEncode : Obligations.DecodeReadsBackEncode := by
  intro cfg sp i bytes rest hc hw hs he
  match sp with
  | .character =>
    obtain ⟨c, hi, rfl⟩ := encode_character hs he
    exact congrArg Except.ok (decodeChar_charOf hw hi)
  | .header =>
    obtain ⟨h, hi, rfl⟩ := encode_header hs he
    exact congrArg Except.ok (decodeHeaderByte_headerByteOf hc hi)
  | .word .lighting => exact decodeIn_lighting hc rest hw hs (encode_word hs he)
  | .word .trigger => exact decodeIn_trigger hc rest hw hs (encode_word hs he)
  | .outByte =>
    obtain ⟨b, hi, rfl⟩ := encode_outbound (.inl hs) he
    exact decodeOutByte_outboundOf hs hi
  | .outChar =>
    obtain ⟨b, hi, rfl⟩ := encode_outbound (.inr hs) he
    exact decodeOutChar_outboundOf hw hs hi

/-- Settles O60, by evaluation. -/
theorem writtenWordsDecode : Obligations.WrittenWordsDecode := by
  unfold Obligations.WrittenWordsDecode
  decide

end Sys2Proof.Machine
end

section
/-! PROOFS. The framer, phase by phase, as equations (O6); the texts of the inbound grammar it delivers (O12), and that it
delivers no other (O13). -/

namespace Sys2Proof.Machine

/-! ### A `Step`, phase by phase (R102 to R112) -/

section Phases

variable {cfg : Config} {p : ParserState}

/-- R102, R103: phase Idle or Complete. -/
theorem framerStep_idle (hp : p.phase = .idle ∨ p.phase = .complete) (c : Byte) :
    framerStep cfg p c = some
      { phase := if c = cfg.chStx then .stxFound
                 else if (hexval cfg c).isSome = true then .expectLowNibble else .ackPending
        buf := [], prev := c, ack := none, cls := .pending } := by
  have hr : phaseRule cfg p c = phaseIdle cfg p c := by
    unfold phaseRule
    rcases hp with hp | hp <;> rw [hp]
  simp only [framerStep, hr, phaseIdle_eq, restart]

/-- R106: phase StxFound. -/
theorem framerStep_stxFound (hp : p.phase = .stxFound) (c : Byte) :
    framerStep cfg p c = some
      (if (hexval cfg c).isSome = true then { p with phase := .expectLowNibble, prev := c } else discarded c) := by
  simp only [framerStep, phaseRule, hp, phaseStxFound]
  split_ifs <;> rfl

/-- R107: phase AckPending, by the classification that the character selects. -/
theorem framerStep_ackPending (hp : p.phase = .ackPending) (c : Byte) :
    framerStep cfg p c = some
      (match outcomeOf cfg c with
       | some k =>
         { p with phase := .complete, prev := c, ack := if k = .ack then some p.prev else p.ack, cls := k }
       | none => discarded c) := by
  simp only [framerStep, phaseRule, hp, phaseAckPending, outcomeOf]
  split_ifs <;> rfl

/-- R108 to R110: phase ExpectHighNibble. -/
theorem framerStep_expectHigh (hp : p.phase = .expectHighNibble) (c : Byte) :
    framerStep cfg p c = some
      (if (hexval cfg c).isSome = true then { p with phase := .expectLowNibble, prev := c }
       else if c = chCr then { p with phase := .complete, prev := c, cls := .salReceived }
       else discarded c) := by
  simp only [framerStep, phaseRule, hp, phaseExpectHigh]
  split_ifs <;> rfl

/-- R111, R112: phase ExpectLowNibble behind a high nibble. -/
theorem framerStep_expectLow (hp : p.phase = .expectLowNibble) {h : Nibble} (hh : hexval cfg p.prev = some h)
    (c : Byte) :
    framerStep cfg p c = some
      (match hexval cfg c with
       | none => discarded c
       | some l =>
         if p.buf.length < cfg.cap then
           { p with
             phase := .expectHighNibble
             prev := c
             buf := p.buf ++ [BitVec.ofNat 8 (16 * h.toNat + l.toNat)] }
         else discarded c) := by
  simp only [framerStep, phaseRule, hp, phaseExpectLow, hh, joinNibbles_eq_ofNat]
  cases hexval cfg c with
  | none => rfl
  | some l => dsimp only; split_ifs <;> rfl

/-- R111: a low nibble behind a high nibble appends its byte, while there is room. -/
theorem framerStep_lowNibble (hp : p.phase = .expectLowNibble) {h l : Nibble} {c : Byte}
    (hh : hexval cfg p.prev = some h) (hl : hexval cfg c = some l) (hroom : p.buf.length < cfg.cap) :
    framerStep cfg p c = some
      { p with
        phase := .expectHighNibble
        prev := c
        buf := p.buf ++ [BitVec.ofNat 8 (16 * h.toNat + l.toNat)] } := by
  simp only [framerStep_expectLow hp hh, hl, if_pos hroom]

end Phases

/-- Settles O6: no case of the phase reaches a terminal classification, so the framer moves on. -/
theorem expectLowNibblePhase : Obligations.ExpectLowNibblePhase := by
  intro s i c ps chars cursor h hi hu hinv hp hh
  obtain ⟨hcls, -⟩ := hinv.candidate (by simp [hp]) (by simp [hp])
  rw [exec_charOf i c s hi]
  refine feedChar_moved s c ps chars cursor _ hu (framerStep_expectLow hp hh c) ?_
  cases hexval s.cfg c with
  | none => rfl
  | some l =>
    dsimp only
    split_ifs
    · rw [hcls]; rfl
    · rfl

/-! ### Characters that complete nothing, and one that completes a message -/

section Turn

variable {cfg : Config} {chars : List Byte} {k : Nat} {p q : ParserState} {c : Byte}

/-- R113: a turn of the chunk loop goes on behind a character that reaches no terminal classification. -/
theorem consumeChar_moved (hs : framerStep cfg p c = some q) (hq : q.cls.terminal = false) :
    consumeChar cfg chars k p c = some (q, k + 1, false) := by
  simp [consumeChar, hs, hq]

/-- R113, R115: a turn returns behind a character that reaches a terminal classification. -/
theorem consumeChar_returned (hs : framerStep cfg p c = some q) (hq : q.cls.terminal = true)
    (hpeek : ¬(q.cls = .salReceived ∧ chars[k + 1]? = some chLf)) :
    consumeChar cfg chars k p c = some (q, k + 1, true) := by
  simp only [consumeChar, hs, hq, if_true, if_neg hpeek]

/-- R115: a turn takes a secondary terminator with the primary one. -/
theorem consumeChar_upgraded (hs : framerStep cfg p c = some q) (hq : q.cls = .salReceived)
    (hpeek : chars[k + 1]? = some chLf) :
    consumeChar cfg chars k p c = some ({ q with cls := .monitoredSalReceived, prev := chLf }, k + 2, true) := by
  have hterm : q.cls.terminal = true := by rw [hq]; rfl
  simp only [consumeChar, hs, hterm, if_true, if_pos (And.intro hq hpeek)]

end Turn

/-- R113: the characters `w` lead the framer from `p` to `q`, and none of them reaches a terminal classification. -/
def Consumes (cfg : Config) : List Byte → ParserState → ParserState → Prop
  | [], p, q => p = q
  | c :: w, p, q => ∃ r, framerStep cfg p c = some r ∧ r.cls.terminal = false ∧ Consumes cfg w r q

/-- R113: what two texts, one behind the other, lead to. -/
theorem Consumes.append {cfg : Config} {v w : List Byte} {p q r : ParserState} (hv : Consumes cfg v p q)
    (hw : Consumes cfg w q r) : Consumes cfg (v ++ w) p r := by
  induction v generalizing p with
  | nil => cases hv; exact hw
  | cons c v ih =>
    obtain ⟨u, hu, ht, hv⟩ := hv
    exact ⟨u, hu, ht, ih hv⟩

/-- R24: the cursor stands inside the chunk, at the first of the characters that are left. -/
theorem getElem_of_drop {chars rest : List Byte} {c : Byte} {k : Nat} (h : chars.drop k = c :: rest) :
    ∃ hk : k < chars.length, chars[k] = c := by
  have hk : k < chars.length := by
    by_contra hk
    rw [List.drop_eq_nil_of_le (Nat.not_lt.mp hk)] at h
    cases h
  rw [List.drop_eq_getElem_cons hk] at h
  exact ⟨hk, (List.cons.inj h).1⟩

/-- R113: a turn of the chunk loop that returns, at the first of the characters that are left. -/
theorem processChunk_of_done {cfg : Config} {chars rest : List Byte} {c : Byte} {j k : Nat} {p q : ParserState}
    (h : chars.drop k = c :: rest) (hturn : consumeChar cfg chars k p c = some (q, j, true)) :
    processChunk cfg chars k p = some (true, j, q) := by
  obtain ⟨hk, rfl⟩ := getElem_of_drop h
  rw [processChunk_turn cfg chars k p hk, hturn]

/-- R113: the call goes on behind characters that complete nothing. -/
theorem processChunk_of_consumes {cfg : Config} {chars w rest : List Byte} {k : Nat} {p q : ParserState}
    (h : chars.drop k = w ++ rest) (hw : Consumes cfg w p q) :
    processChunk cfg chars k p = processChunk cfg chars (k + w.length) q := by
  induction w generalizing k p with
  | nil => cases hw; rfl
  | cons c w ih =>
    obtain ⟨r, hr, ht, hw⟩ := hw
    have hdrop : chars.drop (k + 1) = w ++ rest := by rw [← List.tail_drop, h]; rfl
    obtain ⟨hk, rfl⟩ := getElem_of_drop h
    rw [processChunk_turn cfg chars k p hk, consumeChar_moved hr ht]
    dsimp only
    rw [ih hdrop hw, List.length_cons, Nat.add_assoc, Nat.add_comm 1]

/-- R113: a call returns true at the first character that completes a message. -/
theorem processChunk_of_consumes_done {cfg : Config} {chars w rest : List Byte} {c : Byte} {j : Nat} {p q r : ParserState}
    (h : chars = w ++ c :: rest) (hw : Consumes cfg w p q)
    (hturn : consumeChar cfg chars w.length q c = some (r, j, true)) : processChunk cfg chars 0 p = some (true, j, r) := by
  rw [processChunk_of_consumes (k := 0) h hw, Nat.zero_add]
  exact processChunk_of_done (rest := rest) (by rw [h, List.drop_left]) hturn

/-! ### The texts of hex pairs (R74, R75) -/

/-- R74: a text of hex pairs begins with two hex digits, and what is left is such a text. -/
theorem hexPairs_cons {cfg : Config} {w : List Byte} {b : Byte} {bs : List Byte} (h : hexPairs cfg w = some (b :: bs)) :
    ∃ c d v x l, w = c :: d :: v ∧ hexval cfg c = some x ∧ hexval cfg d = some l ∧
      b = BitVec.ofNat 8 (16 * x.toNat + l.toNat) ∧ hexPairs cfg v = some bs := by
  match w with
  | [] => cases h
  | [_] => cases h
  | c :: d :: v =>
    rw [hexPairs] at h
    split at h
    · rename_i x l bs' hx hl hv
      cases h
      exact ⟨c, d, v, x, l, rfl, hx, hl, rfl, hv⟩
    · cases h

/-- R74: only the empty text forms no bytes. -/
theorem eq_nil_of_hexPairs {cfg : Config} {w : List Byte} (h : hexPairs cfg w = some []) : w = [] := by
  match w with
  | [] => rfl
  | [_] => cases h
  | c :: d :: v =>
    rw [hexPairs] at h
    split at h <;> cases h

/-- R74, R75: one more pair of hex digits is one more byte. -/
theorem hexPairs_append_pair {cfg : Config} {h l : Byte} {x y : Nibble} (hh : hexval cfg h = some x)
    (hl : hexval cfg l = some y) {bs w : List Byte} (hw : hexPairs cfg w = some bs) :
    hexPairs cfg (w ++ [h, l]) = some (bs ++ [BitVec.ofNat 8 (16 * x.toNat + y.toNat)]) := by
  induction bs generalizing w with
  | nil => rw [eq_nil_of_hexPairs hw]; simp [hexPairs, hh, hl]
  | cons b bs ih =>
    obtain ⟨c, d, v, a, e, rfl, ha, he, rfl, hv⟩ := hexPairs_cons hw
    simp [hexPairs, ha, he, ih hv]

/-! ### Every text of the grammar is delivered -/

/-- R30: a candidate frame with the bytes `buf`, and the last character `prev`. -/
def frameSoFar (phase : Phase) (buf : List Byte) (prev : Byte) : ParserState where
  phase := phase
  buf := buf
  prev := prev
  ack := none
  cls := .pending

/-- R102, R106, R108: at `p` a high nibble is taken, behind the bytes `buf`. -/
def TakesHighNibble (cfg : Config) (p : ParserState) (buf : List Byte) : Prop :=
  ∀ c, (hexval cfg c).isSome = true → framerStep cfg p c = some (frameSoFar .expectLowNibble buf c)

/-- R102: a high nibble begins a frame. -/
theorem takesHighNibble_idle {cfg : Config} {p : ParserState} (hc : configLegal cfg = true)
    (hp : p.phase = .idle ∨ p.phase = .complete) : TakesHighNibble cfg p [] := by
  intro c hx
  obtain ⟨-, hstx, -⟩ := (configLegal_iff cfg).mp hc
  have hne : c ≠ cfg.chStx := by
    rintro rfl
    simp [hstx] at hx
  rw [framerStep_idle hp, if_neg hne, if_pos hx, frameSoFar]

/-- R106: a high nibble follows the frame-start character. -/
theorem takesHighNibble_stxFound (cfg : Config) (prev : Byte) : TakesHighNibble cfg (frameSoFar .stxFound [] prev) [] := by
  intro c hx
  rw [framerStep_stxFound rfl, if_pos hx]
  rfl

/-- R108: a high nibble follows a byte. -/
theorem takesHighNibble_expectHigh (cfg : Config) (buf : List Byte) (prev : Byte) :
    TakesHighNibble cfg (frameSoFar .expectHighNibble buf prev) buf := by
  intro c hx
  rw [framerStep_expectHigh rfl, if_pos hx]
  rfl

/-- R75, R111: where a high nibble is taken, a pair of hex digits appends its byte, while there is room. -/
theorem consumes_pair {cfg : Config} {c d : Byte} {x l : Nibble} {buf : List Byte} {p : ParserState}
    (hp : TakesHighNibble cfg p buf) (hx : hexval cfg c = some x) (hl : hexval cfg d = some l)
    (hroom : buf.length < cfg.cap) :
    Consumes cfg [c, d] p
      (frameSoFar .expectHighNibble (buf ++ [BitVec.ofNat 8 (16 * x.toNat + l.toNat)]) d) :=
  ⟨_, hp c (by rw [hx]; rfl), rfl, _, framerStep_lowNibble rfl hx hl hroom, rfl, rfl⟩

/-- R75, R111: where a high nibble is taken, a text of hex pairs appends its bytes, while they fit. -/
theorem consumes_hexPairs {cfg : Config} {b : Byte} {bs w buf : List Byte} {p : ParserState}
    (hp : TakesHighNibble cfg p buf) (hw : hexPairs cfg w = some (b :: bs))
    (hfit : buf.length + (b :: bs).length ≤ cfg.cap) :
    ∃ prev, Consumes cfg w p (frameSoFar .expectHighNibble (buf ++ b :: bs) prev) := by
  induction bs generalizing b w buf p with
  | nil =>
    obtain ⟨c, d, v, x, l, rfl, hx, hl, rfl, hv⟩ := hexPairs_cons hw
    cases eq_nil_of_hexPairs hv
    exact ⟨d, consumes_pair hp hx hl hfit⟩
  | cons b' bs ih =>
    obtain ⟨c, d, v, x, l, rfl, hx, hl, rfl, hv⟩ := hexPairs_cons hw
    rw [List.length_cons] at hfit
    have hpair := consumes_pair hp hx hl (by omega)
    have hnext := takesHighNibble_expectHigh cfg (buf ++ [BitVec.ofNat 8 (16 * x.toNat + l.toNat)]) d
    obtain ⟨prev, hrest⟩ := ih hnext hv (by rw [List.length_append, List.length_singleton]; omega)
    exact ⟨prev, by simpa using hpair.append hrest⟩

/-- R74, R102 to R111: from phase Idle or Complete, the text of a frame is consumed up to its primary terminator, if its
bytes fit. -/
theorem consumes_salText {cfg : Config} {w bs : List Byte} {p : ParserState} (hc : configLegal cfg = true)
    (hp : p.phase = .idle ∨ p.phase = .complete) (hw : SalText cfg w bs) (hfit : bs.length ≤ cfg.cap) :
    ∃ v prev, w = v ++ [chCr] ∧ Consumes cfg v p (frameSoFar .expectHighNibble bs prev) := by
  obtain ⟨hne, body, hbody, hw⟩ := hw
  obtain ⟨b, bs, rfl⟩ := List.exists_cons_of_ne_nil hne
  rcases hw with rfl | rfl
  · obtain ⟨prev, h⟩ := consumes_hexPairs (takesHighNibble_idle hc hp) hbody (by simpa using hfit)
    exact ⟨body, prev, rfl, h⟩
  · obtain ⟨prev, h⟩ := consumes_hexPairs (takesHighNibble_stxFound cfg cfg.chStx) hbody (by simpa using hfit)
    refine ⟨cfg.chStx :: body, prev, rfl, _, framerStep_idle hp cfg.chStx, rfl, ?_⟩
    rw [if_pos rfl]
    exact h

/-- R110: the primary terminator completes the frame. -/
theorem framerStep_chCr {cfg : Config} (hc : configLegal cfg = true) (bs : List Byte) (prev : Byte) :
    framerStep cfg (frameSoFar .expectHighNibble bs prev) chCr =
      some { phase := .complete, buf := bs, prev := chCr, ack := none, cls := .salReceived } := by
  obtain ⟨-, -, hcr, -⟩ := (configLegal_iff cfg).mp hc
  rw [framerStep_expectHigh rfl, hcr]
  rfl

/-- R107: an outcome code behind a character that begins no frame. -/
theorem framerStep_outcome {cfg : Config} {o : Byte} {k : Cls} (ho : outcomeOf cfg o = some k) (x : Byte) :
    framerStep cfg (frameSoFar .ackPending [] x) o =
      some { phase := .complete, buf := [], prev := o, ack := if k = .ack then some x else none, cls := k } := by
  rw [framerStep_ackPending rfl, ho]
  rfl

/-- R18, R107: the classification of an outcome code is terminal, and none of a frame. -/
theorem outcomeOf_terminal {cfg : Config} {o : Byte} {k : Cls} (ho : outcomeOf cfg o = some k) :
    k.terminal = true ∧ k ≠ .salReceived := by
  unfold outcomeOf at ho
  split_ifs at ho <;> cases ho <;> exact ⟨rfl, by decide⟩

/-- R74, R113, R115: from phase Idle or Complete, a call on a text of the grammar returns true behind its last character. -/
theorem processChunk_of_delivers {cfg : Config} {w : List Byte} {p q : ParserState} (hc : configLegal cfg = true)
    (hp : p.phase = .idle ∨ p.phase = .complete) (hw : Delivers cfg w q) (hfit : q.buf.length ≤ cfg.cap) :
    processChunk cfg w 0 p = some (true, w.length, q) := by
  rcases hw with ⟨bs, hw, rfl⟩ | ⟨v, bs, hv, rfl, rfl⟩ | ⟨x, o, k, rfl, hx, hxv, ho, rfl⟩
  · obtain ⟨v, prev, rfl, hrun⟩ := consumes_salText hc hp hw hfit
    rw [List.length_append]
    exact processChunk_of_consumes_done rfl hrun (consumeChar_returned (framerStep_chCr hc bs prev) rfl (by simp))
  · obtain ⟨v, prev, rfl, hrun⟩ := consumes_salText hc hp hv hfit
    rw [List.append_assoc, List.length_append]
    exact processChunk_of_consumes_done rfl hrun (consumeChar_upgraded (framerStep_chCr hc bs prev) rfl (by simp))
  · obtain ⟨hterm, hsal⟩ := outcomeOf_terminal ho
    have hrun : Consumes cfg [x] p (frameSoFar .ackPending [] x) := by
      refine ⟨_, framerStep_idle hp x, rfl, ?_⟩
      rw [if_neg hx, hxv]
      rfl
    exact processChunk_of_consumes_done (w := [x]) rfl hrun
      (consumeChar_returned (framerStep_outcome ho x) hterm fun h => hsal h.1)

/-- R113: a legal call of `PROCESS_CHUNK` answers what its loop gives. -/
theorem exec_processChunk {s : State} {ps : Nat} {chars : List Byte} {length cursor k : Nat} {d : Bool} {q : ParserState}
    (hl : ChunkCallLegal s ps chars length cursor)
    (h : processChunk s.cfg (chars.take length) cursor (s.parser ps) = some (d, k, q)) :
    exec (.processChunk ps chars length cursor) s = .next ((s.setParser ps q).ret (.chunk d k)) := by
  show execProcessChunk ps chars length cursor s = _
  rw [execProcessChunk, not_refused_of_chunkCallLegal hl, h]

/-- Settles O12: no character before the last of a message reaches a terminal classification, and the last one does. -/
theorem grammarIsDelivered : Obligations.GrammarIsDelivered := by
  intro s ps w q _ hc hl hp hw hfit
  refine exec_processChunk hl ?_
  rw [List.take_length]
  exact processChunk_of_delivers hc hp hw hfit

/-! ### Nothing else is delivered -/

/-- R74: the characters of a frame are `body`, with or without the frame-start character before it. -/
def Opens (cfg : Config) (w body : List Byte) : Prop := w = body ∨ w = cfg.chStx :: body

/-- R74: one more character of a frame. -/
theorem Opens.concat {cfg : Config} {w body : List Byte} (h : Opens cfg w body) (c : Byte) :
    Opens cfg (w ++ [c]) (body ++ [c]) := by
  rcases h with rfl | rfl
  · exact .inl rfl
  · exact .inr rfl

/-- R74, R101 to R111: the characters that the candidate in progress consists of, and the ParserState behind them. -/
inductive Candidate (cfg : Config) : List Byte → ParserState → Prop where
  /-- No candidate is in progress. -/
  | empty {p : ParserState} (hp : p.phase = .idle ∨ p.phase = .complete) : Candidate cfg [] p
  /-- The frame-start character. -/
  | start : Candidate cfg [cfg.chStx] (frameSoFar .stxFound [] cfg.chStx)
  /-- A character that begins no frame: an outcome code is next. -/
  | acknowledged {x : Byte} (hx : x ≠ cfg.chStx) (hxv : hexval cfg x = none) :
      Candidate cfg [x] (frameSoFar .ackPending [] x)
  /-- Whole bytes of a frame. -/
  | bytes {w body bs : List Byte} {prev : Byte} (hne : bs ≠ []) (hbody : hexPairs cfg body = some bs)
      (hw : Opens cfg w body) : Candidate cfg w (frameSoFar .expectHighNibble bs prev)
  /-- Bytes of a frame, and a high nibble. -/
  | highNibble {w body bs : List Byte} {h : Byte} (hh : (hexval cfg h).isSome = true)
      (hbody : hexPairs cfg body = some bs) (hw : Opens cfg w (body ++ [h])) :
      Candidate cfg w (frameSoFar .expectLowNibble bs h)

/-- R74: what a `Step` leaves behind the characters `w`: at a terminal classification they are a message of the grammar,
and otherwise they end in a candidate. -/
structure StepsTo (cfg : Config) (w : List Byte) (q : ParserState) : Prop where
  delivers : q.cls.terminal = true → Delivers cfg w q
  goesOn : q.cls.terminal = false → ∃ v, v <:+ w ∧ Candidate cfg v q

/-- R104: a discarded candidate leaves none. -/
theorem stepsTo_discarded (cfg : Config) (w : List Byte) (c : Byte) : StepsTo cfg w (discarded c) :=
  ⟨fun h => (by cases h), fun _ => ⟨[], List.nil_suffix, .empty (.inl rfl)⟩⟩

/-- R101: a candidate goes on. -/
theorem Candidate.stepsTo {cfg : Config} {w buf : List Byte} {phase : Phase} {prev : Byte}
    (h : Candidate cfg w (frameSoFar phase buf prev)) : StepsTo cfg w (frameSoFar phase buf prev) :=
  ⟨fun h => (by cases h), fun _ => ⟨w, List.suffix_rfl, h⟩⟩

/-- R18, R74: a message of the grammar has a terminal classification. -/
theorem Delivers.terminal {cfg : Config} {w : List Byte} {q : ParserState} (h : Delivers cfg w q) :
    q.cls.terminal = true := by
  rcases h with ⟨bs, -, rfl⟩ | ⟨v, bs, -, -, rfl⟩ | ⟨x, o, k, -, -, -, ho, rfl⟩
  · rfl
  · rfl
  · exact (outcomeOf_terminal ho).1

/-- R74: a message of the grammar ends a candidate. -/
theorem Delivers.stepsTo {cfg : Config} {w : List Byte} {q : ParserState} (h : Delivers cfg w q) : StepsTo cfg w q :=
  ⟨fun _ => h, fun hf => by rw [h.terminal] at hf; cases hf⟩

/-- R101 to R112: a `Step` takes a candidate to a message of the grammar, or to a candidate. -/
theorem Candidate.step {cfg : Config} {w : List Byte} {p q : ParserState} {c : Byte} (h : Candidate cfg w p)
    (hs : framerStep cfg p c = some q) : StepsTo cfg (w ++ [c]) q := by
  cases h with
  | empty hp =>
    rw [framerStep_idle hp] at hs
    cases hs
    split_ifs with hstx hhex
    · subst hstx
      exact Candidate.start.stepsTo
    · exact (Candidate.highNibble (body := []) hhex rfl (.inl rfl)).stepsTo
    · exact (Candidate.acknowledged hstx (by simpa using hhex)).stepsTo
  | start =>
    rw [framerStep_stxFound rfl] at hs
    cases hs
    split_ifs with hhex
    · exact (Candidate.highNibble (body := []) hhex rfl (.inr rfl)).stepsTo
    · exact stepsTo_discarded _ _ _
  | @acknowledged x hx hxv =>
    rw [framerStep_ackPending rfl] at hs
    cases hs
    cases ho : outcomeOf cfg c with
    | none => exact stepsTo_discarded _ _ _
    | some k => exact Delivers.stepsTo (.inr (.inr ⟨x, c, k, rfl, hx, hxv, ho, rfl⟩))
  | @bytes _ body bs _ hne hbody hw =>
    rw [framerStep_expectHigh rfl] at hs
    cases hs
    split_ifs with hhex hcr
    · exact (Candidate.highNibble hhex hbody (hw.concat c)).stepsTo
    · subst hcr
      exact Delivers.stepsTo (.inl ⟨bs, ⟨hne, body, hbody, hw.concat chCr⟩, rfl⟩)
    · exact stepsTo_discarded _ _ _
  | @highNibble _ body bs h hh hbody hw =>
    obtain ⟨x, hx⟩ := Option.isSome_iff_exists.mp hh
    rw [framerStep_expectLow rfl hx] at hs
    cases hs
    cases hl : hexval cfg c with
    | none => exact stepsTo_discarded _ _ _
    | some l =>
      have hw' : Opens cfg (w ++ [c]) (body ++ [h, c]) := List.append_assoc body [h] [c] ▸ hw.concat c
      dsimp only
      split_ifs
      · exact (Candidate.bytes (by simp) (hexPairs_append_pair hx hl hbody) hw').stepsTo
      · exact stepsTo_discarded _ _ _

/-- R115: the peek makes a frame a monitored one. -/
theorem Delivers.upgrade {cfg : Config} {w : List Byte} {q : ParserState} (h : Delivers cfg w q)
    (hq : q.cls = .salReceived) : Delivers cfg (w ++ [chLf]) { q with cls := .monitoredSalReceived, prev := chLf } := by
  rcases h with ⟨bs, hw, rfl⟩ | ⟨v, bs, hv, rfl, rfl⟩ | ⟨x, o, k, rfl, hx, hxv, ho, rfl⟩
  · exact .inr (.inl ⟨w, bs, hw, rfl, rfl⟩)
  · cases hq
  · exact absurd hq (outcomeOf_terminal ho).2

/-- R24: one more character is consumed. -/
theorem suffix_take_succ {chars w : List Byte} {k : Nat} {c : Byte} (hw : w <:+ chars.take k) (hc : chars[k]? = some c) :
    w ++ [c] <:+ chars.take (k + 1) := by
  obtain ⟨pre, hpre⟩ := hw
  exact ⟨pre, by rw [List.take_add_one, hc, ← List.append_assoc, hpre]; rfl⟩

/-- R74, R113, R115: a turn of the chunk loop that returns has consumed a message of the grammar last. -/
theorem Candidate.turn_delivers {cfg : Config} {chars w : List Byte} {cursor k : Nat} {p q : ParserState} {c : Byte}
    (hw : Candidate cfg w p) (hsuf : w <:+ chars.take cursor) (hc : chars[cursor]? = some c)
    (h : consumeChar cfg chars cursor p c = some (q, k, true)) :
    k ≤ chars.length ∧ ∃ v, v <:+ chars.take k ∧ Delivers cfg v q := by
  have hsuf' := suffix_take_succ hsuf hc
  rcases consumeChar_cases _ _ _ _ _ _ _ _ h with
    ⟨-, -, hdone, -⟩ | ⟨hs, rfl, -, hterm, -⟩ | ⟨r, hs, hcls, hpeek, rfl, rfl, -⟩
  · cases hdone
  · exact ⟨(List.getElem?_eq_some_iff.mp hc).1, _, hsuf', (hw.step hs).delivers hterm⟩
  · have hdel := (hw.step hs).delivers (by rw [hcls]; rfl)
    exact ⟨(List.getElem?_eq_some_iff.mp hpeek).1, _, suffix_take_succ hsuf' hpeek, hdel.upgrade hcls⟩

/-- R113: a turn of the chunk loop that goes on leaves a candidate. -/
theorem Candidate.turn_goesOn {cfg : Config} {chars w : List Byte} {cursor k : Nat} {p q : ParserState} {c : Byte}
    (hw : Candidate cfg w p) (hsuf : w <:+ chars.take cursor) (hc : chars[cursor]? = some c)
    (h : consumeChar cfg chars cursor p c = some (q, k, false)) :
    ∃ v, v <:+ chars.take k ∧ Candidate cfg v q := by
  rcases consumeChar_cases _ _ _ _ _ _ _ _ h with
    ⟨hs, rfl, -, hterm⟩ | ⟨-, -, hdone, -⟩ | ⟨_, -, -, -, -, -, hdone⟩
  · obtain ⟨v, hv, hcand⟩ := (hw.step hs).goesOn hterm
    exact ⟨v, hv.trans (suffix_take_succ hsuf hc), hcand⟩
  · cases hdone
  · cases hdone

/-- R74, R113: a loop that returns true behind a candidate has consumed a message of the grammar last, by induction on
its turns. -/
theorem chunkLoop_delivers {cfg : Config} {chars : List Byte} {k : Nat} {q : ParserState} (fuel : Nat) :
    ∀ {cursor : Nat} {p : ParserState} {w : List Byte}, Candidate cfg w p → w <:+ chars.take cursor →
      chunkLoop cfg chars fuel cursor p = some (true, k, q) →
      k ≤ chars.length ∧ ∃ v, v <:+ chars.take k ∧ Delivers cfg v q := by
  induction fuel with
  | zero => intro cursor p w _ _ h; cases h
  | succ fuel ih =>
    intro cursor p w hw hsuf h
    rw [chunkLoop] at h
    split at h
    · cases h
    · rename_i c hc
      split at h
      · cases h
      · cases h
        exact hw.turn_delivers hsuf hc ‹_›
      · obtain ⟨v, hv, hcand⟩ := hw.turn_goesOn hsuf hc ‹_›
        exact ih hcand hv h

/-- Settles O13: at the first character no candidate is in progress, and the loop keeps one until it delivers it. -/
theorem onlyGrammarIsDelivered : Obligations.OnlyGrammarIsDelivered := by
  intro s t ps chars length k _ hp h hres
  obtain ⟨-, d, k', q, hrun, rfl⟩ := execProcessChunk_next h
  cases hres
  obtain ⟨hk, w, ⟨pre, hpre⟩, hdel⟩ := chunkLoop_delivers _ (.empty hp) List.nil_suffix hrun
  have hle : k ≤ length := hk.trans (List.length_take_le _ _)
  refine ⟨pre, w, ?_, ?_⟩
  · rw [hpre, List.take_take, Nat.min_eq_left hle]
  · rwa [State.ret_parser, State.parser_setParser]

end Sys2Proof.Machine
end

section
/-! PROOFS. The character rows in the phases Idle, Complete, StxFound, AckPending and ExpectHighNibble (O2 to O5). -/

namespace Sys2Proof.Machine

/-- Settles O2: a restarted candidate is Pending, so the framer moves on. -/
theorem idlePhaseRestarts : Obligations.IdlePhaseRestarts := by
  intro s i c ps chars cursor hi hu hp
  rw [exec_charOf i c s hi]
  exact feedChar_moved s c ps chars cursor _ hu (framerStep_idle hp c) rfl

/-- Settles O3: the candidate has no outcome yet, whether it goes on or is discarded, so the framer moves on. -/
theorem stxFoundPhase : Obligations.StxFoundPhase := by
  intro s i c ps chars cursor hi hu hinv hp
  obtain ⟨hcls, -⟩ := hinv.candidate (by simp [hp]) (by simp [hp])
  rw [exec_charOf i c s hi]
  refine feedChar_moved s c ps chars cursor _ hu (framerStep_stxFound hp c) ?_
  split_ifs
  · rw [hcls]; rfl
  · rfl

/-- R107: the framer, stepped in phase AckPending, returns behind an outcome code, and moves on behind any other
character. -/
theorem feedChar_ackPending {s : State} {ps : Nat} {chars : List Byte} {cursor : Nat}
    (hu : s.unit = .framing ps chars cursor) (hp : (s.parser ps).phase = .ackPending) (c : Byte) :
    feedChar c s = .next
      (match outcomeOf s.cfg c with
       | some k => s.framerReturned ps
           { s.parser ps with
             phase := .complete
             prev := c
             ack := if k = .ack then some (s.parser ps).prev else (s.parser ps).ack
             cls := k } (cursor + 1)
       | none => s.framerMoved ps (discarded c) chars (cursor + 1)) := by
  have hstep := framerStep_ackPending (cfg := s.cfg) hp c
  cases ho : outcomeOf s.cfg c with
  | none =>
    rw [ho] at hstep
    exact feedChar_moved s c ps chars cursor _ hu hstep rfl
  | some k =>
    rw [ho] at hstep
    obtain ⟨hterm, hsal⟩ := outcomeOf_terminal ho
    exact feedChar_returned s c ps chars cursor _ hu hstep hterm fun h => hsal h.1

/-- Settles O4: `outcomeOf` compares the character with the five codes in the order of the rule. -/
theorem ackPendingPhase : Obligations.AckPendingPhase := by
  intro s i c ps chars cursor hi hu hp
  rw [exec_charOf i c s hi, feedChar_ackPending hu hp, outcomeOf]
  split_ifs <;> rfl

/-- R71: no terminator is a hex digit. -/
theorem hexval_terminator (cfg : Config) : hexval cfg chCr = none ∧ hexval cfg chLf = none := by
  simp [hexval]

/-- R110: in phase ExpectHighNibble the primary terminator completes the frame, under every `Config`. -/
theorem framerStep_expectHigh_chCr {cfg : Config} {p : ParserState} (hp : p.phase = .expectHighNibble) :
    framerStep cfg p chCr = some { p with phase := .complete, prev := chCr, cls := .salReceived } := by
  rw [framerStep_expectHigh hp, (hexval_terminator cfg).1]
  rfl

/-- Settles O5: only the primary terminator reaches a terminal classification, and only there the framer peeks. -/
theorem expectHighNibblePhase : Obligations.ExpectHighNibblePhase := by
  intro s i c ps chars cursor hi hu hinv hp
  obtain ⟨hcls, -⟩ := hinv.candidate (by simp [hp]) (by simp [hp])
  have hstep := framerStep_expectHigh (cfg := s.cfg) hp c
  rw [exec_charOf i c s hi]
  split_ifs with hhex hcr hlf
  · rw [if_pos hhex] at hstep
    exact feedChar_moved s c ps chars cursor _ hu hstep (by rw [hcls]; rfl)
  · subst hcr
    exact feedChar_upgraded s chCr ps chars cursor _ hu (framerStep_expectHigh_chCr hp) rfl hlf
  · subst hcr
    exact feedChar_returned s chCr ps chars cursor _ hu (framerStep_expectHigh_chCr hp) rfl fun h => hlf h.2
  · rw [if_neg hhex, if_neg (show ¬c = chCr from hcr)] at hstep
    exact feedChar_moved s c ps chars cursor _ hu hstep rfl

end Sys2Proof.Machine
end

section
/-! PROOFS. `PROCESS_CHUNK`: its loop as a run of turns (O8), what every legal call returns (O9), chunks that follow one
another (O10), and the secondary terminator that comes in a later chunk (O14). -/

namespace Sys2Proof.Machine

/-! ### The chunk loop as a run of turns (R113) -/

/-- R23, R30: phase Complete is exactly where the classification is terminal. -/
theorem ParserInv.complete_iff {cfg : Config} {p : ParserState} (h : ParserInv cfg p) :
    p.phase = .complete ↔ p.cls.terminal = true := by
  obtain ⟨-, hterm, -⟩ := h
  exact hterm

/-- R30: where a low nibble is next, the high one stands in `prev`. -/
theorem ParserInv.hexValid_prev {cfg : Config} {p : ParserState} (h : ParserInv cfg p)
    (hp : p.phase = .expectLowNibble) : hexValid cfg p.prev = true := by
  obtain ⟨-, -, -, -, -, -, -, -, hlow, -⟩ := h
  exact hlow hp

/-- R30, R101: a `Step` on a ParserState that satisfies R30 has an answer. -/
theorem ParserInv.exists_framerStep {cfg : Config} {p : ParserState} (hp : ParserInv cfg p) (c : Byte) :
    ∃ q, framerStep cfg p c = some q :=
  Option.isSome_iff_exists.mp (framerStep_isSome cfg p c hp.hexValid_prev)

/-- R30, R113: a turn of the chunk loop on a ParserState that satisfies R30 has an answer. -/
theorem ParserInv.exists_consumeChar {cfg : Config} {p : ParserState} (hp : ParserInv cfg p) (chars : List Byte)
    (cursor : Nat) (c : Byte) : ∃ q k done, consumeChar cfg chars cursor p c = some (q, k, done) := by
  obtain ⟨q, hq⟩ := hp.exists_framerStep c
  unfold consumeChar
  simp only [hq]
  split_ifs <;> exact ⟨_, _, _, rfl⟩

/-- R113: the chunk loop leads from `p` at `cursor` to the answer `(done, k)` and the ParserState `q`, turn by turn. -/
inductive ChunkRun (cfg : Config) (chars : List Byte) : Nat → ParserState → Bool → Nat → ParserState → Prop where
  /-- At the end of the chunk nothing is consumed. -/
  | atEnd {cursor : Nat} {p : ParserState} (h : chars.length ≤ cursor) : ChunkRun cfg chars cursor p false cursor p
  /-- A turn returns true. -/
  | returned {cursor k : Nat} {p q : ParserState} (hk : cursor < chars.length)
      (h : consumeChar cfg chars cursor p chars[cursor] = some (q, k, true)) : ChunkRun cfg chars cursor p true k q
  /-- A turn goes on behind its character. -/
  | goesOn {cursor k : Nat} {p q r : ParserState} {done : Bool} (hk : cursor < chars.length)
      (h : framerStep cfg p chars[cursor] = some q) (ht : q.cls.terminal = false)
      (hrun : ChunkRun cfg chars (cursor + 1) q done k r) : ChunkRun cfg chars cursor p done k r

/-- R30, R113, R118: from a ParserState that satisfies R30 the loop runs to an answer, by the characters that are left. -/
theorem exists_chunkRun {cfg : Config} {p : ParserState} (chars : List Byte) (cursor : Nat) (hp : ParserInv cfg p) :
    ∃ done k q, ChunkRun cfg chars cursor p done k q := by
  by_cases hk : cursor < chars.length
  · obtain ⟨q, j, done, hq⟩ := hp.exists_consumeChar chars cursor chars[cursor]
    cases done with
    | true => exact ⟨_, _, _, .returned hk hq⟩
    | false =>
      rcases consumeChar_cases _ _ _ _ _ _ _ _ hq with ⟨hs, -, -, ht⟩ | ⟨-, -, hd, -⟩ | ⟨_, -, -, -, -, -, hd⟩
      · obtain ⟨done, k, r, hrun⟩ := exists_chunkRun chars (cursor + 1) (framerStep_keeps_parserInv hp hs)
        exact ⟨done, k, r, .goesOn hk hs ht hrun⟩
      · cases hd
      · cases hd
  · exact ⟨_, _, _, .atEnd (Nat.not_lt.mp hk)⟩
termination_by chars.length - cursor

section Runs

variable {cfg : Config} {chars : List Byte} {cursor k : Nat} {p q : ParserState} {done : Bool}

/-- R113: a run of turns is what the loop answers. -/
theorem ChunkRun.processChunk_eq (h : ChunkRun cfg chars cursor p done k q) :
    processChunk cfg chars cursor p = some (done, k, q) := by
  induction h with
  | atEnd h => exact processChunk_end _ _ _ _ h
  | returned hk h => rw [processChunk_turn _ _ _ _ hk, h]
  | goesOn hk h ht _ ih => rw [processChunk_turn _ _ _ _ hk, consumeChar_moved h ht]; exact ih

/-- R113: from a ParserState that satisfies R30, what the loop answers is a run of turns. -/
theorem chunkRun_of_processChunk (hp : ParserInv cfg p) (h : processChunk cfg chars cursor p = some (done, k, q)) :
    ChunkRun cfg chars cursor p done k q := by
  obtain ⟨done', k', q', hrun⟩ := exists_chunkRun chars cursor hp
  cases h.symm.trans hrun.processChunk_eq
  exact hrun

end Runs

/-! ### What a call answers -/

/-- R113: the answer of a call on the ParserState `ps` whose loop gives `x`. -/
def State.chunkAnswer (s : State) (ps : Nat) : Option (Bool × Nat × ParserState) → Answer
  | none => .fault .parserOutsideInvariants
  | some (done, k, q) => .next ((s.setParser ps q).ret (.chunk done k))

/-- R113: a legal call of `PROCESS_CHUNK` answers as its loop does. -/
theorem exec_processChunk_eq {s : State} {ps : Nat} {chars : List Byte} {length cursor : Nat}
    (hl : ChunkCallLegal s ps chars length cursor) :
    exec (.processChunk ps chars length cursor) s =
      s.chunkAnswer ps (processChunk s.cfg (chars.take length) cursor (s.parser ps)) := by
  show execProcessChunk ps chars length cursor s = _
  rw [execProcessChunk, not_refused_of_chunkCallLegal hl]
  cases processChunk s.cfg (chars.take length) cursor (s.parser ps) <;> rfl

/-- R113: what a call writes to its ParserState replaces what was there. -/
theorem chunkAnswer_setParser {s : State} (ps : Nat) (p : ParserState) (x : Option (Bool × Nat × ParserState))
    (h : Memory.wf ParserState.reset s.parsers) : (s.setParser ps p).chunkAnswer ps x = s.chunkAnswer ps x := by
  cases x with
  | none => rfl
  | some x => rw [State.chunkAnswer, State.chunkAnswer, State.setParser_setParser _ _ _ _ h]

/-- R113: what a second call writes to the ParserState of the first replaces what the first wrote, and so does its result. -/
theorem ret_setParser_ret {s : State} (ps : Nat) (p q : ParserState) (r r' : Result)
    (h : Memory.wf ParserState.reset s.parsers) :
    (((s.setParser ps p).ret r).setParser ps q).ret r' = (s.setParser ps q).ret r' := by
  rw [← State.setParser_setParser s ps p q h]
  rfl

/-- R24: a legal call has the characters up to its length before it. -/
theorem ChunkCallLegal.length_take {s : State} {ps : Nat} {chars : List Byte} {length cursor : Nat}
    (hl : ChunkCallLegal s ps chars length cursor) : (chars.take length).length = length := by
  obtain ⟨-, hlen, -, -⟩ := hl
  exact List.length_take_of_le hlen

/-- R113: a legal call begins at a character of its chunk, or at its end. -/
theorem ChunkCallLegal.cursor_le {s : State} {ps : Nat} {chars : List Byte} {length cursor : Nat}
    (hl : ChunkCallLegal s ps chars length cursor) : cursor ≤ length := by
  obtain ⟨-, -, -, hk⟩ := hl
  exact hk

/-- R113: the call at the next character, behind one that was consumed, is legal too. -/
theorem ChunkCallLegal.succ {s : State} {ps : Nat} {chars : List Byte} {length cursor : Nat}
    (hl : ChunkCallLegal s ps chars length cursor) (hk : cursor < length) (q : ParserState) :
    ChunkCallLegal (s.setParser ps q) ps chars length (cursor + 1) := by
  obtain ⟨hbusy, hlen, hfits, -⟩ := hl
  exact ⟨hbusy, hlen, hfits, hk⟩

/-- R113: a call that is legal is legal again, behind another that returned. -/
theorem ChunkCallLegal.setParser_ret {s : State} {ps : Nat} {chars : List Byte} {length cursor : Nat}
    (hl : ChunkCallLegal s ps chars length cursor) (q : ParserState) (r : Result) :
    ChunkCallLegal ((s.setParser ps q).ret r) ps chars length cursor := hl

/-- R113: a legal call at the end of its chunk changes nothing. -/
theorem exec_processChunk_end {s : State} {ps : Nat} {chars : List Byte} {length : Nat}
    (hw : Memory.wf ParserState.reset s.parsers) (hl : ChunkCallLegal s ps chars length length) :
    exec (.processChunk ps chars length length) s = .next (s.ret (.chunk false length)) := by
  rw [exec_processChunk hl (processChunk_end _ _ _ _ hl.length_take.le), State.setParser_parser _ _ hw]

/-- Settles O8: the loop is unfolded once, and its first turn goes on, returns, or takes the secondary terminator too. -/
theorem processChunkLoop : Obligations.ProcessChunkLoop := by
  intro s ps chars length cursor hinv hl
  refine ⟨fun hk => ?_, fun c q hk hc hs => ?_⟩
  · subst hk
    exact exec_processChunk_end hinv.parsersWf hl
  · have hk' : cursor < (chars.take length).length := hl.length_take.symm ▸ hk
    have hc' : (chars.take length)[cursor] = c := by
      rw [List.getElem_take]
      exact (List.getElem?_eq_some_iff.mp hc).2
    have hpeek : (chars.take length)[cursor + 1]? = some chLf ↔ cursor + 1 < length ∧ chars[cursor + 1]? = some chLf := by
      simp [List.getElem?_take]
    have hturn := processChunk_turn s.cfg _ cursor (s.parser ps) hk'
    rw [hc'] at hturn
    rw [exec_processChunk_eq hl, hturn]
    split_ifs with hterm hup
    · obtain ⟨hcls, hlf⟩ := hup
      rw [consumeChar_upgraded hs hcls (hpeek.mpr hlf)]
      rfl
    · rw [consumeChar_returned hs hterm fun h => hup ⟨h.1, hpeek.mp h.2⟩]
      rfl
    · rw [consumeChar_moved hs (by simpa using hterm), exec_processChunk_eq (hl.succ hk q),
        chunkAnswer_setParser _ _ _ hinv.parsersWf, State.parser_setParser]
      rfl

/-! ### Every legal call returns -/

/-- R113, R114, R118: what a call from `p` at `cursor`, in a chunk of `length` characters, answers and leaves. -/
structure ChunkReturn (cfg : Config) (length cursor : Nat) (p : ParserState) (done : Bool) (k : Nat) (q : ParserState) :
    Prop where
  le_k : cursor ≤ k
  k_le : k ≤ length
  parserInv : ParserInv cfg q
  /-- R114: true comes from a character of this call. -/
  of_true : done = true → cursor < k ∧ q.phase = .complete
  /-- R114: false comes at the end of the chunk. -/
  of_false : done = false → k = length ∧ (k = cursor → q = p) ∧ (cursor < k → q.cls = .pending)

/-- R30, R101: a `Step` that reaches no terminal classification leaves a candidate, or a discarded one. -/
theorem framerStep_pending {cfg : Config} {p q : ParserState} {c : Byte} (hp : ParserInv cfg p)
    (h : framerStep cfg p c = some q) (ht : q.cls.terminal = false) : q.cls = .pending := by
  cases framerStep_next h with
  | restartStx | restartHex | restartOther | discarded => rfl
  | highNibble hph => rcases hph with hph | hph <;> exact (hp.candidate (by simp [hph]) (by simp [hph])).1
  | appended hph => exact (hp.candidate (by simp [hph]) (by simp [hph])).1
  | acknowledged | terminated => cases ht
  | notAcknowledged _ k hk => rcases hk with rfl | rfl | rfl | rfl <;> cases ht

/-- R113, R115: a turn that returns true stands behind the one or two characters it consumed, in phase Complete. -/
theorem chunkReturn_of_turn {cfg : Config} {chars : List Byte} {cursor k : Nat} {p q : ParserState} {c : Byte}
    (hp : ParserInv cfg p) (hk : cursor < chars.length) (h : consumeChar cfg chars cursor p c = some (q, k, true)) :
    ChunkReturn cfg chars.length cursor p true k q := by
  have hinv := consumeChar_keeps_parserInv hp h
  rcases consumeChar_cases _ _ _ _ _ _ _ _ h with
    ⟨-, -, hdone, -⟩ | ⟨-, rfl, -, hterm, -⟩ | ⟨r, -, -, hpeek, rfl, rfl, -⟩
  · cases hdone
  · exact ⟨by omega, hk, hinv, fun _ => ⟨by omega, hinv.complete_iff.mpr hterm⟩, by simp⟩
  · have hlt := (List.getElem?_eq_some_iff.mp hpeek).1
    exact ⟨by omega, hlt, hinv, fun _ => ⟨by omega, hinv.complete_iff.mpr rfl⟩, by simp⟩

/-- R113, R114: what the rest of the loop returns, behind a character that left a candidate, the call returns. -/
theorem ChunkReturn.behind {cfg : Config} {length cursor k : Nat} {p q r : ParserState} {done : Bool}
    (h : ChunkReturn cfg length (cursor + 1) q done k r) (hq : q.cls = .pending) :
    ChunkReturn cfg length cursor p done k r where
  le_k := (Nat.le_succ _).trans h.le_k
  k_le := h.k_le
  parserInv := h.parserInv
  of_true hd :=
    let ⟨hlt, hr⟩ := h.of_true hd
    ⟨(Nat.lt_succ_self _).trans hlt, hr⟩
  of_false hd := by
    obtain ⟨hend, hsame, hpending⟩ := h.of_false hd
    have hle := h.le_k
    refine ⟨hend, fun hk => by omega, fun _ => ?_⟩
    rcases hle.eq_or_lt with hk | hk
    · rw [hsame hk.symm, hq]
    · exact hpending hk

/-- R113, R114, R118: what a run of the loop answers and leaves. -/
theorem ChunkRun.chunkReturn {cfg : Config} {chars : List Byte} {cursor k : Nat} {p q : ParserState} {done : Bool}
    (h : ChunkRun cfg chars cursor p done k q) (hp : ParserInv cfg p) (hk : cursor ≤ chars.length) :
    ChunkReturn cfg chars.length cursor p done k q := by
  induction h with
  | atEnd h => exact ⟨le_rfl, hk, hp, by simp, fun _ => ⟨by omega, fun _ => rfl, by simp⟩⟩
  | returned hlt h => exact chunkReturn_of_turn hp hlt h
  | goesOn hlt h ht _ ih => exact (ih (framerStep_keeps_parserInv hp h) hlt).behind (framerStep_pending hp h ht)

/-- Settles O9: the loop of a legal call has a run, by R30, and the call answers what the run does. -/
theorem processChunkReturns : Obligations.ProcessChunkReturns := by
  intro s ps chars length cursor hinv hl
  have hp := hinv.parsersInv ps
  have hlen := hl.length_take
  obtain ⟨done, k, q, hrun⟩ := exists_chunkRun (chars.take length) cursor hp
  obtain ⟨hle, hlt, hq, htrue, hfalse⟩ := hlen ▸ hrun.chunkReturn hp (hlen.symm ▸ hl.cursor_le)
  exact ⟨done, k, q, exec_processChunk hl hrun.processChunk_eq, hle, hlt, hq, htrue, hfalse⟩

/-! ### Chunks that follow one another (R117) -/

section Chunks

variable {cfg : Config} {y : List Byte} {cursor k : Nat} {p q : ParserState} {done : Bool}

/-- R117: a turn of the chunk loop is the same behind another chunk. -/
theorem consumeChar_behind (x : List Byte) {c : Byte} (h : consumeChar cfg y cursor p c = some (q, k, done)) :
    consumeChar cfg (x ++ y) (x.length + cursor) p c = some (q, x.length + k, done) := by
  have hpeek : (x ++ y)[x.length + cursor + 1]? = y[cursor + 1]? := by
    rw [Nat.add_assoc, List.getElem?_append_right (Nat.le_add_right _ _), Nat.add_sub_cancel_left]
  rcases consumeChar_cases _ _ _ _ _ _ _ _ h with
    ⟨hs, rfl, rfl, ht⟩ | ⟨hs, rfl, rfl, ht, hno⟩ | ⟨r, hs, hcls, hlf, rfl, rfl, rfl⟩
  · exact consumeChar_moved hs ht
  · exact consumeChar_returned hs ht fun ⟨hcls, hlf⟩ => hno hcls (hpeek ▸ hlf)
  · exact consumeChar_upgraded hs hcls (hpeek.trans hlf)

/-- R117: a run of the chunk loop is the same behind another chunk, turn by turn. -/
theorem ChunkRun.behind (x : List Byte) (h : ChunkRun cfg y cursor p done k q) :
    ChunkRun cfg (x ++ y) (x.length + cursor) p done (x.length + k) q := by
  induction h with
  | atEnd h => exact .atEnd (by rw [List.length_append]; omega)
  | returned hk h => exact .returned (by rw [List.length_append]; omega) (by simpa using consumeChar_behind x h)
  | goesOn hk h ht _ ih => exact .goesOn (by rw [List.length_append]; omega) (by simpa using h) ht ih

/-- R113: a run that returns false has consumed every character that was left, and none completed a message. -/
theorem ChunkRun.consumes (h : ChunkRun cfg y cursor p done k q) (hd : done = false) :
    Consumes cfg (y.drop cursor) p q := by
  induction h with
  | atEnd h => rw [List.drop_eq_nil_of_le h]; rfl
  | returned => cases hd
  | goesOn hk h ht _ ih =>
    rw [List.drop_eq_getElem_cons hk]
    exact ⟨_, h, ht, ih hd⟩

/-- R117: behind a chunk that completed nothing, the loop on both chunks does what it does on the second. -/
theorem processChunk_append {x : List Byte} {r : ParserState} (hx : ChunkRun cfg x 0 p false x.length q)
    (hy : ChunkRun cfg y 0 q done k r) : processChunk cfg (x ++ y) 0 p = some (done, x.length + k, r) := by
  rw [processChunk_of_consumes (k := 0) (w := x) rfl (hx.consumes rfl), Nat.zero_add]
  exact (hy.behind x).processChunk_eq

end Chunks

/-- Settles O10: the loops of the two calls are runs, by R30; together they are the run on both chunks, and its one write to
the ParserState replaces the two of the calls. -/
theorem chunkBoundariesDoNotMatter : Obligations.ChunkBoundariesDoNotMatter := by
  intro s s1 s2 ps x y d k hinv hbusy hfits hx hresx hy hresy
  obtain ⟨-, d1, k1, q, hrunx, rfl⟩ := execProcessChunk_next hx
  cases hresx
  obtain ⟨-, d2, k2, r, hruny, rfl⟩ := execProcessChunk_next hy
  cases hresy
  rw [List.take_length] at hrunx hruny
  rw [State.ret_parser, State.parser_setParser] at hruny
  have hp := hinv.parsersInv ps
  have hq : ParserInv s.cfg q := chunkLoop_keeps_parserInv _ hp hrunx
  have hrun := processChunk_append (chunkRun_of_processChunk hp hrunx) (chunkRun_of_processChunk hq hruny)
  have hlen : (x ++ y).length = x.length + y.length := List.length_append
  have hl : ChunkCallLegal s ps (x ++ y) (x.length + y.length) 0 := ⟨hbusy, hlen.ge, hfits, Nat.zero_le _⟩
  rw [exec_processChunk hl (by rw [← hlen, List.take_length]; exact hrun)]
  exact congrArg _ (ret_setParser_ret ps q r _ _ hinv.parsersWf).symm

/-! ### A secondary terminator in a later chunk (R115, R280, R281) -/

/-- R115, R280: the primary terminator at the end of its chunk completes the frame as SalReceived. -/
theorem processChunk_chCr {cfg : Config} {p : ParserState} (hp : p.phase = .expectHighNibble) :
    processChunk cfg [chCr] 0 p =
      some (true, 1, { p with phase := .complete, prev := chCr, cls := .salReceived }) :=
  processChunk_of_done rfl (consumeChar_returned (framerStep_expectHigh_chCr hp) rfl (by simp))

/-- R115: the two terminators in one chunk complete the frame as MonitoredSalReceived. -/
theorem processChunk_chCr_chLf {cfg : Config} {p : ParserState} (hp : p.phase = .expectHighNibble) :
    processChunk cfg [chCr, chLf] 0 p =
      some (true, 2, { p with phase := .complete, prev := chLf, cls := .monitoredSalReceived }) :=
  processChunk_of_done rfl (consumeChar_upgraded (framerStep_expectHigh_chCr hp) rfl rfl)

/-- R102, R281: behind a complete frame, the secondary terminator restarts the candidate. -/
theorem processChunk_chLf {cfg : Config} {p : ParserState} (hstx : cfg.chStx ≠ chLf) (hp : p.phase = .complete) :
    processChunk cfg [chLf] 0 p =
      some (false, 1, { phase := .ackPending, buf := [], prev := chLf, ack := none, cls := .pending }) := by
  have hstep := framerStep_idle (cfg := cfg) (.inr hp) chLf
  rw [if_neg hstx.symm, (hexval_terminator cfg).2] at hstep
  exact (ChunkRun.goesOn Nat.zero_lt_one hstep rfl (.atEnd le_rfl)).processChunk_eq

/-- Settles O14: the second call finds the frame in phase Complete, and its write replaces the one of the first. -/
theorem lateTerminatorIsLost : Obligations.LateTerminatorIsLost := by
  intro s ps hinv hbusy htwo hone hstx hp
  have htwo' : ChunkCallLegal s ps [chCr, chLf] 2 0 := ⟨hbusy, le_rfl, htwo, Nat.zero_le _⟩
  have hone' (c : Byte) : ChunkCallLegal s ps [c] 1 0 := ⟨hbusy, le_rfl, hone, Nat.zero_le _⟩
  refine ⟨exec_processChunk htwo' (processChunk_chCr_chLf hp), _, exec_processChunk (hone' chCr) (processChunk_chCr hp),
    rfl, ?_⟩
  rw [exec_processChunk ((hone' chLf).setParser_ret _ _)
      (processChunk_chLf hstx (by rw [State.ret_parser, State.parser_setParser])),
    ret_setParser_ret _ _ _ _ _ hinv.parsersWf]

end Sys2Proof.Machine
end

section
/-! PROOFS. Where R30 holds, no instruction and no step ends in a fault (O58). -/

namespace Sys2Proof.Machine

/-! ### The meanings that have no fault -/

/-- R8, R101: the framer, stepped, does not fault on ParserStates that satisfy R30. -/
theorem feedChar_ne_fault {s : State} (hinv : ∀ ps, ParserInv s.cfg (s.parser ps)) (c : Byte) (x : Fault) :
    feedChar c s ≠ .fault x := by
  unfold feedChar
  split
  · rename_i ps chars cursor _
    obtain ⟨q, k, done, hq⟩ := (hinv ps).exists_consumeChar chars cursor c
    simp only [hq]
    split_ifs <;> simp
  · simp

/-- R101, R113: `PROCESS_CHUNK` does not fault on a ParserState that satisfies R30. -/
theorem execProcessChunk_ne_fault {s : State} {ps : Nat} (hp : ParserInv s.cfg (s.parser ps)) (chars : List Byte)
    (length cursor : Nat) (x : Fault) : execProcessChunk ps chars length cursor s ≠ .fault x := by
  obtain ⟨done, k, q, hrun⟩ := exists_chunkRun (chars.take length) cursor hp
  unfold execProcessChunk
  split
  · simp
  · simp [hrun.processChunk_eq]

/-- R205: a header byte has no fault. -/
theorem headerStep_ne_fault (p : BitVec 2) (ty : AddrType) (s : State) (x : Fault) : headerStep p ty s ≠ .fault x := by
  unfold headerStep
  split
  · simp
  · simp
  · split
    · simp
    · split <;> simp
  · simp

/-- R205: a command word has no fault. -/
theorem wordStep_ne_fault (inDomain : Domain → Bool) (len : Nat) (sc : Option SubCmd) (s : State) (x : Fault) :
    wordStep inDomain len sc s ≠ .fault x := by
  unfold wordStep
  split
  · split_ifs <;> simp
  · simp

/-- R170, R205: an unrecognised id has no fault. -/
theorem unknownIdStep_ne_fault (d : Domain) (s : State) (x : Fault) : unknownIdStep d s ≠ .fault x := by
  unfold unknownIdStep
  split
  · split_ifs <;> simp
  · simp

/-- R53: an output of bytes has no fault. -/
theorem answerBytes_ne_fault (bs : List Byte) (s : State) (x : Fault) : answerBytes bs s ≠ .fault x := by
  obtain ⟨t, ht⟩ := answerBytes_completes bs s
  simp [ht]

/-- R53: an output of characters has no fault. -/
theorem answerText_ne_fault (cs : List Byte) (s : State) (x : Fault) : answerText cs s ≠ .fault x := by
  obtain ⟨t, ht⟩ := answerText_completes cs s
  simp [ht]

/-- R201 to R203: a mapping has no fault; a conflict sets `map_fault` and is reported. -/
theorem execAddMapping_ne_fault (d : Domain) (a : Byte) (s : State) (x : Fault) : execAddMapping d a s ≠ .fault x := by
  unfold execAddMapping
  split_ifs
  · simp
  · simp
  · simp
  · split
    · simp
    · split_ifs <;> simp

/-! ### Instructions and steps -/

/-- R31, R101: where every ParserState satisfies R30, no instruction faults: the framer does not, and nothing else can. -/
theorem exec_ne_fault {s : State} (hinv : ∀ ps, ParserInv s.cfg (s.parser ps)) (i : Instr) (x : Fault) :
    exec i s ≠ .fault x := by
  cases hc : charOf s.cfg i with
  | some c => rw [exec_charOf i c s hc]; exact feedChar_ne_fault hinv c x
  | none =>
    cases i with
    | hdrNoaddr | hdrTwobyte | hdrOnebyte | hdrUnrecognised0 | hdrUnrecognised1 | hdrUnrecognised2
    | hdrUnrecognised4 | hdrUnrecognised7 => exact headerStep_ne_fault _ _ _ _
    | long | on | off | terminate | ramp | event | min | max | kill => exact wordStep_ne_fault _ _ _ _ _
    | lightUnknown | trigUnknown => exact unknownIdStep_ne_fault _ _ _
    | calPrefix | reservedZero | calEncode => exact answerBytes_ne_fault _ _ _
    | direct | reset | stxOut | crOut | resetEncode | hexEncode | salFrameText | calFrameText =>
      exact answerText_ne_fault _ _ _
    | salEncode d p a subs =>
      obtain ⟨t, ht⟩ := execSalEncode_completes d p a subs s
      simp [exec, ht]
    | hwReset | hdrEncode | hdrDecode => intro h; cases h
    | psReset => simp only [exec, execPsReset]; split_ifs <;> simp
    | processChunk ps chars length cursor => exact execProcessChunk_ne_fault (hinv ps) chars length cursor x
    | checksum => simp only [exec, execChecksum]; split_ifs <;> simp
    | locateApp => simp only [exec, execLocateApp]; split_ifs <;> simp
    | tryParse => simp only [exec, execTryParse]; split <;> simp
    | decodeFrame => simp only [exec, execDecodeFrame]; split <;> simp
    | addMapping d a => exact execAddMapping_ne_fault d a s x
    | _ => cases hc

/-- R8: an operation that the host asks to be stepped, and that reads no instruction, runs whole in the state it is begun
in. -/
theorem eq_of_beginStepped_run {op i : Instr} {s t : State} (h : beginStepped op s = .run i t) : t = s := by
  cases op with
  | processChunk =>
    dsimp only [beginStepped] at h
    split at h
    · cases h
    · split_ifs at h
      cases h
      rfl
  | hdrDecode => cases h
  | locateApp _ _ m =>
    cases m with
    | false => dsimp only [beginStepped] at h; split_ifs at h
    | true => cases h; rfl
  | tryParse =>
    dsimp only [beginStepped] at h
    split at h
    · cases h
    · simp [beginLookup_eq] at h
  | decodeFrame =>
    dsimp only [beginStepped] at h
    split at h
    · cases h
    · simp [beginLookup_eq] at h
  | _ => cases h; rfl

/-- R161 to R163: a header byte is run in the state it is fetched in. -/
theorem eq_of_fetchHeader_run {bytes : List Byte} {length : Nat} {i : Instr} {s failed t : State}
    (h : fetchHeader bytes length s failed = .run i t) : t = s := by
  unfold fetchHeader at h
  split at h <;> cases h
  rfl

/-- R8, R44: the instruction that is fetched is run in the state it is fetched in, but for the invocation that is taken. -/
theorem exists_pending_of_fetchNext_run {i : Instr} {s t : State} (h : fetchNext s = .run i t) :
    ∃ rest, t = { s with pending := rest } := by
  unfold fetchNext at h
  split at h
  · split at h
    · cases h
    · rename_i inv rest _
      split_ifs at h
      · exact ⟨rest, eq_of_beginStepped_run h⟩
      · cases h
        exact ⟨rest, rfl⟩
  · split at h <;> cases h
    exact ⟨_, rfl⟩
  · split at h <;> cases h
    exact ⟨_, rfl⟩
  · exact ⟨_, eq_of_fetchHeader_run h⟩
  · split_ifs at h
    exact ⟨_, eq_of_fetchHeader_run h⟩
  · split_ifs at h
    split at h <;> cases h
    exact ⟨_, rfl⟩

/-- A step that faults has executed the instruction it fetched. -/
theorem exec_fault_of_step_fault {s : State} {x : Fault} (h : step s = .fault x) :
    ∃ i t, fetchNext s = .run i t ∧ exec i t = .fault x := by
  unfold step fetch at h
  cases hf : fetchNext s with
  | run i t =>
    simp only [hf, underLegal] at h
    split_ifs at h
    exact ⟨i, t, rfl, h⟩
  | settle t => simp only [hf, underLegal] at h; split_ifs at h
  | refuse r => simp only [hf, underLegal] at h; split_ifs at h

/-- Settles O58: the fetch leaves the ParserStates as they are, and where R30 holds of them no instruction faults. -/
theorem noStepFaults : Obligations.NoStepFaults := by
  intro s x hinv h
  obtain ⟨i, t, hfetch, hexec⟩ := exec_fault_of_step_fault h
  obtain ⟨rest, rfl⟩ := exists_pending_of_fetchNext_run hfetch
  exact exec_ne_fault (s := { s with pending := rest }) hinv.parsersInv i x hexec

end Sys2Proof.Machine
end

section
/-! PROOFS. `CHECKSUM` as arithmetic modulo 256 (O17), and the checksum of a frame with its last byte (O18). -/

namespace Sys2Proof.Machine

/-! ### The 8-bit sum (R140, R141) -/

/-- R140: the accumulator is the library's sum over the 8-bit words, so the laws of that sum are its laws. -/
theorem byteSum_eq_sum (bytes : List Byte) : byteSum bytes = bytes.sum := by
  induction bytes with
  | nil => rfl
  | cons b bs ih => rw [byteSum, ih, List.sum_cons]

/-- R141: reduction modulo 256 commutes with addition, so the bytes may be summed as naturals. -/
theorem byteSum_eq_ofNat (bytes : List Byte) : byteSum bytes = BitVec.ofNat 8 (bytes.map BitVec.toNat).sum := by
  induction bytes with
  | nil => rfl
  | cons b bs ih =>
    rw [byteSum, ih, List.map_cons, List.sum_cons, BitVec.ofNat_add, BitVec.ofNat_toNat, BitVec.setWidth_eq]

/-- R140: the negation of an 8-bit sum is its distance from 256, where 256 wraps to 0. -/
theorem neg_ofNat_eq_ofNat_sub (n : Nat) : -BitVec.ofNat 8 n = BitVec.ofNat 8 (256 - n % 256) := by
  apply BitVec.eq_of_toNat_eq
  simp only [BitVec.toNat_neg, BitVec.toNat_ofNat, Nat.reducePow]

/-- R141: the checksum, computed in the naturals. -/
theorem checksum8_eq_ofNat (bytes : List Byte) :
    checksum8 bytes = BitVec.ofNat 8 (256 - (bytes.map BitVec.toNat).sum % 256) := by
  rw [checksum8, byteSum_eq_ofNat, neg_ofNat_eq_ofNat_sub]

/-- R141: the order of the bytes does not matter. -/
theorem checksum8_perm {xs ys : List Byte} (h : xs.Perm ys) : checksum8 xs = checksum8 ys := by
  rw [checksum8, checksum8, byteSum_eq_sum, byteSum_eq_sum, h.sum_eq]

/-- R142: one more byte brings the checksum to 0 exactly when it is the checksum of the bytes before it. -/
theorem checksum8_concat_eq_zero_iff (bytes : List Byte) (x : Byte) :
    checksum8 (bytes ++ [x]) = 0 ↔ checksum8 bytes = x := by
  simp only [checksum8, byteSum_eq_sum, List.sum_append, List.sum_singleton]
  rw [neg_eq_zero, add_eq_zero_iff_neg_eq]

/-! ### The operation -/

/-- R140: `CHECKSUM` of a length that the bytes have returns their checksum and changes nothing else. -/
theorem exec_checksum_of_le (s : State) {bytes : List Byte} {length : Nat} (h : length ≤ bytes.length) :
    exec (.checksum bytes length) s = .next (s.ret (.byte (checksum8 (bytes.take length)))) :=
  if_neg (Nat.not_lt.mpr h)

/-- R140: `CHECKSUM` over all the bytes it is given. -/
theorem exec_checksum_length (s : State) (bytes : List Byte) :
    exec (.checksum bytes bytes.length) s = .next (s.ret (.byte (checksum8 bytes))) := by
  rw [exec_checksum_of_le s le_rfl, List.take_length]

/-- The result of a returned byte determines the byte, so answers that return bytes compare as the bytes do. -/
theorem next_ret_byte_inj {s : State} {a b : Byte} :
    (.next (s.ret (.byte a)) : Answer) = .next (s.ret (.byte b)) ↔ a = b := by
  constructor
  · intro h
    injection h with h
    exact Result.byte.inj (congrArg State.result h)
  · rintro rfl
    rfl

/-- Settles O17: the checksum is the negated sum of the naturals, and a sum does not depend on the order of its terms. -/
theorem checksumResult : Obligations.ChecksumResult := by
  refine ⟨fun s bytes length h => ?_, fun s xs ys h => ?_⟩
  · rw [exec_checksum_of_le s h, checksum8_eq_ofNat]
  · rw [exec_checksum_length, exec_checksum_length, checksum8_perm h]

/-- Settles O18: both calls cover all their bytes, so the claim is the residue property of `checksum8`. -/
theorem checksumResidue : Obligations.ChecksumResidue := by
  intro s bytes x
  have hframe : bytes.length + 1 = (bytes ++ [x]).length := by simp
  rw [hframe, exec_checksum_length, exec_checksum_length, next_ret_byte_inj, next_ret_byte_inj]
  exact checksum8_concat_eq_zero_iff bytes x

end Sys2Proof.Machine
end

section
/-! PROOFS. The header codec in arithmetic: `HDR_ENCODE` (O19) and `HDR_DECODE` (O20). -/

namespace Sys2Proof.Machine

/-! ### The header byte in arithmetic (R78, R150, R151) -/

/-- R150: with bits 5:3 clear, the priority counts in units of 64. -/
theorem headerEncode_eq_ofNat (priority : BitVec 2) (code : BitVec 3) :
    headerEncode priority code = BitVec.ofNat 8 (64 * priority.toNat + code.toNat) := by
  have hbyte : (headerEncode priority code).toNat = 64 * priority.toNat + code.toNat :=
    toNat_packHeader priority 0 code
  rw [← hbyte, BitVec.ofNat_toNat, BitVec.setWidth_eq]

/-- R78: the priority of a header byte is its quotient by 64. -/
theorem headerPriority_eq_ofNat (h : Byte) : headerPriority h = BitVec.ofNat 2 (h.toNat / 64) := by
  apply BitVec.eq_of_toNat_eq
  rw [headerPriority, BitVec.extractLsb'_toNat, Nat.shiftRight_eq_div_pow, BitVec.toNat_ofNat]

/-- R78: the address-type code of a header byte is its remainder by 8. -/
theorem toNat_headerCode (h : Byte) : (headerCode h).toNat = h.toNat % 8 := by
  rw [headerCode, BitVec.extractLsb'_toNat, Nat.shiftRight_zero]

/-- A header byte has a given address-type code exactly when its remainder by 8 is that code. -/
theorem headerCode_eq_iff (h : Byte) (code : BitVec 3) : headerCode h = code ↔ h.toNat % 8 = code.toNat := by
  rw [← BitVec.toNat_inj, toNat_headerCode]

/-- R151: the decoded header, in arithmetic. -/
theorem headerDecode_eq (cfg : Config) (h : Byte) :
    headerDecode cfg h =
      { priority := BitVec.ofNat 2 (h.toNat / 64)
        addrType := if h.toNat % 8 = 5 then .noAddr
                    else if h.toNat % 8 = cfg.atTwo.toNat then .twoByte else .oneByte } := by
  have hnone : atNone.toNat = 5 := rfl
  simp only [headerDecode, addrTypeOf, headerPriority_eq_ofNat, headerCode_eq_iff, hnone]

/-- R151, R153: decoding a packed byte gives back its priority and the type of its code, whatever bits 5:3 are. -/
theorem headerDecode_packHeader (cfg : Config) (priority : BitVec 2) (ignored code : BitVec 3) :
    headerDecode cfg (packHeader priority ignored code) = { priority, addrType := addrTypeOf cfg code } := by
  rw [headerDecode, headerPriority_packHeader, headerCode_packHeader]

/-! ### The operations -/

/-- R150: `HDR_ENCODE` returns the encoded byte and changes nothing else. -/
theorem exec_hdrEncode (priority : BitVec 2) (code : BitVec 3) (s : State) :
    exec (.hdrEncode priority code) s = .next (s.ret (.byte (headerEncode priority code))) := rfl

/-- R151: `HDR_DECODE` returns the decoded header and changes nothing else. -/
theorem exec_hdrDecode (h : Byte) (s : State) :
    exec (.hdrDecode h) s = .next (s.ret (.header (headerDecode s.cfg h))) := rfl

/-- R151: `HDR_DECODE` of a packed byte does not look at its bits 5:3. -/
theorem exec_hdrDecode_packHeader (priority : BitVec 2) (ignored code : BitVec 3) (s : State) :
    exec (.hdrDecode (packHeader priority ignored code)) s =
      .next (s.ret (.header { priority, addrType := addrTypeOf s.cfg code })) := by
  rw [exec_hdrDecode, headerDecode_packHeader]

/-- Settles O19: the byte returned is the encoded one, whose fields do not overlap. -/
theorem hdrEncodeResult : Obligations.HdrEncodeResult := by
  intro s priority code
  rw [exec_hdrEncode, headerEncode_eq_ofNat]

/-- Settles O20: the header in arithmetic, and the header of a packed byte, of which the encoded byte is the one with bits
5:3 clear. -/
theorem hdrDecodeResult : Obligations.HdrDecodeResult := by
  refine ⟨fun s h => ?_, fun s priority code => ?_, fun s priority x y code => ?_⟩
  · rw [exec_hdrDecode, headerDecode_eq]
  · exact exec_hdrDecode_packHeader priority 0 code s
  · rw [exec_hdrDecode_packHeader, exec_hdrDecode_packHeader]

end Sys2Proof.Machine
end

section
/-! PROOFS. `LOCATE_APP` in arithmetic, by the layouts (O24, O25), and the header rows where it is stepped (O22). -/

namespace Sys2Proof.Machine

/-! ### Bounded reads and checked offsets in arithmetic (R160, R166) -/

section Bounds

variable {bytes : List Byte} {stop : Nat}

/-- R166: a read before the end of the region gives the byte at its index. -/
theorem rd_of_lt (hs : stop ≤ bytes.length) {i : Nat} (hi : i < stop) : rd bytes stop i = .ok (bytes.getD i 0) := by
  have hlen : i < bytes.length := by omega
  rw [rd_eq_ok, List.getD_eq_getElem _ _ hlen, List.getElem?_eq_getElem hlen]
  exact ⟨hi, rfl⟩

/-- R166: a read at the end of the region, or behind it, fails. -/
theorem rd_of_le {i : Nat} (hi : stop ≤ i) : rd bytes stop i = .error .fTrunc := if_neg (by omega)

/-- R160: a location whose offset lies behind the byte that names the application is bounded by its offset alone. -/
theorem rd_bind_checkOffset (hs : stop ≤ bytes.length) {i off : Nat} (hi : i < off) :
    (rd bytes stop i >>= fun app => checkOffset stop (app, off)) =
      if off ≤ stop then .ok (bytes.getD i 0, off) else .error .fTrunc := by
  by_cases hread : i < stop
  · rw [rd_of_lt hs hread]
    rfl
  · rw [rd_of_le (by omega), if_neg (by omega)]
    rfl

/-! ### The layouts (R161 to R165) -/

/-- R161: layout L-NONE. -/
theorem locateNoAddr_eq (hs : stop ≤ bytes.length) :
    locateNoAddr bytes stop = if 3 ≤ stop then .ok (bytes.getD 1 0, 3) else .error .fTrunc :=
  rd_bind_checkOffset hs (by decide)

/-- R162: layout L-TWO; the route byte lies before the region that it places, so its own bound adds nothing. -/
theorem locateTwoByte_eq (cfg : Config) (hs : stop ≤ bytes.length) :
    locateTwoByte cfg bytes stop =
      if 5 + routeCount cfg (bytes.getD 2 0) ≤ stop then
        .ok (bytes.getD (3 + routeCount cfg (bytes.getD 2 0)) 0, 5 + routeCount cfg (bytes.getD 2 0))
      else .error .fTrunc := by
  unfold locateTwoByte
  by_cases hroute : 2 < stop
  · rw [rd_of_lt hs hroute]
    exact rd_bind_checkOffset hs (by omega)
  · rw [rd_of_le (by omega), if_neg (by omega)]
    rfl

/-- R164: layout M-LONG, likewise. -/
theorem locateMonitoredLong_eq (cfg : Config) (hs : stop ≤ bytes.length) :
    locateMonitoredLong cfg bytes stop =
      if 4 + routeCount cfg (bytes.getD 3 0) ≤ stop then
        .ok (bytes.getD 2 0, 4 + routeCount cfg (bytes.getD 3 0))
      else .error .fTrunc := by
  unfold locateMonitoredLong
  by_cases hroute : 3 < stop
  · rw [rd_of_lt hs hroute]
    exact rd_bind_checkOffset hs (by omega)
  · rw [rd_of_le (by omega), if_neg (by omega)]
    rfl

/-- R165: layout M-SHORT. -/
theorem locateMonitoredShort_eq (cfg : Config) (hs : stop ≤ bytes.length) :
    locateMonitoredShort cfg bytes stop =
      if (if cfg.shortSkipBridge = true then 1 else 0) + 2 ≤ stop then
        .ok (bytes.getD (if cfg.shortSkipBridge = true then 1 else 0) 0,
          (if cfg.shortSkipBridge = true then 1 else 0) + 2)
      else .error .fTrunc :=
  rd_bind_checkOffset hs (by omega)

/-- R160: what a location that is bounded by its offset answers, for a frame of `length` bytes. -/
theorem locatedResult_ite (app : Byte) (off length : Nat) (hoff : off ≠ 0) :
    locatedResult (if off ≤ length - 1 then .ok (app, off) else .error .fTrunc) =
      if off + 1 ≤ length then .located app off else .absent := by
  by_cases h : off + 1 ≤ length
  · rw [if_pos h, if_pos (by omega)]
    rfl
  · rw [if_neg h, if_neg (by omega)]
    rfl

end Bounds

/-! ### The operation -/

/-- R160: `LOCATE_APP` of a length that the bytes have returns the location and changes nothing else. -/
theorem exec_locateApp_of_le (s : State) {bytes : List Byte} {length : Nat} (m f : Bool) (h : length ≤ bytes.length) :
    exec (.locateApp bytes length m f) s = .next (s.ret (locatedResult (locateApp s.cfg bytes length m f))) :=
  if_neg (Nat.not_lt.mpr h)

/-- R164, R165: a monitored reply is located by its form; no bytes have no location in either. -/
theorem locateApp_monitored (cfg : Config) {bytes : List Byte} {length : Nat} (f : Bool) :
    locateApp cfg bytes length true f =
      if f then locateMonitoredShort cfg bytes (length - 1) else locateMonitoredLong cfg bytes (length - 1) := by
  by_cases h : length = 0
  · subst h
    cases f <;> rfl
  · cases f <;> simp [locateApp, h]

/-- R161 to R163: the location of a locally-originated frame, by the address type in bits 2:0 of its header byte. -/
theorem locatedResult_locateLocal (cfg : Config) (h : Byte) {bytes : List Byte} {length : Nat}
    (hs : length ≤ bytes.length) :
    locatedResult (locateLocal cfg (headerDecode cfg h).addrType bytes (length - 1)) =
      if h.toNat % 8 = 5 then
        if 4 ≤ length then .located (bytes.getD 1 0) 3 else .absent
      else if h.toNat % 8 = cfg.atTwo.toNat then
        if 6 + routeCount cfg (bytes.getD 2 0) ≤ length then
          .located (bytes.getD (3 + routeCount cfg (bytes.getD 2 0)) 0) (5 + routeCount cfg (bytes.getD 2 0))
        else .absent
      else .absent := by
  have hstop : length - 1 ≤ bytes.length := by omega
  rw [headerDecode_eq]
  dsimp only
  by_cases hnone : h.toNat % 8 = 5
  · rw [if_pos hnone, if_pos hnone, locateLocal, locateNoAddr_eq hstop]
    exact locatedResult_ite _ 3 length (by decide)
  · rw [if_neg hnone, if_neg hnone]
    by_cases htwo : h.toNat % 8 = cfg.atTwo.toNat
    · rw [if_pos htwo, if_pos htwo, locateLocal, locateTwoByte_eq cfg hstop, locatedResult_ite _ _ length (by omega),
        Nat.add_right_comm]
    · rw [if_neg htwo, if_neg htwo]
      rfl

/-- R160 to R163: the same, from the frame; one without a byte before its checksum byte is too short for every layout. -/
theorem locatedResult_locateApp_local (cfg : Config) {bytes : List Byte} {length : Nat} (f : Bool)
    (hs : length ≤ bytes.length) :
    locatedResult (locateApp cfg bytes length false f) =
      if (bytes.getD 0 0).toNat % 8 = 5 then
        if 4 ≤ length then .located (bytes.getD 1 0) 3 else .absent
      else if (bytes.getD 0 0).toNat % 8 = cfg.atTwo.toNat then
        if 6 + routeCount cfg (bytes.getD 2 0) ≤ length then
          .located (bytes.getD (3 + routeCount cfg (bytes.getD 2 0)) 0) (5 + routeCount cfg (bytes.getD 2 0))
        else .absent
      else .absent := by
  rw [locateApp_local]
  by_cases hheader : 0 < length - 1
  · rw [rd_of_lt (by omega) hheader]
    exact locatedResult_locateLocal cfg _ hs
  · rw [rd_of_le (by omega), if_neg (show ¬4 ≤ length by omega),
      if_neg (show ¬6 + routeCount cfg (bytes.getD 2 0) ≤ length by omega), ite_self, ite_self]
    rfl

/-- Settles O24: the location by the layouts, with the route-list length written out. -/
theorem locateLocalFrames : Obligations.LocateLocalFrames := by
  intro s bytes length f hlen
  rw [exec_locateApp_of_le s false f hlen, locatedResult_locateApp_local s.cfg f hlen]
  rfl

/-- Settles O25, likewise. -/
theorem locateMonitoredReplies : Obligations.LocateMonitoredReplies := by
  intro s bytes length hlen
  have hstop : length - 1 ≤ bytes.length := by omega
  rw [exec_locateApp_of_le s true false hlen, exec_locateApp_of_le s true true hlen, locateApp_monitored,
    locateApp_monitored, if_neg Bool.false_ne_true, if_pos rfl, locateMonitoredLong_eq _ hstop,
    locateMonitoredShort_eq _ hstop, locatedResult_ite _ _ length (by omega), locatedResult_ite _ _ length (by omega),
    Nat.add_right_comm]
  exact ⟨rfl, rfl⟩

/-- Settles O22: the row is the one decoded from the first byte of the frame, and it locates by the layout that
`LOCATE_APP` selects from that byte. -/
theorem headerRowsLocate : Obligations.HeaderRowsLocate := by
  intro s i h bytes length f hc hu hlen hh hi
  have hrd : rd bytes (length - 1) 0 = .ok h := (rd_eq_ok _ _ _ _).mpr ⟨by omega, hh⟩
  rw [← decodeHeaderByte_headerByteOf hc hi, exec_decodeHeaderByte, locateApp_local, hrd]
  simp only [headerStep, hu]
  rfl

end Sys2Proof.Machine
end

section
/-! PROOFS. The command words where the decoder stands at `dpos`: as rows, and as steps at their id bytes (O26, O27, O29). -/

namespace Sys2Proof.Machine

/-! ### Command ids (R86, R87, R169) -/

/-- R86: the ids ON, OFF and TERMINATE are short-form ids with one trailing byte. -/
theorem lighting_plain_id {cfg : Config} (hc : configLegal cfg = true) {id : Byte}
    (h : id = lightOn ∨ id = cfg.lightOff ∨ id = cfg.lightTerminate) :
    isLongForm id = false ∧ shortForm cfg .lighting id = some 1 := by
  obtain ⟨-, -, -, -, -, -, -, -, hoff, hterm, -⟩ := (configLegal_iff cfg).mp hc
  refine ⟨?_, if_pos h⟩
  rw [not_isLongForm_iff]
  rcases h with rfl | rfl | rfl
  · decide
  · exact hoff
  · exact hterm

/-- R86: a ramp id is a short-form id with two trailing bytes. -/
theorem lighting_ramp_id {cfg : Config} (hc : configLegal cfg = true) {id : Byte} (h : id ∈ cfg.rampIds) :
    isLongForm id = false ∧ shortForm cfg .lighting id = some 2 := by
  obtain ⟨-, -, -, -, -, -, -, hramp, -⟩ := (configLegal_iff cfg).mp hc
  obtain ⟨hon, hoff, hterm, hlt⟩ := hramp id h
  exact ⟨(not_isLongForm_iff id).mpr hlt, by simp [shortForm, hon, hoff, hterm, h]⟩

/-- R87: the ids MIN, MAX and KILL are short-form ids with one trailing byte. -/
theorem trigger_plain_id {cfg : Config} (hc : configLegal cfg = true) {id : Byte}
    (h : id = cfg.trigMin ∨ id = cfg.trigMax ∨ id = cfg.trigKill) :
    isLongForm id = false ∧ shortForm cfg .trigger id = some 1 := by
  obtain ⟨-, -, -, -, -, -, -, -, -, -, -, hmin, hmax, hkill, -⟩ := (configLegal_iff cfg).mp hc
  refine ⟨?_, if_pos h⟩
  rw [not_isLongForm_iff]
  rcases h with rfl | rfl | rfl
  · exact hmin
  · exact hmax
  · exact hkill

/-! ### The decoder before a command word (R167, R168, R170) -/

/-- R171 to R179: a row of the domain, where the decoder stands at `dpos`: the decoder goes on behind the word, or the word
passes the end of the region. -/
theorem wordStep_eq_wordsAt {s : State} {d : Domain} {bytes : List Byte} {stop dpos : Nat} {subs : List SubCmd}
    (hu : s.unit = .words d bytes stop dpos subs) {inDomain : Domain → Bool} (hd : inDomain d = true) (len : Nat)
    (sc : SubCmd) :
    wordStep inDomain len (some sc) s = .next
      (if dpos + len ≤ stop then s.wordsAt d bytes stop (dpos + len) (subs ++ [sc]) else s.finish .absent) := by
  simp only [wordStep, hu, hd, Bool.not_true, Bool.false_eq_true, if_false]
  split_ifs
  · rfl
  · rfl

/-- The decoder stands before the word whose id byte is at `dpos`. -/
theorem atWord_of_getElem? {s : State} {d : Domain} {bytes : List Byte} {stop dpos : Nat} {subs : List SubCmd} {id : Byte}
    (hu : s.unit = .words d bytes stop dpos subs) (hs : stop ≤ bytes.length) (hd : dpos < stop)
    (hid : bytes[dpos]? = some id) : ∃ rest, AtWord s d bytes stop dpos subs id rest := by
  obtain ⟨id', rest, hat⟩ := atWord_of_lt hu hs hd
  obtain ⟨-, hid'⟩ := (rd_eq_ok _ _ _ _).mp hat.rd_id
  obtain rfl : id' = id := Option.some.inj (hid'.symm.trans hid)
  exact ⟨rest, hat⟩

namespace AtWord

variable {s : State} {d : Domain} {bytes rest : List Byte} {stop dpos : Nat} {subs : List SubCmd} {id : Byte}

/-- R168, R169: the step at the id of a word with one trailing byte. -/
theorem step_one (h : AtWord s d bytes stop dpos subs id rest) (hc : configLegal s.cfg = true)
    (hid : isLongForm id = false ∧ shortForm s.cfg d id = some 1) :
    step s = .next
      (if dpos + 2 ≤ stop then
        s.wordsAt d bytes stop (dpos + 2) (subs ++ [{ id, group := bytes.getD (dpos + 1) 0, param := none }])
      else s.finish .absent) := by
  obtain ⟨hl, hs⟩ := hid
  rw [h.step_eq hc]
  by_cases hfit : dpos + 2 ≤ stop
  · rw [if_pos hfit, wordAt_one h.rd_id hl hs (rd_of_lt h.inside (by omega))]
    rfl
  · rw [if_neg hfit, wordAt_truncated h.rd_id hl hs (by omega)]
    rfl

/-- R168, R169: the step at the id of a word with two trailing bytes. -/
theorem step_two (h : AtWord s d bytes stop dpos subs id rest) (hc : configLegal s.cfg = true)
    (hid : isLongForm id = false ∧ shortForm s.cfg d id = some 2) :
    step s = .next
      (if dpos + 3 ≤ stop then
        s.wordsAt d bytes stop (dpos + 3)
          (subs ++ [{ id, group := bytes.getD (dpos + 1) 0, param := some (bytes.getD (dpos + 2) 0) }])
      else s.finish .absent) := by
  obtain ⟨hl, hs⟩ := hid
  rw [h.step_eq hc]
  by_cases hfit : dpos + 3 ≤ stop
  · rw [if_pos hfit,
      wordAt_two h.rd_id hl hs (rd_of_lt h.inside (by omega)) (rd_of_lt h.inside (by omega))]
    rfl
  · rw [if_neg hfit, wordAt_truncated h.rd_id hl hs (by omega)]
    rfl

/-- R170: the step at an unrecognised id. -/
theorem step_unknown (h : AtWord s d bytes stop dpos subs id rest) (hc : configLegal s.cfg = true)
    (hl : isLongForm id = false) (hs : shortForm s.cfg d id = none) : step s = .next (s.finish .absent) := by
  rw [h.step_eq hc, wordAt_unknown h.rd_id hl hs]
  rfl

end AtWord

/-- R170: a row of unrecognised ids of the decoder's domain. -/
theorem unknownIdStep_of_words {s : State} {d : Domain} {bytes : List Byte} {stop dpos : Nat} {subs : List SubCmd}
    (hu : s.unit = .words d bytes stop dpos subs) : unknownIdStep d s = .next (s.finish .absent) := by
  simp only [unknownIdStep, hu, if_true]
  rfl

/-! ### The words of the two domains -/

/-- Settles O26: the rows by what a row of the domain does, and the steps by the trailing bytes of the id. -/
theorem lightingWords : Obligations.LightingWords := by
  intro s bytes stop dpos subs hu
  refine ⟨fun g => wordStep_eq_wordsAt hu rfl 2 _, fun g => wordStep_eq_wordsAt hu rfl 2 _,
    fun g => wordStep_eq_wordsAt hu rfl 2 _, fun id g l => wordStep_eq_wordsAt hu rfl 3 _, fun id hc hd hs hid => ?_⟩
  obtain ⟨rest, hat⟩ := atWord_of_getElem? hu hs.le hd hid
  exact ⟨fun h => hat.step_one hc (lighting_plain_id hc h), fun h => hat.step_two hc (lighting_ramp_id hc h)⟩

/-- Settles O27, likewise. -/
theorem triggerWords : Obligations.TriggerWords := by
  intro s bytes stop dpos subs hu
  refine ⟨fun g a => wordStep_eq_wordsAt hu rfl 3 _, fun g => wordStep_eq_wordsAt hu rfl 2 _,
    fun g => wordStep_eq_wordsAt hu rfl 2 _, fun g => wordStep_eq_wordsAt hu rfl 2 _, fun id hc hd hs hid => ?_⟩
  obtain ⟨rest, hat⟩ := atWord_of_getElem? hu hs.le hd hid
  refine ⟨fun h => hat.step_one hc (trigger_plain_id hc h), fun h => hat.step_two hc ?_⟩
  subst h
  exact ⟨by decide, shortForm_trigEvent hc⟩

/-- Settles O29: the rows and the step end the operation where the id stands, whatever was decoded before. -/
theorem unknownIdsFailTheDecode : Obligations.UnknownIdsFailTheDecode := by
  intro s d bytes stop dpos subs hu
  refine ⟨fun id hd => ?_, fun id hd => ?_, fun id hc hd hs hid hlt hnone => ?_⟩
  · subst hd
    exact unknownIdStep_of_words hu
  · subst hd
    exact unknownIdStep_of_words hu
  · obtain ⟨rest, hat⟩ := atWord_of_getElem? hu hs.le hd hid
    exact hat.step_unknown hc ((not_isLongForm_iff id).mpr hlt) hnone

end Sys2Proof.Machine
end

section
/-! PROOFS. `SAL_ENCODE` (O39): the frame in arithmetic, and the two ways the operation answers. -/

namespace Sys2Proof.Machine

/-! ### The frame (R181 to R183) -/

/-- R183: the test of a sub-command, in arithmetic. -/
theorem subCmdWellFormed_iff (cfg : Config) (d : Domain) (sc : SubCmd) :
    subCmdWellFormed cfg d sc = true ↔
      sc.id.toNat < 128 ∧ ∃ k, shortForm cfg d sc.id = some k ∧ (sc.param.isSome = true ↔ k = 2) := by
  rw [subCmdWellFormed, Bool.and_eq_true, Bool.not_eq_true', not_isLongForm_iff]
  cases shortForm cfg d sc.id with
  | none => simp
  | some k => cases sc.param <;> simp

/-- R182: the bytes of a sub-command, by its parameter. -/
theorem serialize_eq (sc : SubCmd) :
    serialize sc = match sc.param with | none => [sc.id, sc.group] | some p => [sc.id, sc.group, p] := by
  unfold serialize
  cases sc.param <;> rfl

/-- R181: the body of a SAL frame, with the header byte in arithmetic. -/
theorem salBody_eq (priority : BitVec 2) (app : Byte) (subs : List SubCmd) :
    salBody priority app subs = [BitVec.ofNat 8 (64 * priority.toNat + 5), app, 0x00] ++ subs.flatMap serialize := by
  have hcode : atNone.toNat = 5 := rfl
  rw [salBody, headerEncode_eq_ofNat, hcode]

/-- R181: the frame that `SAL_ENCODE` writes. -/
abbrev salFrame (priority : BitVec 2) (app : Byte) (subs : List SubCmd) : List Byte :=
  withChecksum (salBody priority app subs)

/-- R142, R181: a frame has one byte more than its body. -/
@[simp] theorem withChecksum_length (body : List Byte) : (withChecksum body).length = body.length + 1 := by
  simp [withChecksum]

/-! ### The operation (R181, R183, R185) -/

/-- R50, R185: an output fits exactly when it passes no bound. -/
theorem fitsTx_iff (cfg : Config) (n : Nat) : fitsTx cfg n = true ↔ ∀ m, cfg.txMax = some m → n ≤ m := by
  unfold fitsTx
  cases cfg.txMax <;> simp

/-- R183: a sub-command that is not well-formed fails the encoding. -/
theorem exec_salEncode_of_not_subsWf {s : State} {d : Domain} (priority : BitVec 2) (app : Byte) {subs : List SubCmd}
    (h : ¬SubsWf s.cfg d subs) : exec (.salEncode d priority app subs) s = .next (s.ret .absent) := by
  have hall : subs.all (subCmdWellFormed s.cfg d) = false := by
    rwa [← Bool.not_eq_true, List.all_eq_true]
  simp [exec, execSalEncode, salEncode, hall]

/-- R181: well-formed sub-commands are encoded, if their frame fits the output buffer. -/
theorem exec_salEncode_of_subsWf {s : State} {d : Domain} (priority : BitVec 2) (app : Byte) {subs : List SubCmd}
    (h : SubsWf s.cfg d subs) :
    exec (.salEncode d priority app subs) s = answerBytes (salFrame priority app subs) s := by
  have hall : subs.all (subCmdWellFormed s.cfg d) = true := List.all_eq_true.mpr h
  simp [exec, execSalEncode, salEncode, hall]

/-- Settles O39: the body is the encoder's, the well-formedness of R183 its test, and the bound of R185 the one of the output
buffer. -/
theorem salEncodeResult : Obligations.SalEncodeResult := by
  intro s d priority app subs body hbody
  have hbody : body = salBody priority app subs := by
    rw [hbody, salBody_eq]
    exact congrArg _ (congrArg subs.flatMap (funext fun sc => (serialize_eq sc).symm))
  subst hbody
  have hwf_iff : SubsWf s.cfg d subs ↔ ∀ sc ∈ subs,
      sc.id.toNat < 128 ∧ ∃ k, shortForm s.cfg d sc.id = some k ∧ (sc.param.isSome = true ↔ k = 2) :=
    forall₂_congr fun sc _ => subCmdWellFormed_iff s.cfg d sc
  rw [← hwf_iff]
  refine ⟨fun hwf hfits => ?_, fun hfails => ?_⟩
  · rw [exec_salEncode_of_subsWf priority app hwf]
    exact answerBytes_of_fits ((fitsTx_iff _ _).mpr (by rwa [withChecksum_length]))
  · by_cases hwf : SubsWf s.cfg d subs
    · obtain ⟨m, hm, hlong⟩ := hfails.resolve_left (not_not_intro hwf)
      rw [exec_salEncode_of_subsWf priority app hwf]
      exact answerBytes_of_not_fits (by simpa [fitsTx, hm] using Nat.le_of_lt_succ hlong)
    · exact exec_salEncode_of_not_subsWf priority app hwf

/-- R181, R183, R185: what `SAL_ENCODE` has done when it answers bytes. -/
theorem exec_salEncode_bytes {s t : State} {d : Domain} {priority : BitVec 2} {app : Byte} {subs : List SubCmd}
    (h : exec (.salEncode d priority app subs) s = .next t) (hbytes : t.result = .bytes) :
    SubsWf s.cfg d subs ∧ t = s.produceBytes (salFrame priority app subs) := by
  by_cases hwf : SubsWf s.cfg d subs
  · rw [exec_salEncode_of_subsWf priority app hwf] at h
    rcases answerBytes_next h with ⟨-, rfl⟩ | ⟨-, rfl⟩
    · exact ⟨hwf, rfl⟩
    · cases hbytes
  · rw [exec_salEncode_of_not_subsWf priority app hwf] at h
    cases h
    cases hbytes

end Sys2Proof.Machine
end

section
/-! PROOFS. A command region as a sequence of command words, read and written (O30), and what `SAL_ENCODE` writes, read back
(O40). -/

namespace Sys2Proof.Machine

/-! ### The bytes of one command word (R85, R169, R182) -/

/-- R85, R169: the bytes of a command word of the domain `d` that is no unrecognised id, with the sub-commands it yields. -/
inductive WordForm (cfg : Config) (d : Domain) : List Byte → List SubCmd → Prop where
  | long (x : BitVec 2) (n : BitVec 5) (content : List Byte) (hn : content.length = n.toNat) :
      WordForm cfg d (packLong x n :: content) []
  | one (id g : Byte) (hl : isLongForm id = false) (hs : shortForm cfg d id = some 1) :
      WordForm cfg d [id, g] [{ id, group := g, param := none }]
  | two (id g x : Byte) (hl : isLongForm id = false) (hs : shortForm cfg d id = some 2) :
      WordForm cfg d [id, g, x] [{ id, group := g, param := some x }]

/-- R180: a row that a region may hold: well-formed, of the domain, and no unrecognised id. -/
abbrev IsWordRow (cfg : Config) (d : Domain) (i : Instr) : Prop :=
  i.wf cfg = true ∧ i.inSpace (.word d) = true ∧ isUnknownIdRow i = false

/-- R85, R86: the encoding of a row that a region of Lighting may hold is a word, and it yields what the row yields. -/
theorem IsWordRow.wordForm_lighting {cfg : Config} {i : Instr} (hc : configLegal cfg = true)
    (h : IsWordRow cfg .lighting i) : WordForm cfg .lighting ((encode cfg i).getD []) (wordYield cfg i) := by
  have plain (id g : Byte) (hid : id = lightOn ∨ id = cfg.lightOff ∨ id = cfg.lightTerminate) :
      WordForm cfg .lighting [id, g] [{ id, group := g, param := none }] :=
    let ⟨hl, hs⟩ := lighting_plain_id hc hid
    .one id g hl hs
  obtain ⟨hwf, hspace, hknown⟩ := h
  cases i <;> cases hspace
  case long x n content => exact .long x n content (eq_of_beq hwf)
  case on g => exact plain _ g (.inl rfl)
  case off g => exact plain _ g (.inr (.inl rfl))
  case terminate g => exact plain _ g (.inr (.inr rfl))
  case ramp id g l =>
    obtain ⟨hl, hs⟩ := lighting_ramp_id hc (List.contains_iff_mem.mp hwf)
    exact .two id g l hl hs
  case lightUnknown => cases hknown

/-- R85, R87: the encoding of a row that a region of Trigger may hold is a word, and it yields what the row yields. -/
theorem IsWordRow.wordForm_trigger {cfg : Config} {i : Instr} (hc : configLegal cfg = true)
    (h : IsWordRow cfg .trigger i) : WordForm cfg .trigger ((encode cfg i).getD []) (wordYield cfg i) := by
  have plain (id g : Byte) (hid : id = cfg.trigMin ∨ id = cfg.trigMax ∨ id = cfg.trigKill) :
      WordForm cfg .trigger [id, g] [{ id, group := g, param := none }] :=
    let ⟨hl, hs⟩ := trigger_plain_id hc hid
    .one id g hl hs
  obtain ⟨hwf, hspace, hknown⟩ := h
  cases i <;> cases hspace
  case long x n content => exact .long x n content (eq_of_beq hwf)
  case event g a => exact .two trigEvent g a (by decide) (shortForm_trigEvent hc)
  case min g => exact plain _ g (.inl rfl)
  case max g => exact plain _ g (.inr (.inl rfl))
  case kill g => exact plain _ g (.inr (.inr rfl))
  case trigUnknown => cases hknown

/-- R85 to R87: the encoding of a row that a region may hold is a word, and it yields what the row yields. -/
theorem IsWordRow.wordForm {cfg : Config} {d : Domain} {i : Instr} (hc : configLegal cfg = true) (h : IsWordRow cfg d i) :
    WordForm cfg d ((encode cfg i).getD []) (wordYield cfg i) := by
  cases d with
  | lighting => exact h.wordForm_lighting hc
  | trigger => exact h.wordForm_trigger hc

/-- R86, R87: every word is the encoding of a row that a region may hold, which yields what the word yields. -/
theorem WordForm.exists_row {cfg : Config} {d : Domain} {w : List Byte} {subs : List SubCmd} (h : WordForm cfg d w subs) :
    ∃ i, IsWordRow cfg d i ∧ (encode cfg i).getD [] = w ∧ wordYield cfg i = subs := by
  cases h with
  | long x n content hn => exact ⟨.long x n content, ⟨beq_of_eq hn, by cases d <;> rfl, rfl⟩, rfl, rfl⟩
  | one id g hl hs =>
    cases d with
    | lighting =>
      simp only [shortForm] at hs
      split_ifs at hs with hid
      rcases hid with rfl | rfl | rfl
      · exact ⟨.on g, ⟨rfl, rfl, rfl⟩, rfl, rfl⟩
      · exact ⟨.off g, ⟨rfl, rfl, rfl⟩, rfl, rfl⟩
      · exact ⟨.terminate g, ⟨rfl, rfl, rfl⟩, rfl, rfl⟩
      · cases hs
    | trigger =>
      simp only [shortForm] at hs
      split_ifs at hs with hid
      rcases hid with rfl | rfl | rfl
      · exact ⟨.min g, ⟨rfl, rfl, rfl⟩, rfl, rfl⟩
      · exact ⟨.max g, ⟨rfl, rfl, rfl⟩, rfl, rfl⟩
      · exact ⟨.kill g, ⟨rfl, rfl, rfl⟩, rfl, rfl⟩
      · cases hs
  | two id g x hl hs =>
    cases d with
    | lighting =>
      simp only [shortForm] at hs
      split_ifs at hs with hid hramp
      · cases hs
      · exact ⟨.ramp id g x, ⟨hramp, rfl, rfl⟩, rfl, rfl⟩
    | trigger =>
      simp only [shortForm] at hs
      split_ifs at hs with hid hevent
      · cases hs
      · subst hevent
        exact ⟨.event g x, ⟨rfl, rfl, rfl⟩, rfl, rfl⟩

/-- R182, R183: a well-formed sub-command is serialised as a word, which yields it. -/
theorem wordForm_serialize {cfg : Config} {d : Domain} {sc : SubCmd} (h : subCmdWellFormed cfg d sc = true) :
    WordForm cfg d (serialize sc) [sc] := by
  obtain ⟨hlt, k, hs, hparam⟩ := (subCmdWellFormed_iff cfg d sc).mp h
  have hl : isLongForm sc.id = false := (not_isLongForm_iff sc.id).mpr hlt
  obtain ⟨id, g, param⟩ := sc
  cases param with
  | none =>
    obtain rfl := (shortForm_eq_one_or_two hs).resolve_right (by simpa using hparam)
    exact .one id g hl hs
  | some x =>
    obtain rfl : k = 2 := hparam.mp rfl
    exact .two id g x hl hs

/-! ### One word of a region (R166 to R171) -/

section Word

variable {cfg : Config} {d : Domain} {bytes w rest : List Byte} {stop dpos : Nat}

/-- R166: the bytes of the region from behind its next `n` bytes on. -/
theorem drop_regionAt (bytes : List Byte) (stop dpos n : Nat) :
    (regionAt bytes stop dpos).drop n = regionAt bytes stop (dpos + n) := List.drop_drop

/-- R166: bytes that stand at `dpos` before the end of the region leave the bytes behind them. -/
theorem regionAt_of_append (h : regionAt bytes stop dpos = w ++ rest) : regionAt bytes stop (dpos + w.length) = rest := by
  rw [← drop_regionAt, h, List.drop_left]

/-- R166: bytes that stand at `dpos` before the end of the region end inside it. -/
theorem regionAt_fits (h : regionAt bytes stop dpos = w ++ rest) (hw : w ≠ []) : dpos + w.length ≤ stop := by
  have hlen := congrArg List.length h
  have hpos := List.length_pos_iff.mpr hw
  rw [regionAt, List.length_drop, List.length_take, List.length_append] at hlen
  omega

/-- R166: the region at its end, or behind it, has no bytes. -/
theorem regionAt_end (h : stop ≤ dpos) : regionAt bytes stop dpos = [] :=
  List.drop_eq_nil_of_le (by rw [List.length_take]; omega)

/-- R171 to R179: the decoder reads a word that stands at `dpos`, whole. -/
theorem WordForm.wordAt {subs : List SubCmd} (h : WordForm cfg d w subs) (hr : regionAt bytes stop dpos = w ++ rest) :
    ∃ sc, wordAt cfg d bytes stop dpos = .ok (sc, w.length) ∧ sc.toList = subs := by
  have read {i : Nat} {b : Byte} (hb : (w ++ rest)[i]? = some b) : rd bytes stop (dpos + i) = .ok b :=
    rd_of_regionAt (hr ▸ hb)
  have read_id {id : Byte} (hb : (w ++ rest)[0]? = some id) : rd bytes stop dpos = .ok id := read hb
  cases h with
  | long x n content hn =>
    have hfit := regionAt_fits hr (List.cons_ne_nil _ _)
    rw [List.length_cons, hn] at hfit ⊢
    refine ⟨none, ?_, rfl⟩
    rw [wordAt_long (read_id rfl) (isLongForm_packLong x n), longLength_packLong, if_pos (by omega), Nat.add_comm]
  | one id g hl hs => exact ⟨_, wordAt_one (read_id rfl) hl hs (read rfl), rfl⟩
  | two id g x hl hs => exact ⟨_, wordAt_two (read_id rfl) hl hs (read rfl) (read rfl), rfl⟩

/-- R76, R85: a long-form id has the fields of its LONG word. -/
theorem packLong_fields {id : Byte} (h : isLongForm id = true) :
    packLong (id.extractLsb' 5 2) (id.extractLsb' 0 5) = id := by
  apply BitVec.eq_of_toNat_eq
  have hge := (isLongForm_iff id).mp h
  have hlt := id.isLt
  rw [toNat_packLong, BitVec.extractLsb'_toNat, BitVec.extractLsb'_toNat, Nat.shiftRight_eq_div_pow]
  omega

/-- R166: a read inside the region takes the byte at the front of its bytes. -/
theorem regionAt_eq_cons {b : Byte} (h : rd bytes stop dpos = .ok b) :
    regionAt bytes stop dpos = b :: regionAt bytes stop (dpos + 1) := by
  obtain ⟨hlt, hb⟩ := (rd_eq_ok _ _ _ _).mp h
  have htake : (bytes.take stop)[dpos]? = some b := by rw [List.getElem?_take_of_lt hlt, hb]
  obtain ⟨hlen, rfl⟩ := List.getElem?_eq_some_iff.mp htake
  exact List.drop_eq_getElem_cons hlen

/-- R171: a LONG word that ends inside the region stands at `dpos` with its content. -/
theorem exists_long_of_rd {id : Byte} (hstop : stop ≤ bytes.length) (hid : rd bytes stop dpos = .ok id)
    (hl : isLongForm id = true) (hfit : dpos + 1 + longLength id ≤ stop) :
    ∃ w, WordForm cfg d w [] ∧ regionAt bytes stop dpos = w ++ regionAt bytes stop (dpos + (1 + longLength id)) := by
  have hlen : (regionAt bytes stop (dpos + 1)).length = stop - (dpos + 1) := by
    rw [regionAt, List.length_drop, List.length_take, Nat.min_eq_left hstop]
  refine ⟨id :: (regionAt bytes stop (dpos + 1)).take (longLength id), ?_, ?_⟩
  · rw [← packLong_fields hl]
    refine .long _ _ _ ?_
    rw [packLong_fields hl, List.length_take, hlen]
    exact Nat.min_eq_left (by omega)
  · rw [regionAt_eq_cons hid, List.cons_append, ← Nat.add_assoc, ← drop_regionAt bytes stop (dpos + 1),
      List.take_append_drop]

/-- R171 to R179: what the decoder reads at `dpos` is a word that stands there. -/
theorem exists_wordForm_of_wordAt {sc : Option SubCmd} {len : Nat} (hstop : stop ≤ bytes.length)
    (h : wordAt cfg d bytes stop dpos = .ok (sc, len)) :
    ∃ w, WordForm cfg d w sc.toList ∧ regionAt bytes stop dpos = w ++ regionAt bytes stop (dpos + len) := by
  have hlt : dpos < stop := by
    have := wordAt_fits _ _ _ _ _ _ _ h
    omega
  have hid := rd_of_lt hstop hlt
  cases hl : isLongForm (bytes.getD dpos 0) with
  | true =>
    rw [wordAt_long hid hl] at h
    split_ifs at h with hfit
    cases h
    exact exists_long_of_rd hstop hid hl hfit
  | false =>
    cases hs : shortForm cfg d (bytes.getD dpos 0) with
    | none => rw [wordAt_unknown hid hl hs] at h; cases h
    | some k =>
      have hfit : dpos + 1 + k ≤ stop := by
        by_contra hpast
        rw [wordAt_truncated hid hl hs (by omega)] at h
        cases h
      rcases shortForm_eq_one_or_two hs with rfl | rfl
      · have hg := rd_of_lt hstop (show dpos + 1 < stop by omega)
        rw [wordAt_one hid hl hs hg] at h
        cases h
        exact ⟨_, .one _ _ hl hs, by rw [regionAt_eq_cons hid, regionAt_eq_cons hg]; rfl⟩
      · have hg := rd_of_lt hstop (show dpos + 1 < stop by omega)
        have hx := rd_of_lt hstop (show dpos + 2 < stop by omega)
        rw [wordAt_two hid hl hs hg hx] at h
        cases h
        exact ⟨_, .two _ _ _ hl hs, by rw [regionAt_eq_cons hid, regionAt_eq_cons hg, regionAt_eq_cons hx]; rfl⟩

end Word

/-! ### A region of words (R167, R180) -/

section Region

variable {cfg : Config} {d : Domain} {bytes : List Byte} {stop dpos : Nat}

/-- R167, R180: a region of words one behind another decodes to what they yield, by induction on the words. -/
theorem decodeSubs_of_words {α : Type} {enc : α → List Byte} {yield : α → List SubCmd} {xs : List α}
    (hx : ∀ x ∈ xs, WordForm cfg d (enc x) (yield x)) (hstop : stop ≤ bytes.length)
    (hr : regionAt bytes stop dpos = xs.flatMap enc) :
    decodeSubs cfg d bytes dpos stop = .ok (xs.flatMap yield) := by
  induction xs generalizing dpos with
  | nil =>
    have hend : stop ≤ dpos := by
      have hlen := congrArg List.length hr
      rw [regionAt, List.length_drop, List.length_take, List.flatMap_nil, List.length_nil] at hlen
      omega
    exact decodeSubs_end _ _ _ _ _ hend
  | cons x xs ih =>
    obtain ⟨hword, hwords⟩ := List.forall_mem_cons.mp hx
    rw [List.flatMap_cons] at hr ⊢
    obtain ⟨sc, hread, hyield⟩ := hword.wordAt hr
    have hfit := wordAt_fits _ _ _ _ _ _ _ hread
    rw [decodeSubs_of_wordAt (by omega) hread, ih hwords (regionAt_of_append hr), hyield]
    rfl

/-- R167, R180: a region that decodes is a sequence of rows' words, by induction on the bytes that are left of it. -/
theorem exists_words_of_decodeSubs (hstop : stop ≤ bytes.length) (dpos : Nat) {subs : List SubCmd}
    (h : decodeSubs cfg d bytes dpos stop = .ok subs) :
    ∃ ws : List Instr, (∀ i ∈ ws, IsWordRow cfg d i) ∧
      regionAt bytes stop dpos = ws.flatMap (fun i => (encode cfg i).getD []) ∧ subs = ws.flatMap (wordYield cfg) := by
  by_cases hend : stop ≤ dpos
  · rw [decodeSubs_end _ _ _ _ _ hend] at h
    cases h
    exact ⟨[], List.forall_mem_nil _, regionAt_end hend, rfl⟩
  · have hlt : dpos < stop := by omega
    cases hword : wordAt cfg d bytes stop dpos with
    | error e => rw [decodeSubs_of_wordAt_error hlt hword] at h; cases h
    | ok word =>
      obtain ⟨sc, len⟩ := word
      have hfit := wordAt_fits _ _ _ _ _ _ _ hword
      rw [decodeSubs_of_wordAt hlt hword] at h
      cases hlater : decodeSubs cfg d bytes (dpos + len) stop with
      | error e => rw [hlater] at h; cases h
      | ok later =>
        rw [hlater] at h
        cases h
        obtain ⟨w, hform, hr⟩ := exists_wordForm_of_wordAt hstop hword
        obtain ⟨i, hi, rfl, hyield⟩ := hform.exists_row
        obtain ⟨ws, hws, hrest, rfl⟩ := exists_words_of_decodeSubs hstop (dpos + len) hlater
        refine ⟨i :: ws, List.forall_mem_cons.mpr ⟨hi, hws⟩, ?_, ?_⟩
        · rw [hr, hrest, List.flatMap_cons]
        · rw [← hyield, List.flatMap_cons]
termination_by stop - dpos
decreasing_by omega

end Region

/-! ### The operations (R180, R184, R204) -/

/-- R204: `TRY_PARSE` of a located frame of a bound address returns what its command region decodes to. -/
theorem exec_tryParse_of_located {s : State} {d : Domain} {bytes : List Byte} {length off : Nat} {app : Byte} {m f : Bool}
    (hm : s.mapFault = false) (hlen : length ≤ bytes.length) (hloc : locateApp s.cfg bytes length m f = .ok (app, off))
    (hd : s.domainAt app = some d) :
    exec (.tryParse bytes length m f) s =
      .next (s.shareMap.ret (decodedBehind d [] (decodeSubs s.cfg d bytes off (length - 1)))) := by
  have hparse : tryParse s bytes length m f = dispatchApp s bytes (length - 1) (app, off) := by
    rw [tryParse, hloc]
    rfl
  simp only [exec, execTryParse, parseRefusal, hm, Nat.not_lt.mpr hlen, lookupBytes, hparse, dispatchApp, hd,
    Bool.false_eq_true, if_false]
  cases decodeSubs s.cfg d bytes off (length - 1) <;> rfl

/-- Settles O30: the region of words decodes to what they yield, and a region that decodes is one of words. -/
theorem regionIsASequenceOfWords : Obligations.RegionIsASequenceOfWords := by
  intro s d bytes length off app m f hc hm hlen hloc hd
  have hstop : length - 1 ≤ bytes.length := by omega
  rw [exec_tryParse_of_located hm hlen hloc hd]
  refine ⟨fun ws hws hr => ⟨_, rfl, ?_⟩, fun t c ht hres => ?_⟩
  · rw [decodeSubs_of_words (fun i hi => IsWordRow.wordForm hc (hws i hi)) hstop hr]
    rfl
  · cases ht
    cases hsubs : decodeSubs s.cfg d bytes off (length - 1) with
    | error e => rw [hsubs] at hres; cases hres
    | ok subs =>
      rw [hsubs] at hres
      cases hres
      obtain ⟨ws, hws, hr, rfl⟩ := exists_words_of_decodeSubs hstop off hsubs
      exact ⟨ws, hws, hr, rfl⟩

/-- R181: the bytes of a frame before its checksum byte are its body. -/
theorem take_withChecksum (body : List Byte) : (withChecksum body).take ((withChecksum body).length - 1) = body := by
  rw [withChecksum_length, Nat.add_sub_cancel, withChecksum, List.take_left]

/-- R161, R181: a frame that `SAL_ENCODE` writes names its application at byte 1, and its region begins at byte 3. -/
theorem locateApp_salFrame (cfg : Config) (priority : BitVec 2) (app : Byte) (subs : List SubCmd) (f : Bool) :
    locateApp cfg (salFrame priority app subs) (salFrame priority app subs).length false f = .ok (app, 3) := by
  have hlong : 3 ≤ (salFrame priority app subs).length - 1 := by simp [salBody]
  rw [locateApp_of_header f (take_withChecksum (salBody priority app subs)), headerEncode, headerDecode_packHeader]
  exact (locateNoAddr_eq (Nat.sub_le _ _)).trans (if_pos hlong)

/-- R184: the frame's region holds the serialised sub-commands and decodes to them. -/
theorem decodeSubs_salFrame {cfg : Config} {d : Domain} (priority : BitVec 2) (app : Byte) {subs : List SubCmd}
    (h : SubsWf cfg d subs) :
    decodeSubs cfg d (salFrame priority app subs) 3 ((salFrame priority app subs).length - 1) = .ok subs := by
  have hr : regionAt (salFrame priority app subs) ((salFrame priority app subs).length - 1) 3 =
      subs.flatMap serialize := by
    rw [regionAt, take_withChecksum]
    rfl
  rw [decodeSubs_of_words (fun sc hsc => wordForm_serialize (h sc hsc)) (Nat.sub_le _ _) hr, List.flatMap_singleton']

/-- R142: the checksum of a frame with its checksum byte is 0. -/
theorem checksum8_withChecksum (body : List Byte) : checksum8 (withChecksum body) = 0 :=
  (checksum8_concat_eq_zero_iff body _).mpr rfl

/-- Settles O40: `TRY_PARSE` locates the frame that was written and decodes its region. -/
theorem salRoundTrip : Obligations.SalRoundTrip := by
  intro s t d priority app subs f henc hbytes hm hd
  obtain ⟨hwf, rfl⟩ := exec_salEncode_bytes henc hbytes
  rw [State.produceBytes_outBytes]
  refine ⟨⟨_, exec_tryParse_of_located hm le_rfl (locateApp_salFrame s.cfg priority app subs f) hd, ?_⟩, ?_⟩
  · rw [State.produceBytes_cfg, decodeSubs_salFrame priority app hwf]
    rfl
  · rw [exec_checksum_length, checksum8_withChecksum]

end Sys2Proof.Machine
end

section
/-! PROOFS. The router: `TRY_PARSE` (O31, O32) and its header rows where it is stepped (O23), the byte that it never reads
(O33), `DECODE_FRAME` as `TRY_PARSE` (O34), and `ADD_MAPPING` (O35). -/

namespace Sys2Proof.Machine

/-! ### `TRY_PARSE` (R204, R205, R209) -/

/-- R204: `TRY_PARSE` of a length that the bytes have, in a map that is not halted, is the lookup from its bytes. -/
theorem exec_tryParse_of_le {s : State} {bytes : List Byte} {length : Nat} (m f : Bool) (hm : s.mapFault = false)
    (hlen : length ≤ bytes.length) : exec (.tryParse bytes length m f) s = .next (lookupBytes bytes length m f s) := by
  have hr : parseRefusal bytes length s = none := by simp [parseRefusal, hm, Nat.not_lt.mpr hlen]
  rw [exec, execTryParse, hr]

/-- R204: the outcome of a lookup from bytes. -/
@[simp] theorem lookupBytes_result (bytes : List Byte) (length : Nat) (m f : Bool) (s : State) :
    (lookupBytes bytes length m f s).result = salResult (tryParse s bytes length m f) := rfl

/-- Settles O31: the location, the lookup and the decode, each with its failure; the frame is that of `lookupBytes`. -/
theorem tryParseResult : Obligations.TryParseResult := by
  intro s bytes length m f hm hlen
  refine ⟨_, exec_tryParse_of_le m f hm hlen, rfl, ?_⟩
  rw [lookupBytes_result, tryParse]
  cases locateApp s.cfg bytes length m f with
  | error e => rfl
  | ok loc =>
    change salResult (dispatchApp s bytes (length - 1) loc) = _
    rw [dispatchApp]
    dsimp only
    cases s.domainAt loc.1 with
    | none => rfl
    | some d =>
      dsimp only
      cases decodeSubs s.cfg d bytes loc.2 (length - 1) <;> rfl

/-- R204, R209: a command that `TRY_PARSE` answers is of a domain that some address is bound to. -/
theorem exists_domainAt_of_exec_tryParse_sal {s t : State} {bytes : List Byte} {length : Nat} {m f : Bool}
    {c : SalCommand} (h : exec (.tryParse bytes length m f) s = .next t) (hc : t.result = .sal c) :
    ∃ a, s.domainAt a = some c.domain := by
  obtain ⟨hm, hlen, -⟩ := execTryParse_next h
  obtain ⟨t', ht', -, hres⟩ := tryParseResult s bytes length m f hm hlen
  cases h.symm.trans ht'
  rw [hc] at hres
  split at hres
  · cases hres
  · next loc _ =>
    split at hres
    · cases hres
    · next d hd =>
      split at hres <;> cases hres
      exact ⟨loc.1, hd⟩

/-- Settles O32: what is decoded is bound, and without a binding the result of O31 is the absent one. -/
theorem resetMapDecodesNothing : Obligations.ResetMapDecodesNothing := by
  refine ⟨fun s t bytes length m f d c hfree h hc hd => ?_, fun _ => rfl, fun s bytes length m f hfree hm hlen => ?_⟩
  · obtain ⟨a, ha⟩ := exists_domainAt_of_exec_tryParse_sal h hc
    exact hfree a (hd ▸ ha)
  · obtain ⟨t, ht, -, hres⟩ := tryParseResult s bytes length m f hm hlen
    refine ⟨t, ht, hres.trans ?_⟩
    simp only [hfree]
    split <;> rfl

/-! ### The header rows where `TRY_PARSE` is stepped (R84, R204, R205) -/

/-- R204: where `TRY_PARSE` has a header byte next, the step is the one that executes the byte's row. -/
theorem step_eq_exec_of_parsing {s : State} {i : Instr} {h : Byte} {bytes : List Byte} {length : Nat}
    (hc : configLegal s.cfg = true) (hu : s.unit = .parsing bytes length) (hm : s.mapFault = false) (hlen : 2 ≤ length)
    (hh : bytes[0]? = some h) (hi : headerByteOf s.cfg i = some h) : step s = exec i s := by
  have hfront : bytes.take (length - 1) = h :: regionAt bytes (length - 1) 1 :=
    regionAt_eq_cons (dpos := 0) ((rd_eq_ok _ _ _ _).mpr ⟨by omega, hh⟩)
  have hrow : decodeIn s.cfg .header (bytes.take (length - 1)) = .ok i := by
    rw [hfront, ← decodeHeaderByte_headerByteOf hc hi]
    rfl
  exact step_of_fetch_run _ _ _ hc (fetchNext_parsing hu hm hrow)

/-- Settles O23: the row's step goes on behind the location; the lookup there is not affected by the map's mark. -/
theorem headerRowsParse : Obligations.HeaderRowsParse := by
  intro s i h bytes length f hc hu hm hlen hh hi
  rw [← step_eq_exec_of_parsing hc hu hm hlen hh hi, step_parsing f hc hu hm]
  cases locateApp s.cfg bytes length false f with
  | error e => rfl
  | ok loc =>
    rw [State.afterLocation, routeTo, State.shareMap_domainAt]
    dsimp only
    cases s.domainAt loc.1 <;> rfl

/-! ### The byte that is never read (R166, R207) -/

section Region

variable {xs ys : List Byte} {stop : Nat}

/-- R166: bounded reads see the bytes before the end of the region only. -/
theorem rd_congr (h : xs.take stop = ys.take stop) : rd xs stop = rd ys stop := by
  funext i
  rw [← Nat.zero_add i, rd_eq_regionAt, rd_eq_regionAt, regionAt, regionAt, h]

/-- R160 to R165: a location is made of bounded reads. -/
theorem locateApp_congr (cfg : Config) {length : Nat} (m f : Bool) (h : rd xs (length - 1) = rd ys (length - 1)) :
    locateApp cfg xs length m f = locateApp cfg ys length m f := by
  have hlocal (t : AddrType) : locateLocal cfg t xs (length - 1) = locateLocal cfg t ys (length - 1) := by
    cases t <;> simp only [locateLocal, locateNoAddr, locateTwoByte, h]
  cases m with
  | false => simp only [locateApp_local, h, hlocal]
  | true => simp only [locateApp_monitored, locateMonitoredLong, locateMonitoredShort, h]

/-- R167: the decode loop reads its words by bounded reads, by induction on the words. -/
theorem decodeSubsLoop_congr (cfg : Config) (d : Domain) (h : rd xs stop = rd ys stop) (fuel dpos : Nat) :
    decodeSubsLoop cfg d xs stop fuel dpos = decodeSubsLoop cfg d ys stop fuel dpos := by
  induction fuel generalizing dpos with
  | zero => rfl
  | succ fuel ih => simp only [decodeSubsLoop, wordAt, h, ih]

/-- R204, R207: a frame is located and decoded by the bytes before its checksum byte. -/
theorem tryParse_congr (s : State) {length : Nat} (m f : Bool) (h : xs.take (length - 1) = ys.take (length - 1)) :
    tryParse s xs length m f = tryParse s ys length m f := by
  have hrd := rd_congr h
  simp only [tryParse, dispatchApp, decodeSubs, locateApp_congr s.cfg m f hrd, decodeSubsLoop_congr s.cfg _ hrd]

end Region

/-- R207: frames that differ in their last byte alone decode alike. -/
theorem tryParse_concat (s : State) (bytes : List Byte) (x y : Byte) (m f : Bool) :
    tryParse s (bytes ++ [x]) (bytes.length + 1) m f = tryParse s (bytes ++ [y]) (bytes.length + 1) m f :=
  tryParse_congr s m f (by rw [Nat.add_sub_cancel, List.take_left, List.take_left])

/-- R206: the result of `DECODE_FRAME` on a ParserState just written, from that ParserState. -/
theorem exec_decodeFrame_setParser_result {s t : State} {ps : Nat} {p : ParserState} {f : Bool}
    (h : exec (.decodeFrame ps f) (s.setParser ps p) = .next t) :
    t.result = salResult (tryParse s p.buf p.buf.length p.monitored f) := by
  obtain ⟨-, -, -, rfl⟩ := execDecodeFrame_next h
  rw [State.parser_setParser]
  rfl

/-- Settles O33: both operations answer by `TRY_PARSE` as a function, which decodes the two frames alike. -/
theorem checksumByteIsNotExamined : Obligations.ChecksumByteIsNotExamined := by
  refine fun s bytes x y => ⟨fun m f => ?_, fun ps p f t u ht hu => ?_⟩
  · simp only [exec, execTryParse, parseRefusal, lookupBytes, List.length_append, List.length_singleton,
      tryParse_concat s bytes x y]
  · rw [exec_decodeFrame_setParser_result ht, exec_decodeFrame_setParser_result hu]
    simp only [List.length_append, List.length_singleton]
    rw [tryParse_concat s bytes x y]
    rfl

/-! ### `DECODE_FRAME` (R206) -/

/-- R206: the classifications that come with a frame to decode. -/
theorem Cls.hasFrame_iff (c : Cls) : c.hasFrame = true ↔ c = .salReceived ∨ c = .monitoredSalReceived := by
  cases c <;> decide

section DecodeFrame

variable {s : State} {ps : Nat} (f : Bool)

/-- R206: with a frame to decode, `DECODE_FRAME` is the lookup from the bytes of its ParserState. -/
theorem exec_decodeFrame_of_frame (hm : s.mapFault = false) (hb : s.parserBusy ps = false)
    (hf : (s.parser ps).cls.hasFrame = true) :
    exec (.decodeFrame ps f) s =
      .next (lookupBytes (s.parser ps).buf (s.parser ps).len (s.parser ps).monitored f s) := by
  have hr : frameRefusal ps s = none := by simp [frameRefusal, hm, hb, hf]
  rw [exec, execDecodeFrame, hr]

/-- R206: without one it is refused. -/
theorem exec_decodeFrame_of_no_frame (hm : s.mapFault = false) (hb : s.parserBusy ps = false)
    (hf : (s.parser ps).cls.hasFrame = false) : exec (.decodeFrame ps f) s = .refused .noSalFrame := by
  have hr : frameRefusal ps s = some .noSalFrame := by simp [frameRefusal, hm, hb, hf]
  rw [exec, execDecodeFrame, hr]

end DecodeFrame

/-- Settles O34: `DECODE_FRAME` and `TRY_PARSE` are the same lookup from the bytes of the ParserState. -/
theorem decodeFrameIsTryParse : Obligations.DecodeFrameIsTryParse := by
  refine fun s ps f hm hb => ⟨fun hcls => ?_, fun hcls => ?_⟩
  · have hlookup := exec_decodeFrame_of_frame f hm hb ((Cls.hasFrame_iff _).mpr hcls)
    exact ⟨⟨_, hlookup⟩, hlookup.trans (exec_tryParse_of_le _ f hm le_rfl).symm⟩
  · refine exec_decodeFrame_of_no_frame f hm hb (Bool.eq_false_iff.mpr fun hf => ?_)
    exact ((Cls.hasFrame_iff _).mp hf).elim hcls.1 hcls.2

/-! ### `ADD_MAPPING` (R201 to R203) -/

/-- R201: the map after a binding, address by address. -/
theorem State.domainAt_bindAddress_eq_ite {s : State} (hw : Memory.wf none s.map) (a x : Byte) (d : Domain) :
    (s.bindAddress a d).domainAt x = if x = a then some d else s.domainAt x := by
  by_cases hx : x = a
  · rw [if_pos hx, hx, State.domainAt_bindAddress]
  · rw [if_neg hx, State.domainAt_bindAddress_other s a x d hw hx]

section Setup

variable {s : State} {d : Domain} {a : Byte}

/-- R201: in the Setup phase `ADD_MAPPING` binds an unbound address. -/
theorem exec_addMapping_unbound (hf : s.mapFault = false) (hs : s.mapShared = false) (hb : s.routerBusy = false)
    (ha : s.domainAt a = none) : exec (.addMapping d a) s = .next ((s.bindAddress a d).ret .ok) := by
  simp [exec, execAddMapping, hf, hs, hb, ha]

/-- R202: in the Setup phase `ADD_MAPPING` leaves an address that is bound to the same domain. -/
theorem exec_addMapping_bound (hf : s.mapFault = false) (hs : s.mapShared = false) (hb : s.routerBusy = false)
    (ha : s.domainAt a = some d) : exec (.addMapping d a) s = .next (s.ret .ok) := by
  simp [exec, execAddMapping, hf, hs, hb, ha]

end Setup

/-- Settles O35: the refusal, and the three answers of the Setup phase. -/
theorem addMappingResult : Obligations.AddMappingResult := by
  intro s d a hinv
  refine ⟨fun hf => ?_, fun hf hs hb => ⟨fun ha => ?_, exec_addMapping_bound hf hs hb,
    fun e he hne => exec_addMapping_conflict hf hs hb he hne⟩⟩
  · obtain ⟨hadd, -⟩ := exec_map_operations_refused hf
    exact hadd d a
  · exact ⟨_, exec_addMapping_unbound hf hs hb ha, rfl, fun x => State.domainAt_bindAddress_eq_ite hinv.mapWf a x d⟩

end Sys2Proof.Machine
end

section
/-! PROOFS. `RESET_ENCODE` and `CAL_ENCODE` (O41): the bytes of a CAL command, and the operations that answer them whole. -/

namespace Sys2Proof.Machine

/-! ### The bytes of a CAL command (R216, R217) -/

/-- R217: without its checksum a CAL command is its four body bytes. -/
theorem calEncode_without_checksum (id v : Byte) :
    calEncode { parameterId := id, parameterValue := v, includeChecksum := false } = [0xA3, id, 0x00, v] := rfl

/-- R216: the checksum byte covers the four body bytes before it. -/
theorem calEncode_with_checksum (id v : Byte) :
    calEncode { parameterId := id, parameterValue := v, includeChecksum := true } =
      [0xA3, id, 0x00, v, checksum8 [0xA3, id, 0x00, v]] := rfl

/-! ### The operations (R50, R53, R215, R216) -/

section Fits

variable {s : State}

/-- R215: `RESET_ENCODE` answers its one character, if that fits the output buffer. -/
theorem exec_resetEncode_of_fits (h : fitsTx s.cfg 1 = true) :
    exec .resetEncode s = .next (s.produceText [s.cfg.chReset]) :=
  answerText_of_fits (cs := resetEncode s.cfg) h

/-- R216: `CAL_ENCODE` answers the bytes of its command, if they fit the output buffer. -/
theorem exec_calEncode_of_fits {cal : CalCommand} (h : fitsTx s.cfg (calEncode cal).length = true) :
    exec (.calEncode cal) s = .next (s.produceBytes (calEncode cal)) := answerBytes_of_fits h

end Fits

/-- Settles O41: each operation answers its output whole, and a CAL command is its body with or without the checksum. -/
theorem calAndResetEncodeResults : Obligations.CalAndResetEncodeResults := by
  refine fun s => ⟨exec_resetEncode_of_fits, fun id v h => ?_, fun id v h => ?_⟩
  · rw [exec_calEncode_of_fits h, calEncode_without_checksum]
  · rw [exec_calEncode_of_fits h, calEncode_with_checksum]

end Sys2Proof.Machine
end

section
/-! PROOFS. Outbound framing: hex texts and how they read back (O42), the frame texts (O43), and what the framer makes of
them when they are fed back to it (O11). -/

namespace Sys2Proof.Machine

/-! ### Hex texts (R225) -/

/-- R225: the character of a nibble is a digit up to 9 and an upper-case letter above. -/
theorem toNat_hexchar (v : Nibble) :
    (hexchar v).toNat = if v.toNat ≤ 9 then 0x30 + v.toNat else 0x41 + (v.toNat - 10) := by
  revert v
  decide

/-- R71, R225: every `Config` reads the character of a nibble back. -/
theorem hexval_hexchar (cfg : Config) (v : Nibble) : hexval cfg (hexchar v) = some v := by
  rw [hexDigitValues, toNat_hexchar]
  split_ifs with hdigit
  · exact .inl ⟨hdigit, rfl⟩
  · exact .inr (.inl ⟨Nat.lt_of_not_le hdigit, rfl⟩)

/-- R225: the character of a nibble is `0` to `9` or `A` to `F`. -/
theorem hexchar_range (v : Nibble) :
    (0x30 ≤ (hexchar v).toNat ∧ (hexchar v).toNat ≤ 0x39) ∨ (0x41 ≤ (hexchar v).toNat ∧ (hexchar v).toNat ≤ 0x46) := by
  have hv := v.isLt
  rw [toNat_hexchar]
  split_ifs <;> omega

/-- R75, R225: the two nibbles of a byte form it again. -/
theorem ofNat_highNibble_lowNibble (b : Byte) :
    BitVec.ofNat 8 (16 * (highNibble b).toNat + (lowNibble b).toNat) = b := by
  apply BitVec.eq_of_toNat_eq
  have hb := b.isLt
  rw [BitVec.toNat_ofNat, highNibble, lowNibble, BitVec.extractLsb'_toNat, BitVec.extractLsb'_toNat,
    Nat.shiftRight_eq_div_pow, Nat.shiftRight_zero]
  omega

/-- R225: the text of a byte stands before the text of the bytes behind it, high nibble first. -/
theorem hexEncode_cons (b : Byte) (bs : List Byte) :
    hexEncode (b :: bs) = hexchar (highNibble b) :: hexchar (lowNibble b) :: hexEncode bs := rfl

/-- R75, R225: every `Config` reads a hex text back as its bytes. -/
theorem hexPairs_hexEncode (cfg : Config) (bytes : List Byte) : hexPairs cfg (hexEncode bytes) = some bytes := by
  induction bytes with
  | nil => rfl
  | cons b bs ih =>
    rw [hexEncode_cons, hexPairs, hexval_hexchar, hexval_hexchar, ih]
    simp only [ofNat_highNibble_lowNibble]

/-- R225: a hex text consists of characters of nibbles. -/
theorem eq_hexchar_of_mem_hexEncode {bytes : List Byte} {c : Byte} (h : c ∈ hexEncode bytes) : ∃ v, c = hexchar v := by
  obtain ⟨b, -, hc⟩ := List.mem_flatMap.mp h
  rcases List.mem_pair.mp hc with rfl | rfl
  · exact ⟨_, rfl⟩
  · exact ⟨_, rfl⟩

/-- Settles O42: the output is the hex text of the bytes, which is made of characters of nibbles. -/
theorem hexEncodeReadsBack : Obligations.HexEncodeReadsBack := by
  intro s bytes hfits
  refine ⟨hexEncode bytes, answerText_of_fits (by rwa [hexEncode_length]), hexEncode_length bytes,
    fun cfg => hexPairs_hexEncode cfg bytes, fun c hc => ?_⟩
  obtain ⟨v, rfl⟩ := eq_hexchar_of_mem_hexEncode hc
  exact hexchar_range v

/-! ### Frame texts (R226, R228) -/

/-- R226: a SAL frame text without an acknowledgement-request character. -/
theorem salFrameText_none (cfg : Config) (bytes : List Byte) :
    salFrameText cfg bytes none = cfg.chStx :: (hexEncode bytes ++ [chCr]) := by
  simp [salFrameText]

/-- R226: the acknowledgement-request character stands before the terminator. -/
theorem salFrameText_some (cfg : Config) (bytes : List Byte) (a : Byte) :
    salFrameText cfg bytes (some a) = cfg.chStx :: (hexEncode bytes ++ [a, chCr]) := by
  simp [salFrameText]

/-- R228: a CAL frame text begins with the direct-access character. -/
theorem calFrameText_eq (cfg : Config) (cal : CalCommand) :
    calFrameText cfg cal = cfg.chDirect :: (hexEncode (calEncode cal) ++ [chCr]) := rfl

/-- R226: `SAL_FRAME_TEXT` answers its text whole, if that fits the output buffer. -/
theorem exec_salFrameText_of_fits {s : State} {bytes : List Byte} {a : Option Byte}
    (h : fitsTx s.cfg (2 * bytes.length + a.toList.length + 2) = true) :
    exec (.salFrameText bytes a) s = .next (s.produceText (salFrameText s.cfg bytes a)) :=
  answerText_of_fits (by rwa [salFrameText_length])

/-- R228: `CAL_FRAME_TEXT` answers its text whole, if that fits the output buffer. -/
theorem exec_calFrameText_of_fits {s : State} {cal : CalCommand}
    (h : fitsTx s.cfg (2 * (calEncode cal).length + 2) = true) :
    exec (.calFrameText cal) s = .next (s.produceText (calFrameText s.cfg cal)) :=
  answerText_of_fits (by rwa [calFrameText_length])

/-- Settles O43: each operation answers its text whole, and the texts by their parts. -/
theorem frameTexts : Obligations.FrameTexts := by
  refine fun s => ⟨fun bytes h => ?_, fun bytes a h => ?_, fun cal h => ?_⟩
  · rw [exec_salFrameText_of_fits h, salFrameText_none]
  · rw [exec_salFrameText_of_fits h, salFrameText_some]
  · rw [exec_calFrameText_of_fits h, calFrameText_eq]

/-! ### The texts fed back to the framer (R230) -/

/-- R74, R226: without an acknowledgement request, a SAL frame text is a text of the inbound grammar. -/
theorem salText_salFrameText (cfg : Config) {b : List Byte} (hne : b ≠ []) : SalText cfg (salFrameText cfg b none) b :=
  ⟨hne, hexEncode b, hexPairs_hexEncode cfg b, .inr (salFrameText_none cfg b)⟩

/-- R230: up to the last hex digit, a SAL frame text leads to its bytes in phase ExpectHighNibble. -/
theorem consumes_chStx_hexEncode {cfg : Config} {b : List Byte} {p : ParserState} (hc : configLegal cfg = true)
    (hp : p.phase = .idle ∨ p.phase = .complete) (hne : b ≠ []) (hfit : b.length ≤ cfg.cap) :
    ∃ prev, Consumes cfg (cfg.chStx :: hexEncode b) p (frameSoFar .expectHighNibble b prev) := by
  obtain ⟨v, prev, hv, hrun⟩ := consumes_salText hc hp (salText_salFrameText cfg hne) hfit
  rw [salFrameText_none, ← List.cons_append] at hv
  exact ⟨prev, List.append_cancel_right hv ▸ hrun⟩

/-- R102: a character that begins no frame leaves phase Idle or Complete for AckPending. -/
theorem framerStep_idle_other {cfg : Config} {p : ParserState} {c : Byte} (hp : p.phase = .idle ∨ p.phase = .complete)
    (hstx : c ≠ cfg.chStx) (hx : hexval cfg c = none) : framerStep cfg p c = some (frameSoFar .ackPending [] c) := by
  rw [framerStep_idle hp, if_neg hstx, hx]
  rfl

/-- R109, R230: behind whole bytes an acknowledgement-request character discards the frame, and the terminator behind it
is left as the first character of an acknowledgement. -/
theorem consumes_request_chCr {cfg : Config} {a : Byte} (hx : hexval cfg a = none) (hcr : a ≠ chCr)
    (hstx : cfg.chStx ≠ chCr) (b : List Byte) (prev : Byte) :
    Consumes cfg [a, chCr] (frameSoFar .expectHighNibble b prev) (frameSoFar .ackPending [] chCr) := by
  have hdiscard : framerStep cfg (frameSoFar .expectHighNibble b prev) a = some (discarded a) := by
    rw [framerStep_expectHigh rfl, hx, if_neg (by simp), if_neg hcr]
  exact ⟨_, hdiscard, rfl, _, framerStep_idle_other (.inl rfl) hstx.symm (hexval_terminator cfg).1, rfl, rfl⟩

/-- R216, R225, R228: the first three characters of a CAL frame text are the same for every command. -/
theorem calFrameText_eq_cons (cfg : Config) (cal : CalCommand) :
    ∃ rest, calFrameText cfg cal = cfg.chDirect :: 0x41 :: 0x33 :: rest := by
  obtain ⟨body, hbody⟩ : ∃ body, calEncode cal = calPrefixByte :: body := by
    unfold calEncode
    split
    · exact ⟨_, rfl⟩
    · exact ⟨_, rfl⟩
  rw [calFrameText_eq, hbody, hexEncode_cons]
  exact ⟨hexEncode body ++ [chCr], rfl⟩

/-- R107, R230: the second character of a CAL frame text is no outcome code, and the third begins a frame. -/
theorem consumes_calStart {cfg : Config} {p : ParserState} (hc : configLegal cfg = true)
    (hp : p.phase = .idle ∨ p.phase = .complete) (hstx : cfg.chDirect ≠ cfg.chStx)
    (hx : hexval cfg cfg.chDirect = none) (ho : outcomeOf cfg 0x41 = none) :
    Consumes cfg [cfg.chDirect, 0x41, 0x33] p (frameSoFar .expectLowNibble [] 0x33) := by
  have hlost : framerStep cfg (frameSoFar .ackPending [] cfg.chDirect) 0x41 = some (discarded 0x41) := by
    rw [framerStep_ackPending rfl, ho]
  have hthree : (hexval cfg 0x33).isSome = true := by
    rw [show (0x33 : Byte) = hexchar 3 from rfl, hexval_hexchar]
    rfl
  exact ⟨_, framerStep_idle_other hp hstx hx, rfl, _, hlost, rfl, _, takesHighNibble_idle hc (.inl rfl) _ hthree, rfl, rfl⟩

/-- R113: a legal call on characters that complete nothing returns false at their end. -/
theorem exec_processChunk_of_consumes {s : State} {ps : Nat} {chars : List Byte} {length : Nat} {q : ParserState}
    (hl : ChunkCallLegal s ps chars length 0) (hw : Consumes s.cfg (chars.take length) (s.parser ps) q) :
    exec (.processChunk ps chars length 0) s = .next ((s.setParser ps q).ret (.chunk false length)) := by
  have hrun := processChunk_of_consumes (k := 0) (List.append_nil (chars.take length)).symm hw
  rw [Nat.zero_add, processChunk_end _ _ _ _ le_rfl, hl.length_take] at hrun
  exact exec_processChunk hl hrun

/-- Settles O11: a text without a request is one of the inbound grammar (O12); the other two complete nothing. -/
theorem loopBack : Obligations.LoopBack := by
  intro s ps hinv hc hbusy hp
  refine ⟨?received, ?discarded, ?misaligned⟩
  case received =>
    rintro b _ rfl hb hcap hfits
    have hne : b ≠ [] := List.length_pos_iff.mp hb
    rw [grammarIsDelivered s ps _ _ hinv hc ⟨hbusy, le_rfl, hfits, Nat.zero_le _⟩ hp
      (.inl ⟨b, salText_salFrameText s.cfg hne, rfl⟩) hcap, salFrameText_length]
    rfl
  case discarded =>
    rintro b _ a rfl hb hcap hfits hx hcr hstx
    obtain ⟨prev, hframe⟩ := consumes_chStx_hexEncode hc hp (List.length_pos_iff.mp hb) hcap
    have hrun := hframe.append (consumes_request_chCr hx hcr hstx b prev)
    rw [List.cons_append, ← salFrameText_some] at hrun
    rw [exec_processChunk_of_consumes ⟨hbusy, le_rfl, hfits, Nat.zero_le _⟩ (by rwa [List.take_length]),
      salFrameText_length]
    rfl
  case misaligned =>
    rintro cal _ rfl hfits hstx hx ho
    obtain ⟨rest, htext⟩ := calFrameText_eq_cons s.cfg cal
    rw [htext]
    exact exec_processChunk_of_consumes ⟨hbusy, Nat.le_add_left 3 _, hfits, Nat.zero_le _⟩
      (consumes_calStart hc hp hstx hx ho)

end Sys2Proof.Machine
end

section
/-! PROOFS. The resets: what `HW_RESET` leaves (O16), what `PS_RESET` leaves and what it alone can do (O15); and the block
with nothing to do (O53). -/

namespace Sys2Proof.Machine

/-! ### The idle block (R44, R260) -/

/-- R44: with no operation in progress and none invoked, a step finds the state as it is. -/
theorem fetchNext_of_nothing_invoked {s : State} (hu : s.unit = .idle) (hp : s.pending = []) :
    fetchNext s = .settle s := by
  simp only [fetchNext, hu, hp]

/-- Settles O53: the fetch finds the state as it is, and a legal `Config` lets the step answer it. -/
theorem idleBlockHoldsItsState : Obligations.IdleBlockHoldsItsState := fun s hc hu hp =>
  step_of_fetch_settle s s hc (fetchNext_of_nothing_invoked hu hp)

/-! ### `HW_RESET` (R42, R270) -/

/-- R20: in an empty store every ParserState reads as after reset. -/
theorem State.parser_of_empty {s : State} (h : s.parsers = []) (ps : Nat) : s.parser ps = .reset := by
  rw [State.parser, h, memGet]

/-- R35: in an empty map every address is unbound. -/
theorem State.domainAt_of_empty {s : State} (h : s.map = []) (a : Byte) : s.domainAt a = none := by
  rw [State.domainAt, h, memGet]

/-- R42, R270: where both stores are empty and `map_fault` is clear, the spec's state has its reset values. -/
theorem reset_values_of_empty {s : State} (hp : s.parsers = []) (hm : s.map = []) (hf : s.mapFault = false) :
    (∀ ps, (s.parser ps).phase = .idle ∧ (s.parser ps).buf = [] ∧ (s.parser ps).ack = none ∧
      (s.parser ps).cls = .none) ∧
    (∀ a, s.domainAt a = none) ∧ s.mapFault = false :=
  ⟨fun ps => by rw [State.parser_of_empty hp]; exact ⟨rfl, rfl, rfl, rfl⟩, State.domainAt_of_empty hm, hf⟩

/-- Settles O16: `HW_RESET` empties both stores and clears `map_fault`, and so they stand in the reset state. -/
theorem hwResetResetsAll : Obligations.HwResetResetsAll :=
  ⟨fun _ => ⟨_, rfl, reset_values_of_empty rfl rfl rfl⟩, reset_values_of_empty rfl rfl rfl⟩

/-! ### `PS_RESET` (R43, R271) -/

/-- R43: `PS_RESET` of a ParserState that no operation is in the middle of. -/
theorem exec_psReset {s : State} {ps : Nat} (hb : s.parserBusy ps = false) :
    exec (.psReset ps) s = .next ((s.setParser ps (resetParser (s.parser ps))).ret .done) := by
  simp [exec, execPsReset, hb]

/-- R21, R31: what an instruction that may write a ParserState is. -/
theorem mayWriteParser_cases {cfg : Config} {i : Instr} (h : mayWriteParser cfg i = true) :
    i = .hwReset ∨ (∃ ps, i = .psReset ps) ∨
    (∃ ps chars length cursor, i = .processChunk ps chars length cursor) ∨ ∃ c, charOf cfg i = some c := by
  unfold mayWriteParser at h
  split at h
  · exact .inl rfl
  · exact .inr (.inl ⟨_, rfl⟩)
  · exact .inr (.inr (.inl ⟨_, _, _, _, rfl⟩))
  · exact .inr (.inr (.inr (Option.isSome_iff_exists.mp h)))

/-- R21, R31: an instruction that may not write a ParserState leaves each as it reads. -/
theorem exec_keeps_parser {s t : State} {i : Instr} (h : exec i s = .next t) (hw : mayWriteParser s.cfg i = false)
    (ps : Nat) : t.parser ps = s.parser ps := by
  rw [State.parser, onlyTheFramerWritesParserStates s t i h hw, State.parser]

/-- R271: no `Step` takes `cls` back to None: a restart and a discard make it Pending, an end makes it terminal. -/
theorem framerStep_keeps_cls_ne_none {cfg : Config} {p q : ParserState} {c : Byte} (hp : p.cls ≠ .none)
    (h : framerStep cfg p c = some q) : q.cls ≠ .none := by
  cases framerStep_next h with
  | restartStx | restartHex | restartOther | discarded | acknowledged | terminated => exact nofun
  | notAcknowledged _ k hk => rcases hk with rfl | rfl | rfl | rfl <;> simp
  | highNibble | appended => exact hp

/-- R271: a turn of the chunk loop does not take `cls` back to None. -/
theorem consumeChar_keeps_cls_ne_none {cfg : Config} {chars : List Byte} {cursor k : Nat} {p q : ParserState} {c : Byte}
    {done : Bool} (hp : p.cls ≠ .none) (h : consumeChar cfg chars cursor p c = some (q, k, done)) : q.cls ≠ .none := by
  rcases consumeChar_cases _ _ _ _ _ _ _ _ h with ⟨hq, -⟩ | ⟨hq, -⟩ | ⟨_, -, -, -, rfl, -⟩
  · exact framerStep_keeps_cls_ne_none hp hq
  · exact framerStep_keeps_cls_ne_none hp hq
  · exact nofun

/-- R271, R113: a run of turns does not take `cls` back to None. -/
theorem ChunkRun.keeps_cls_ne_none {cfg : Config} {chars : List Byte} {cursor k : Nat} {p q : ParserState} {done : Bool}
    (h : ChunkRun cfg chars cursor p done k q) (hp : p.cls ≠ .none) : q.cls ≠ .none := by
  induction h with
  | atEnd => exact hp
  | returned _ h => exact consumeChar_keeps_cls_ne_none hp h
  | goesOn _ h _ _ ih => exact ih (framerStep_keeps_cls_ne_none hp h)

/-- R64: writing the ParserState `r` takes the `cls` of `ps` to None only if `r` is `ps` and the value written has it so. -/
theorem State.setParser_keeps_cls_ne_none {s : State} {r ps : Nat} {q : ParserState}
    (hwf : Memory.wf ParserState.reset s.parsers) (hps : (s.parser ps).cls ≠ .none) (hq : r = ps → q.cls ≠ .none) :
    ((s.setParser r q).parser ps).cls ≠ .none := by
  by_cases hr : r = ps
  · subst hr
    rw [State.parser_setParser]
    exact hq rfl
  · rw [State.parser_setParser_other s r ps q hwf (Ne.symm hr)]
    exact hps

/-- R271: no instruction but `PS_RESET` of it and `HW_RESET` takes the `cls` of a ParserState back to None. -/
theorem exec_keeps_cls_ne_none {s t : State} {i : Instr} {ps : Nat} (hinv : StateInv s) (h : exec i s = .next t)
    (hreset : i ≠ .hwReset) (hps : i ≠ .psReset ps) (hcls : (s.parser ps).cls ≠ .none) :
    (t.parser ps).cls ≠ .none := by
  cases hw : mayWriteParser s.cfg i with
  | false => rwa [exec_keeps_parser h hw]
  | true =>
    rcases mayWriteParser_cases hw with rfl | ⟨r, rfl⟩ | ⟨r, chars, length, cursor, rfl⟩ | ⟨c, hc⟩
    · exact absurd rfl hreset
    · obtain ⟨-, rfl⟩ := execPsReset_next h
      exact State.setParser_keeps_cls_ne_none hinv.parsersWf hcls fun hr => absurd (congrArg Instr.psReset hr) hps
    · obtain ⟨-, done, k, q, hq, rfl⟩ := execProcessChunk_next h
      refine State.setParser_keeps_cls_ne_none hinv.parsersWf hcls fun hr => ?_
      subst hr
      exact (chunkRun_of_processChunk (hinv.parsersInv r) hq).keeps_cls_ne_none hcls
    · rw [exec_charOf i c s hc] at h
      obtain ⟨-, -, -, -, -, r, chars, cursor, q, k, done, -, hq, hparsers⟩ := feedChar_frame h
      rw [State.parser, hparsers]
      refine State.setParser_keeps_cls_ne_none hinv.parsersWf hcls fun hr => ?_
      subst hr
      exact consumeChar_keeps_cls_ne_none hcls hq

/-- Settles O15: the write of `PS_RESET`, the frame of the instructions that write no ParserState, and `cls` under the
others. -/
theorem psResetResetsOne : Obligations.PsResetResetsOne := by
  refine ⟨fun s ps hinv hb => ⟨_, exec_psReset hb, ?_⟩, fun s t i ps h hw => exec_keeps_parser h hw ps,
    fun s t i ps => exec_keeps_cls_ne_none⟩
  have hself : ((s.setParser ps (resetParser (s.parser ps))).ret .done).parser ps = resetParser (s.parser ps) :=
    State.parser_setParser s ps _
  rw [hself]
  exact ⟨rfl, rfl, rfl, rfl, rfl, fun q hq => State.parser_setParser_other s ps q _ hinv.parsersWf hq, rfl⟩

end Sys2Proof.Machine
end
